-- ==== Sys2Proof/Word.lean ====
section
/-! DEFINITION. The word types of the block: bus words, command words, block offsets, binary64 patterns
(00_scope.md R7, R9; 20_memory.md R60, R61). -/

namespace Sys2Proof

/-- One byte; byte `k` of a bus word holds its bits `8k+7 : 8k` (20_memory.md R65). -/
abbrev Byte := BitVec 8

/-- One 64-bit bus word: what every host access moves (20_memory.md R60, R66). -/
abbrev Word := BitVec 64

/-- The bit pattern of one binary64 value: sign in bit 63, exponent in 62:52, fraction in 51:0
(00_scope.md R9, 20_memory.md R65). -/
abbrev F64 := BitVec 64

/-- One 32-bit command word (30_encoding.md R90). -/
abbrev CmdWord := BitVec 32

/-- A block offset: the block decodes one space of `2^23` bytes (20_memory.md R61). -/
abbrev Offset := BitVec 23

end Sys2Proof
end

