-- ==== Sys2Proof/Syntax.lean ====
section
/-! DEFINITION. The commands: one constructor for each row of opcode_table.json, with the operands
30_encoding.md R94 to R98 give it. -/

namespace Sys2Proof

/-- A complex buffer, C0 or C1 (10_state.md R39, 30_encoding.md R94). -/
inductive CBuf where
  | c0 | c1
  deriving DecidableEq, Repr

/-- A real buffer, R0 or R1 (10_state.md R40, 30_encoding.md R94). -/
inductive RBuf where
  | r0 | r1
  deriving DecidableEq, Repr

/-- DIR: 0 FORWARD, 1 INVERSE (30_encoding.md R95). -/
inductive Dir where
  | forward | inverse
  deriving DecidableEq, Repr

/-- WK: 0 Hann, 1 Hamming, 2 Blackman; 3 is reserved and has no constructor (30_encoding.md R96). -/
inductive WindowKind where
  | hann | hamming | blackman
  deriving DecidableEq, Repr

/-- The nine commands (30_encoding.md R92), destination first where there is one, as the assembler
writes them (R100). -/
inductive Instr where
  | nop
  | fft (s : CBuf) (dir : Dir)
  | mag (d : RBuf) (s : CBuf)
  | peaks (s : RBuf) (maxp : BitVec 8)
  | pitchpk (s : CBuf)
  | pitchhps (s : CBuf) (h : BitVec 4)
  | pitchac (d : CBuf) (s : CBuf)
  | conf
  | win (s : CBuf) (wk : WindowKind)
  deriving DecidableEq, Repr

end Sys2Proof
end

