-- ==== Sys2Proof/Config.lean ====
section
/-! DEFINITION. What is fixed for the life of a model: the parameters of 00_scope.md R7 as one argument, `Params`,
with the reference configuration as one instance (log entry 1), and the free values, which have no body
(93_implementation_defined.md sections 2 and 3). -/

namespace Sys2Proof

/-- WIN_DENOM, the denominator convention of the default window coefficients (00_scope.md R7). -/
inductive WinDenom where
  | nMinusOne | n
  deriving DecidableEq, Repr

/-- COS64 and SIN64: correctly rounded, or the functions of `Config.cosOf` and `Config.sinOf`, which can be any that
meet the laws of 00_scope.md R7 (log entry 2). -/
inductive Trig where
  | rounded | configured
  deriving DecidableEq, Repr

/-- WINCOEF: the default of 44_window.md R244, or the function `Config.windowCoef`, which can be any
(log entry 1). -/
inductive WinCoef where
  | default | configured
  deriving DecidableEq, Repr

/-- The parameters of 00_scope.md R7, with their legal values. -/
structure Params where
  /-- LOG2_NMAX -/
  log2Nmax : Nat
  /-- PEAK_CAP -/
  peakCap : Nat
  /-- COS64 and SIN64 -/
  trig : Trig
  /-- WINCOEF -/
  winCoef : WinCoef
  /-- WIN_DENOM -/
  winDenom : WinDenom
  /-- PK_FMIN, in Hz -/
  pkFmin : Nat
  /-- PK_FMAX, in Hz -/
  pkFmax : Nat
  /-- HPS_FMIN, in Hz -/
  hpsFmin : Nat
  /-- HPS_FMAX, in Hz -/
  hpsFmax : Nat
  /-- AC_FMIN, in Hz -/
  acFmin : Nat
  /-- AC_FMAX, in Hz -/
  acFmax : Nat
  /-- the legal values -/
  legal : (1 ≤ log2Nmax ∧ log2Nmax ≤ 16) ∧ (1 ≤ peakCap ∧ peakCap ≤ 255) ∧ acFmin ≠ 0 ∧ acFmax ≠ 0
  deriving DecidableEq, Repr

/-- NMAX, the entries of each buffer and the largest legal LEN (00_scope.md R7). -/
def Params.nmax (p : Params) : Nat := 2 ^ p.log2Nmax

/-- The reference configuration (00_scope.md R7). -/
def Params.reference : Params where
  log2Nmax := 13
  peakCap := 64
  trig := .rounded
  winCoef := .default
  winDenom := .nMinusOne
  pkFmin := 80
  pkFmax := 2000
  hpsFmin := 80
  hpsFmax := 1000
  acFmin := 80
  acFmax := 1000
  legal := by decide

end Sys2Proof

namespace Sys2Proof.Config

/-- BASE, the block's base address on the platform bus: OPEN, the platform's (20_memory.md R61;
log entry 9). -/
opaque base : Nat

/-- The operations whose result can be a NaN the rules leave open (40_command.md R126). -/
inductive FloatOp where
  | add | sub | mul | div | sqrt | cos | sin
  deriving DecidableEq, Repr

/-- The pattern behind NAN_OUT, for one operation on its operands: any value, under no law
(40_command.md R126; log entry 3).  `nanOut` makes a NaN of it. -/
opaque nanPattern : FloatOp → F64 → F64 → F64

/-- COS64 on magnitudes, where it is not the correctly rounded function: any (00_scope.md R7; log entry 2). -/
opaque cosOf : F64 → F64

/-- SIN64 on magnitudes, where it is not the correctly rounded function: any (00_scope.md R7; log entry 2). -/
opaque sinOf : F64 → F64

/-- WINCOEF, where it is not the default: any total function (44_window.md R244; log entry 1). -/
opaque windowCoef : (kind : WindowKind) → (i n : Nat) → F64

/-- `draw()`: the `k`-th value the hardware does not specify (00_scope.md R10; log entry 4). -/
opaque draw : Nat → Word

/-- What power-on reset number `epoch` leaves in the buffer byte at a block offset: any value
(10_state.md R47, 70_reset_and_hazards.md R290; log entry 5). -/
opaque powerOnByte : (epoch offset : Nat) → Byte

end Sys2Proof.Config
end

