-- ==== Sys2Proof/Machine/Float64.lean ====
section
/-! DEFINITION. Binary64 arithmetic on bit patterns (40_command.md R125 to R127): each operation computes the
exact result and rounds it once, to nearest, ties to even; the cases R125 does not list follow IEEE 754
(PRESUMED, log entry 13).  Every finite binary64 value is an integer multiple
of `2^-1074`, so exact values are integers, or quotients of naturals, in that unit. -/

namespace Sys2Proof.Machine

/-! ## Patterns -/

/-- The sign, bit 63. -/
def signOf (x : F64) : Bool := Nat.ble (2 ^ 63) x.toNat

/-- Bits 62:0; as naturals they order the magnitudes of values that are no NaN. -/
def magBits (x : F64) : Nat := x.toNat % 2 ^ 63

/-- The magnitude bits of an infinity. -/
def infBits : Nat := 2047 * 2 ^ 52

/-- The pattern of a sign and magnitude bits. -/
def packBits (neg : Bool) (m : Nat) : F64 := BitVec.ofNat 64 (if neg then 2 ^ 63 + m else m)

/-- Exponent all ones, fraction not 0. -/
def isNaN (x : F64) : Bool := Nat.blt infBits (magBits x)

/-- Exponent all ones, fraction 0. -/
def isInf (x : F64) : Bool := Nat.beq (magBits x) infBits

/-- +0 or -0. -/
def isZero (x : F64) : Bool := Nat.beq (magBits x) 0

/-- Neither infinite nor a NaN. -/
def isFinite (x : F64) : Bool := Nat.blt (magBits x) infBits

/-- The magnitude of a finite value, in units of `2^-1074`. -/
def unitsOf (x : F64) : Nat :=
  let e := magBits x / 2 ^ 52
  let f := magBits x % 2 ^ 52
  if e = 0 then f else (2 ^ 52 + f) * 2 ^ (e - 1)

/-- A finite value, in units of `2^-1074`. -/
def exactInt (x : F64) : Int := if signOf x then -(unitsOf x : Int) else (unitsOf x : Int)

/-- The rational a finite pattern denotes (00_scope.md R9); statements use it, no meaning does. -/
def toRat (x : F64) : ℚ := (exactInt x : ℚ) / 2 ^ 1074

/-! ## Rounding -/

/-- `log2` by halving the width: what `Nat.log2` gives below `2 ^ 2 ^ k`. -/
def log2Below : Nat → Nat → Nat
  | 0, _ => 0
  | k + 1, n => if n < 2 ^ 2 ^ k then log2Below k n else 2 ^ k + log2Below k (n / 2 ^ 2 ^ k)

/-- The floor of `log2 n` for `0 < n < 2 ^ 4096`, which holds every exact value here. -/
def floorLog2 (n : Nat) : Nat := log2Below 12 n

/-- The magnitude bits of `num / den` units of `2^-1074`, rounded to nearest, ties to even; infinity when it
rounds past the largest finite value, a subnormal when it lies below the normal range (R125). -/
def roundBits (num den : Nat) : Nat :=
  let shift := floorLog2 (num / den) - 52
  let d := den * 2 ^ shift
  let q := num / d
  let r := num % d
  let up := if 2 * r > d ∨ (2 * r = d ∧ q % 2 = 1) then 1 else 0
  min (shift * 2 ^ 52 + (q + up)) infBits

/-- A NaN result: any NaN pattern (R126; log entry 3). -/
def nanOut (op : Config.FloatOp) (a b : F64) : F64 :=
  if isNaN (Config.nanPattern op a b) then Config.nanPattern op a b else 0x7FF8000000000000

/-! ## The operations (R125) -/

/-- Flips bit 63, for every input. -/
def fneg (a : F64) : F64 := a ^^^ 0x8000000000000000

/-- The rounded sum, or `nan` where IEEE 754 gives a NaN.  An exact zero sum is +0, but -0 when both terms
are -0. -/
def roundedSum (nan a b : F64) : F64 :=
  if isNaN a || isNaN b then nan
  else if isInf a then (if isInf b && (signOf a != signOf b) then nan else a)
  else if isInf b then b
  else
    let z := exactInt a + exactInt b
    if z = 0 then packBits (signOf a && signOf b) 0
    else packBits (decide (z < 0)) (roundBits z.natAbs 1)

/-- `fadd` (R125). -/
def fadd (a b : F64) : F64 := roundedSum (nanOut .add a b) a b

/-- `fsub` (R125): the sum with the second operand negated. -/
def fsub (a b : F64) : F64 := roundedSum (nanOut .sub a b) a (fneg b)

/-- `fmul` (R125). -/
def fmul (a b : F64) : F64 :=
  let neg := signOf a != signOf b
  if isNaN a || isNaN b then nanOut .mul a b
  else if isInf a || isInf b then
    if isZero a || isZero b then nanOut .mul a b else packBits neg infBits
  else packBits neg (roundBits (unitsOf a * unitsOf b) (2 ^ 1074))

/-- `fdiv` (R125). -/
def fdiv (a b : F64) : F64 :=
  let neg := signOf a != signOf b
  if isNaN a || isNaN b then nanOut .div a b
  else if isInf a then (if isInf b then nanOut .div a b else packBits neg infBits)
  else if isInf b then packBits neg 0
  else if isZero b then (if isZero a then nanOut .div a b else packBits neg infBits)
  else packBits neg (roundBits (unitsOf a * 2 ^ 1074) (unitsOf b))

/-- Newton's iteration for the integer square root, from above, until it no longer falls. -/
def sqrtLoop : Nat → Nat → Nat → Nat
  | 0, _, x => x
  | k + 1, n, x =>
    let y := (x + n / x) / 2
    if y < x then sqrtLoop k n y else x

/-- The floor of the square root of `n`, for `n < 2 ^ 4096`. -/
def floorSqrt (n : Nat) : Nat :=
  if n = 0 then 0 else sqrtLoop (floorLog2 n + 2) n (2 ^ (floorLog2 n / 2 + 1))

/-- `fsqrt` (R125).  In units of `2^-1074` the root of `u` is the root of the integer `u * 2^1074`; where
that is no integer, the half above its floor `r` rounds as the root does, because the bits kept end above the
unit. -/
def fsqrt (a : F64) : F64 :=
  if isNaN a then nanOut .sqrt a a
  else if isZero a then a
  else if signOf a then nanOut .sqrt a a
  else if isInf a then a
  else
    let n := unitsOf a * 2 ^ 1074
    let r := floorSqrt n
    packBits false (roundBits (2 * r + (if r * r = n then 0 else 1)) 2)

/-! ## Comparisons (R127) -/

/-- The order of the values that are no NaN: +0 and -0 alike, infinities outermost. -/
def orderKey (x : F64) : Int := if signOf x then -(magBits x : Int) else (magBits x : Int)

/-- `a > b`; false when either is a NaN. -/
def fgt (a b : F64) : Bool := !isNaN a && !isNaN b && decide (orderKey b < orderKey a)

/-- `a == b`; false when either is a NaN. -/
def feq (a b : F64) : Bool := !isNaN a && !isNaN b && decide (orderKey a = orderKey b)

/-! ## Conversion and constants -/

/-- `i2f(n)` (00_scope.md R9). -/
def i2f (n : Nat) : F64 := packBits false (roundBits (n * 2 ^ 1074) 1)

/-- 0.5 -/
def half : F64 := 0x3FE0000000000000
/-- 1.0 -/
def one : F64 := 0x3FF0000000000000
/-- 2.0 -/
def two : F64 := 0x4000000000000000
/-- 3.0 (43_pitch.md R215) -/
def three : F64 := 0x4008000000000000
/-- +0.0 -/
def plusZero : F64 := 0x0000000000000000

/-- TWO_PI (40_command.md R129). -/
def twoPi : F64 := 0x401921FB54442D18
/-- FOUR_PI (40_command.md R129). -/
def fourPi : F64 := 0x402921FB54442D18

/-! ## Complex values (40_command.md R128) -/

/-- A complex entry (00_scope.md R9). -/
structure Cplx where
  re : F64
  im : F64
  deriving DecidableEq, Repr

/-- ONE -/
def Cplx.one : Cplx := ⟨Machine.one, plusZero⟩

/-- `cadd` -/
def cadd (a b : Cplx) : Cplx := ⟨fadd a.re b.re, fadd a.im b.im⟩

/-- `csub` -/
def csub (a b : Cplx) : Cplx := ⟨fsub a.re b.re, fsub a.im b.im⟩

/-- `cmul`: four rounded products, two rounded sums, no infinity recovery. -/
def cmul (a b : Cplx) : Cplx :=
  ⟨fsub (fmul a.re b.re) (fmul a.im b.im), fadd (fmul a.re b.im) (fmul a.im b.re)⟩

/-- `conj` -/
def conj (a : Cplx) : Cplx := ⟨a.re, fneg a.im⟩

/-- `cdivn` -/
def cdivn (a : Cplx) (n : Nat) : Cplx := ⟨fdiv a.re (i2f n), fdiv a.im (i2f n)⟩

end Sys2Proof.Machine
end

