-- ==== Sys2Proof/Decode.lean ====
section
/-! DEFINITION. Decoding and encoding of command words, from 30_encoding.md R91 and R93. -/

namespace Sys2Proof

/-- Why a word is no command (30_encoding.md R99); 60_exceptions.md R263 rejects all alike, with ILLEGAL_CMD
(log entry 16). -/
inductive DecodeError where
  /-- opcodes 0x9 to 0xF -/
  | reservedOpcode
  /-- WIN with WK = 3 -/
  | reservedWindow
  /-- a 1 in a reserved bit, or in a field the opcode does not use -/
  | strayBits
  /-- fewer than the four bytes of a command word -/
  | truncated
  deriving DecidableEq, Repr

/-! ## Fields (R91) -/

/-- OP, bits 3:0. -/
def opField (w : CmdWord) : BitVec 4 := w.extractLsb' 0 4
/-- S, bit 4. -/
def sField (w : CmdWord) : Bool := w.getLsbD 4
/-- D, bit 5. -/
def dField (w : CmdWord) : Bool := w.getLsbD 5
/-- DIR, bit 6. -/
def dirField (w : CmdWord) : Bool := w.getLsbD 6
/-- WK, bits 9:8. -/
def wkField (w : CmdWord) : BitVec 2 := w.extractLsb' 8 2
/-- H, bits 15:12. -/
def hField (w : CmdWord) : BitVec 4 := w.extractLsb' 12 4
/-- MAXP, bits 23:16. -/
def maxpField (w : CmdWord) : BitVec 8 := w.extractLsb' 16 8

/-- The complex buffer a selector bit names (R94). -/
def CBuf.ofBit (b : Bool) : CBuf := if b then .c1 else .c0
/-- The real buffer a selector bit names (R94). -/
def RBuf.ofBit (b : Bool) : RBuf := if b then .r1 else .r0
/-- The direction a DIR bit names (R95). -/
def Dir.ofBit (b : Bool) : Dir := if b then .inverse else .forward
/-- The window a WK field names; 3 names none (R96). -/
def WindowKind.ofField (k : BitVec 2) : Option WindowKind :=
  if k = 0 then some .hann else if k = 1 then some .hamming else if k = 2 then some .blackman else none

/-! ## The decoder -/

/-- A word is a command iff `(w AND mask) = match` for its row, and for WIN additionally `w[9:8] != 3`
(R93).  Total; what matches no row is refused by name (R99). -/
def decode (w : CmdWord) : Except DecodeError Instr :=
  if w &&& 0xFFFFFFFF = 0x00000000 then .ok .nop
  else if w &&& 0xFFFFFFAF = 0x00000001 then .ok (.fft (.ofBit (sField w)) (.ofBit (dirField w)))
  else if w &&& 0xFFFFFFCF = 0x00000002 then .ok (.mag (.ofBit (dField w)) (.ofBit (sField w)))
  else if w &&& 0xFF00FFEF = 0x00000003 then .ok (.peaks (.ofBit (sField w)) (maxpField w))
  else if w &&& 0xFFFFFFEF = 0x00000004 then .ok (.pitchpk (.ofBit (sField w)))
  else if w &&& 0xFFFF0FEF = 0x00000005 then .ok (.pitchhps (.ofBit (sField w)) (hField w))
  else if w &&& 0xFFFFFFCF = 0x00000006 then .ok (.pitchac (.ofBit (dField w)) (.ofBit (sField w)))
  else if w &&& 0xFFFFFFFF = 0x00000007 then .ok .conf
  else if w &&& 0xFFFFFCEF = 0x00000008 then
    match WindowKind.ofField (wkField w) with
    | some k => .ok (.win (.ofBit (sField w)) k)
    | none => .error .reservedWindow
  else if 9 ≤ (opField w).toNat then .error .reservedOpcode
  else .error .strayBits

/-- The command word in the first four bytes, least significant byte first (20_memory.md R65), and the bytes
after it: every command is one 32-bit word (R90). -/
def decodeBytes : List Byte → Except DecodeError (Instr × List Byte)
  | b0 :: b1 :: b2 :: b3 :: rest =>
    match decode (BitVec.ofNat 32
        (b0.toNat + 2 ^ 8 * b1.toNat + 2 ^ 16 * b2.toNat + 2 ^ 24 * b3.toNat)) with
    | .ok i => .ok (i, rest)
    | .error e => .error e
  | _ => .error .truncated

/-! ## The encoder -/

/-- The selector bit of a complex buffer (R94). -/
def CBuf.bit : CBuf → BitVec 32
  | .c0 => 0
  | .c1 => 1
/-- The selector bit of a real buffer (R94). -/
def RBuf.bit : RBuf → BitVec 32
  | .r0 => 0
  | .r1 => 1
/-- The DIR bit (R95). -/
def Dir.bit : Dir → BitVec 32
  | .forward => 0
  | .inverse => 1
/-- The WK field (R96). -/
def WindowKind.field : WindowKind → BitVec 32
  | .hann => 0
  | .hamming => 1
  | .blackman => 2

/-- `OP | (S << 4) | (D << 5) | (DIR << 6) | (WK << 8) | (H << 12) | (MAXP << 16)` (R91). -/
def buildWord (op s d dir wk h maxp : BitVec 32) : CmdWord :=
  op ||| (s <<< 4) ||| (d <<< 5) ||| (dir <<< 6) ||| (wk <<< 8) ||| (h <<< 12) ||| (maxp <<< 16)

/-- The word of a command; a field the opcode does not use is 0 (R92, R93). -/
def encode : Instr → CmdWord
  | .nop => buildWord 0 0 0 0 0 0 0
  | .fft s dir => buildWord 1 s.bit 0 dir.bit 0 0 0
  | .mag d s => buildWord 2 s.bit d.bit 0 0 0 0
  | .peaks s m => buildWord 3 s.bit 0 0 0 0 (m.setWidth 32)
  | .pitchpk s => buildWord 4 s.bit 0 0 0 0 0
  | .pitchhps s h => buildWord 5 s.bit 0 0 0 (h.setWidth 32) 0
  | .pitchac d s => buildWord 6 s.bit d.bit 0 0 0 0
  | .conf => buildWord 7 0 0 0 0 0 0
  | .win s k => buildWord 8 s.bit 0 0 k.field 0 0

/-- The bytes of a command word, least significant first (20_memory.md R65). -/
def cmdBytes (w : CmdWord) : List Byte :=
  [w.extractLsb' 0 8, w.extractLsb' 8 8, w.extractLsb' 16 8, w.extractLsb' 24 8]

/-! ## The host's reading of a table row -/

/-- The command in an instruction whose bits are `w`, `nbits` of them, bit 0 the least significant bit of its
one 32-bit word: the word's four bytes are laid out and decoded; a bit at or above 32 belongs to no command. -/
def decodeTableWord (nbits w : Nat) : Option Instr :=
  let v := w % 2 ^ nbits
  if v < 2 ^ 32 then
    match decodeBytes (cmdBytes (BitVec.ofNat 32 v)) with
    | .ok (i, _) => some i
    | .error _ => none
  else none

end Sys2Proof
end

