-- ==== Sys2Proof/Machine/State.lean ====
section
/-! DEFINITION. The state: every register, buffer and hidden field of 10_state.md, the host's bus
(20_memory.md R60) as data, and the reset state (10_state.md R46, R47).  Field by field in INVENTORY.md. -/

namespace Sys2Proof.Machine

/-- STATUS.ERRCODE: exactly one of the six values of 60_exceptions.md R261. -/
inductive ErrCode where
  | none | illegalCmd | invalidSize | sizeRange | illegalOperand | badFs
  deriving DecidableEq, Repr

/-- The pending command: the accepted word with N = LEN and fs = FS as they were at acceptance
(10_state.md R42, 40_command.md R121). -/
structure Pending where
  word : CmdWord
  len : BitVec 32
  fs : BitVec 32
  deriving DecidableEq, Repr

/-- A host bus transaction at a block offset; there is no other (20_memory.md R60). -/
inductive Txn where
  | read (off : Offset)
  | write (off : Offset) (v : Word)
  deriving DecidableEq, Repr

/-- The bus response, OK or ERR (20_memory.md R60). -/
inductive Resp where
  | ok | err
  deriving DecidableEq, Repr

/-- What a completed transaction returned to the host (20_memory.md R60). -/
inductive Reply where
  | read (data : Word) (resp : Resp)
  | write (resp : Resp)
  deriving DecidableEq, Repr

/-- One move of the interleaving of 20_memory.md R71: a host transaction, the engine's step, or the power-on
reset input (70_reset_and_hazards.md R290).  The outside chooses them (log entry 6). -/
inductive Turn where
  | host (t : Txn)
  | engine
  | powerOn
  deriving DecidableEq, Repr

/-- The state of the block and of its bus. -/
structure State where
  /-- the parameters of 00_scope.md R7; configuration, which no step changes (R44; log entry 1) -/
  params : Params
  /-- CTRL.IE (10_state.md R29) -/
  ie : Bool
  /-- STATUS.DONE (R30) -/
  done : Bool
  /-- STATUS.ERR (R30) -/
  err : Bool
  /-- STATUS.HAZ (R30) -/
  haz : Bool
  /-- STATUS.ERRCODE (R30) -/
  errcode : ErrCode
  /-- CMD, bits 31:0 (R31) -/
  cmd : CmdWord
  /-- LEN, bits 31:0 (R32) -/
  len : BitVec 32
  /-- FS, bits 31:0 (R33) -/
  fs : BitVec 32
  /-- PEAK_THR (R34) -/
  peakThr : F64
  /-- PCOUNT, bits 7:0 (R35) -/
  pcount : BitVec 8
  /-- F_PEAK (R36) -/
  fPeak : F64
  /-- F_HPS (R36) -/
  fHps : F64
  /-- F_AC (R36) -/
  fAc : F64
  /-- CONF (R37) -/
  conf : F64
  /-- PK_BIN, bits 31:0 (R38) -/
  pkBin : BitVec 32
  /-- HPS_BIN, bits 31:0 (R38) -/
  hpsBin : BitVec 32
  /-- AC_LAG, bits 31:0 (R38) -/
  acLag : BitVec 32
  /-- the pending command (R42); STATUS.BUSY is 1 exactly while there is one -/
  pending : Option Pending
  /-- the buffers C0, C1, R0, R1, P (R39 to R41): the bytes stored since power-on, by block offset -/
  mem : List Host.Cell
  /-- the model's own: how many power-on resets came before, which selects their free contents -/
  epoch : Nat
  /-- the model's own: how many values `draw()` has supplied -/
  draws : Nat
  /-- the model's own: the moves still to come, next first -/
  turns : List Turn
  /-- the model's own: what the last bus transaction returned -/
  reply : Option Reply
  deriving DecidableEq, Repr

/-- Why a step can stop. -/
inductive Fault where
  /-- Raised by `step` when the engine holds a pending command that 60_exceptions.md R267 rejects, so that it
  was never accepted (40_command.md R120).  Safe: no state a host can bring about holds one
  (`Inv` of Safety.lean excludes it; log entry 10), and no behaviour of the block is cut off. -/
  | pendingNotAcceptable
  deriving DecidableEq, Repr

/-- Why an instruction can have no meaning. -/
inductive Refusal where
  /-- Raised by an arm of `exec` for an instruction that has no meaning yet.  Safe: the machine stops.  No arm
  of this model raises it. -/
  | notModelled (mnemonic : String)
  deriving DecidableEq, Repr

/-- After a power-on reset (10_state.md R46, 70_reset_and_hazards.md R290): the registers at their reset
values, nothing pending, every buffer byte unwritten; the parameters are the reference ones (log entry 1).  The
model's own counters, moves and answer start at 0 and empty (log entries 4 to 7). -/
def State.reset : State where
  params := .reference
  ie := false
  done := false
  err := false
  haz := false
  errcode := .none
  cmd := 0x00000000
  len := 0
  fs := 44100
  peakThr := 0x3FB999999999999A
  pcount := 0
  fPeak := 0x0000000000000000
  fHps := 0x0000000000000000
  fAc := 0x0000000000000000
  conf := 0x0000000000000000
  pkBin := 0
  hpsBin := 0
  acLag := 0
  pending := none
  mem := []
  epoch := 0
  draws := 0
  turns := []
  reply := none

end Sys2Proof.Machine
end

