-- ==== Sys2Proof/WellFormed.lean ====
section
/-! DEFINITION. Well-formed commands: the operand values 30_encoding.md R97 and R98 call legal.  Every other
operand is legal by its type. -/

namespace Sys2Proof

/-- H is 1..15 (30_encoding.md R97). -/
def Instr.harmonicsLegal : Instr → Bool
  | .pitchhps _ h => h != 0
  | .nop | .fft _ _ | .mag _ _ | .peaks _ _ | .pitchpk _ | .pitchac _ _ | .conf | .win _ _ => true

/-- MAXP is 0..PEAK_CAP (30_encoding.md R98). -/
def Instr.maxPeaksLegal (i : Instr) (p : Params) : Bool :=
  match i with
  | .peaks _ m => Nat.ble m.toNat p.peakCap
  | .nop | .fft _ _ | .mag _ _ | .pitchpk _ | .pitchhps _ _ | .pitchac _ _ | .conf | .win _ _ => true

/-- Both operand checks (60_exceptions.md R266 rejects a command that fails one). -/
def Instr.wellFormed (i : Instr) (p : Params) : Bool := i.harmonicsLegal && i.maxPeaksLegal p

end Sys2Proof
end

