-- ==== Sys2Proof/Machine/Ops.lean ====
section
/-! DEFINITION. The named operations over memory and registers that every meaning and the bus share: bytes and
words of the buffers, drawn values, the checks made at issue, and the block's one kind of exception, the
command error, with its acknowledgement. -/

namespace Sys2Proof.Machine

/-! ## Memory: the buffer bytes, by block offset (20_memory.md R62, R65) -/

/-- The canonical form of memory: offsets strictly rising, so one entry at most for an offset.  An offset that
is not listed holds no stored byte, so no entry equals what an unlisted offset holds (log entry 5). -/
abbrev Memory.wf (m : List Host.Cell) : Prop := (m.map Prod.fst).Pairwise (· < ·)

/-- The byte stored at an offset, if any was stored since power-on. -/
def Memory.byte? (m : List Host.Cell) (a : Nat) : Option Byte := m.lookup a

/-- Consecutive cells from offset `a` on. -/
def cellsFrom : Nat → List Byte → List Host.Cell
  | _, [] => []
  | a, b :: bs => (a, b) :: cellsFrom (a + 1) bs

/-- Store bytes at the offsets `a`, `a + 1`, ...: the one way memory changes. -/
def Memory.store (m : List Host.Cell) (a : Nat) (bs : List Byte) : List Host.Cell :=
  m.filter (fun c => Nat.blt c.1 a) ++ (cellsFrom a bs ++ m.filter (fun c => Nat.ble (a + bs.length) c.1))

/-- The `k` low bytes of a number, least significant first (20_memory.md R65). -/
def leBytes : Nat → Nat → List Byte
  | 0, _ => []
  | k + 1, n => BitVec.ofNat 8 n :: leBytes k (n / 256)

/-- The number whose bytes, least significant first, are these (20_memory.md R65). -/
def leNat : List Byte → Nat
  | [] => 0
  | b :: bs => b.toNat + 256 * leNat bs

/-- The eight bytes of a bus word: byte 0 holds bits 7:0, byte 7 bits 63:56 (20_memory.md R65). -/
def wordBytes (v : Word) : List Byte := leBytes 8 v.toNat

/-- The bytes of consecutive words. -/
def wordsBytes : List Word → List Byte
  | [] => []
  | v :: vs => wordBytes v ++ wordsBytes vs

/-- The state with another memory. -/
def State.withMem (s : State) (m : List Host.Cell) : State := { s with mem := m }

/-- The byte at a buffer offset: the one stored last, or, where none was stored since power-on, a free one
(10_state.md R47, log entry 5). -/
def State.byteAt (s : State) (a : Nat) : Byte :=
  match Memory.byte? s.mem a with
  | some b => b
  | none => Config.powerOnByte s.epoch a

/-- The word at a buffer offset (20_memory.md R62, R65). -/
def State.wordAt (s : State) (a : Nat) : Word :=
  BitVec.ofNat 64 (leNat ((List.range 8).map fun k => s.byteAt (a + k)))

/-- Store consecutive words from a buffer offset on. -/
def State.storeWords (s : State) (a : Nat) (vs : List Word) : State :=
  s.withMem (Memory.store s.mem a (wordsBytes vs))

/-! ## Drawn values (00_scope.md R10; log entry 4) -/

/-- `draw()` for `k` consecutive words from offset `a` on. -/
def State.drawWords (s : State) (run : Nat × Nat) : State :=
  let vs := (List.range run.2).map fun t => Config.draw (s.draws + t)
  { s.storeWords run.1 vs with draws := s.draws + run.2 }

/-! ## Checks at issue (60_exceptions.md R262 to R267) -/

/-- `ispow2` (40_command.md R130). -/
def isPow2 (n : Nat) : Bool := n != 0 && (n &&& (n - 1)) == 0

/-- The commands that use N, hence check LEN (60_exceptions.md R262, R267). -/
def usesLen : Instr → Bool
  | .nop | .conf => false
  | .fft _ _ | .mag _ _ | .peaks _ _ | .pitchpk _ | .pitchhps _ _ | .pitchac _ _ | .win _ _ => true

/-- The commands that check FS (60_exceptions.md R264, R267). -/
def usesFs : Instr → Bool
  | .peaks _ _ | .pitchpk _ | .pitchhps _ _ | .pitchac _ _ => true
  | .nop | .fft _ _ | .mag _ _ | .conf | .win _ _ => false

/-- The checks of a decoded command, in the order of the codes (60_exceptions.md R267). -/
def checkInstr (p : Params) (i : Instr) (len fs : BitVec 32) : ErrCode :=
  if usesLen i && !isPow2 len.toNat then .invalidSize
  else if usesLen i && Nat.blt p.nmax len.toNat then .sizeRange
  else if !i.wellFormed p then .illegalOperand
  else if usesFs i && fs == 0 then .badFs
  else .none

/-- `Check(w, len, fs)`: the command, or the error code it is rejected with; when several apply, the lowest
(60_exceptions.md R267). -/
def check (p : Params) (w : CmdWord) (len fs : BitVec 32) : Except ErrCode Instr :=
  match decode w with
  | .error _ => .error .illegalCmd
  | .ok i =>
    match checkInstr p i len fs with
    | .none => .ok i
    | e => .error e

/-! ## The command error: the block's exception and its acknowledgement -/

/-- `raise Error(code)` (60_exceptions.md R265): ERR and ERRCODE report it; nothing else changes, nothing is
saved or vectored (R272), and CMD, written at issue, holds the rejected word. -/
def raiseError (e : ErrCode) (s : State) : State := { s with err := true, errcode := e }

/-- The host's W1C write of STATUS (10_state.md R24, R30): bit 1 clears DONE, bit 2 ERR, bit 3 HAZ; BUSY,
ERRCODE and reserved bits ignore it.  The return from an error or a completion (60_exceptions.md R273). -/
def acknowledge (v : Word) (s : State) : State :=
  { s with
    done := s.done && !v.getLsbD 1
    err := s.err && !v.getLsbD 2
    haz := s.haz && !v.getLsbD 3 }

/-! ## Result registers (40_command.md R124) -/

/-- `x[F_PEAK] <- f; x[PK_BIN] <- zext_64(b)` (43_pitch.md R200). -/
def State.setPeak (s : State) (f : F64) (b : Nat) : State := { s with fPeak := f, pkBin := BitVec.ofNat 32 b }

/-- `x[F_HPS] <- f; x[HPS_BIN] <- zext_64(b)` (43_pitch.md R205). -/
def State.setHps (s : State) (f : F64) (b : Nat) : State := { s with fHps := f, hpsBin := BitVec.ofNat 32 b }

/-- `x[F_AC] <- f; x[AC_LAG] <- zext_64(lag)` (43_pitch.md R210). -/
def State.setAc (s : State) (f : F64) (lag : Nat) : State := { s with fAc := f, acLag := BitVec.ofNat 32 lag }

/-- `x[CONF] <- f` (43_pitch.md R215). -/
def State.setConf (s : State) (f : F64) : State := { s with conf := f }

/-- `x[PCOUNT] <- n` (42_magnitude_peak.md R183). -/
def State.setPcount (s : State) (n : Nat) : State := { s with pcount := BitVec.ofNat 8 n }

end Sys2Proof.Machine
end

