-- ==== Sys2Proof/Machine/Operands.lean ====
section
/-! DEFINITION. The operand forms (30_encoding.md R94): buffer selectors and the block offsets of their entries
(20_memory.md R62), whole-buffer reads and writes, and N and fs of the command in flight. -/

namespace Sys2Proof.Machine

/-! ## Offsets of entries (20_memory.md R62) -/

/-- Base of a complex buffer. -/
def cBase : CBuf → Nat
  | .c0 => 0x100000
  | .c1 => 0x200000

/-- Base of a real buffer. -/
def rBase : RBuf → Nat
  | .r0 => 0x300000
  | .r1 => 0x380000

/-- Base of the peak list. -/
def pBase : Nat := 0x400000

/-- Offset of `C[b][i].re`; `C[b][i].im` lies at 8 more. -/
def cAddr (b : CBuf) (i : Nat) : Nat := cBase b + 16 * i

/-- Offset of `R[b][i]`. -/
def rAddr (b : RBuf) (i : Nat) : Nat := rBase b + 8 * i

/-- Offset of `P[j].BIN`; FREQ, MAG and PAD lie at 8, 16 and 24 more. -/
def pAddr (j : Nat) : Nat := pBase + 32 * j

/-! ## Entries -/

/-- `C[b][i]` -/
def State.cAt (s : State) (b : CBuf) (i : Nat) : Cplx := ⟨s.wordAt (cAddr b i), s.wordAt (cAddr b i + 8)⟩

/-- `R[b][i]` -/
def State.rAt (s : State) (b : RBuf) (i : Nat) : F64 := s.wordAt (rAddr b i)

/-- `C[b][0..n-1]` -/
def State.loadC (s : State) (b : CBuf) (n : Nat) : List Cplx := (List.range n).map (s.cAt b)

/-- `R[b][0..n-1]` -/
def State.loadR (s : State) (b : RBuf) (n : Nat) : List F64 := (List.range n).map (s.rAt b)

/-- The words of complex entries, `re` at the lower offset (20_memory.md R65). -/
def cplxWords : List Cplx → List Word
  | [] => []
  | x :: xs => x.re :: x.im :: cplxWords xs

/-- Write `C[b][0..]`. -/
def State.storeC (s : State) (b : CBuf) (xs : List Cplx) : State := s.storeWords (cAddr b 0) (cplxWords xs)

/-- Write `R[b][0..]`. -/
def State.storeR (s : State) (b : RBuf) (xs : List F64) : State := s.storeWords (rAddr b 0) xs

/-- A peak (10_state.md R41); PAD is storage no command writes. -/
structure Peak where
  bin : Nat
  freq : F64
  mag : F64
  deriving DecidableEq, Repr

/-- Write BIN, FREQ and MAG of `P[j]`, `P[j+1]`, ...; PAD is kept (42_magnitude_peak.md R183). -/
def State.storePeaks : State → Nat → List Peak → State
  | s, _, [] => s
  | s, j, p :: ps => (s.storeWords (pAddr j) [BitVec.ofNat 64 p.bin, p.freq, p.mag]).storePeaks (j + 1) ps

/-- Entry `i` of a list of reals; every index a rule uses is in range. -/
def nth (xs : List F64) (i : Nat) : F64 := xs.getD i plusZero

/-- Entry `i` of a list of complexes. -/
def nthC (xs : List Cplx) (i : Nat) : Cplx := xs.getD i ⟨plusZero, plusZero⟩

/-! ## N and fs (40_command.md R122; 00_scope.md R12) -/

/-- N: LEN as the pending command took it at acceptance.  With none pending, LEN itself, which would be
taken (log entry 11). -/
def State.opLen (s : State) : Nat :=
  match s.pending with
  | some p => p.len.toNat
  | none => s.len.toNat

/-- fs: FS as the pending command took it at acceptance.  With none pending, FS itself
(log entry 11). -/
def State.opFs (s : State) : Nat :=
  match s.pending with
  | some p => p.fs.toNat
  | none => s.fs.toNat

/-! ## Write sets (70_reset_and_hazards.md R292) -/

/-- `WriteSet` of a command with length `n`: runs of words, each an offset and a count. -/
def writeSet (i : Instr) (n : Nat) : List (Nat × Nat) :=
  match i with
  | .nop => []
  | .fft s _ => [(cAddr s 0, 2 * n)]
  | .mag d _ => [(rAddr d 0, n)]
  | .peaks _ m => (List.range m.toNat).map fun j => (pAddr j, 3)
  | .pitchpk _ => []
  | .pitchhps _ _ => [(rAddr .r0 0, n), (rAddr .r1 0, n / 2 + 1)]
  | .pitchac d _ => [(cAddr d 0, 2 * n)]
  | .conf => []
  | .win s _ => [(cAddr s 0, 2 * n)]

end Sys2Proof.Machine
end

