-- ==== Sys2Proof/Machine/Flags.lean ====
section
/-! DEFINITION. The flags: STATUS and CTRL as the host reads them, the lifecycle of a command in them
(40_command.md R120 to R122), and the interrupt output. -/

namespace Sys2Proof.Machine

/-- STATUS.BUSY: a command is pending (10_state.md R42). -/
def State.busy (s : State) : Bool := s.pending.isSome

/-- The code of an error (60_exceptions.md R261). -/
def ErrCode.code : ErrCode → BitVec 8
  | .none => 0
  | .illegalCmd => 1
  | .invalidSize => 2
  | .sizeRange => 3
  | .illegalOperand => 4
  | .badFs => 5

/-- A flag as a number. -/
def flagBit (b : Bool) : Nat := if b then 1 else 0

/-- STATUS: BUSY 0, DONE 1, ERR 2, HAZ 3, ERRCODE 15:8; the rest reads 0 (10_state.md R30). -/
def State.statusWord (s : State) : Word :=
  BitVec.ofNat 64 (flagBit s.busy + 2 * flagBit s.done + 4 * flagBit s.err + 8 * flagBit s.haz
    + 256 * s.errcode.code.toNat)

/-- CTRL: IE in bit 0, SRST reads 0 (10_state.md R29). -/
def State.ctrlWord (s : State) : Word := BitVec.ofNat 64 (flagBit s.ie)

/-- `Accept(w)` (40_command.md R121). -/
def accept (w : CmdWord) (s : State) : State :=
  { s with err := false, errcode := .none, pending := some ⟨w, s.len, s.fs⟩ }

/-- Issue a command word while BUSY = 0 (40_command.md R120). -/
def issue (w : CmdWord) (s : State) : State :=
  let s := { s with cmd := w, done := false }
  match check s.params w s.len s.fs with
  | .error e => raiseError e s
  | .ok _ => accept w s

/-- The end of `Complete()`: BUSY falls, DONE rises (40_command.md R122). -/
def State.complete (s : State) : State := { s with pending := none, done := true }

/-- STATUS.HAZ is set (60_exceptions.md R275). -/
def State.hazard (s : State) : State := { s with haz := true }

/-- The interrupt output (60_exceptions.md R270); its delivery is the platform's (log entry 17). -/
def State.irq (s : State) : Bool := s.ie && (s.done || s.err)

/-- `for each entry e in WriteSet(pending): e <- draw()` (70_reset_and_hazards.md R292). -/
def State.scramble (s : State) : State :=
  match s.pending with
  | none => s
  | some p =>
    match decode p.word with
    | .ok i => (writeSet i p.len.toNat).foldl State.drawWords s
    | .error _ => s

/-- `SoftReset()` (70_reset_and_hazards.md R292): a command in flight is lost with its write set, every
register takes its reset value, the buffers stay. -/
def softReset (s : State) : State :=
  let d := s.scramble
  { State.reset with
    params := s.params, mem := d.mem, epoch := d.epoch, draws := d.draws, turns := d.turns, reply := d.reply }

/-- Power-on reset (70_reset_and_hazards.md R290): the reset state, with buffer contents not seen before;
the parameters stay. -/
def powerOnReset (s : State) : State :=
  { State.reset with params := s.params, epoch := s.epoch + 1, draws := s.draws, turns := s.turns }

end Sys2Proof.Machine
end

