-- ==== Sys2Proof/Machine/Bus.lean ====
section
/-! DEFINITION. The host's side: the address map, register access by access type, the busy rule, and the two
bus transactions (10_state.md R23 to R26; 20_memory.md R60 to R67; 70_reset_and_hazards.md R301). -/

namespace Sys2Proof.Machine

/-- The sixteen registers (10_state.md R23). -/
inductive Reg where
  | id | cfg | ctrl | status | cmd | len | fs | peakThr | pcount | fPeak | fHps | fAc | conf
  | pkBin | hpsBin | acLag
  deriving DecidableEq, Repr

/-- What a mapped offset reaches (20_memory.md R62). -/
inductive Target where
  | reg (r : Reg)
  | buffer (a : Nat)
  deriving DecidableEq, Repr

/-- The register at a register offset (10_state.md R23). -/
def Reg.ofOffset (off : Nat) : Option Reg :=
  match off with
  | 0x00 => some .id
  | 0x08 => some .cfg
  | 0x10 => some .ctrl
  | 0x18 => some .status
  | 0x20 => some .cmd
  | 0x28 => some .len
  | 0x30 => some .fs
  | 0x38 => some .peakThr
  | 0x40 => some .pcount
  | 0x48 => some .fPeak
  | 0x50 => some .fHps
  | 0x58 => some .fAc
  | 0x60 => some .conf
  | 0x68 => some .pkBin
  | 0x70 => some .hpsBin
  | 0x78 => some .acLag
  | _ => none

/-- A buffer offset of valid index (20_memory.md R62): the regions C0, C1, R0, R1 and P up to their last entry;
the rest of each region, and all else, is reserved. -/
def isBufferOffset (p : Params) (a : Nat) : Bool :=
  (Nat.ble (cBase .c0) a && Nat.blt a (cAddr .c0 p.nmax))
    || (Nat.ble (cBase .c1) a && Nat.blt a (cAddr .c1 p.nmax))
    || (Nat.ble (rBase .r0) a && Nat.blt a (rAddr .r0 p.nmax))
    || (Nat.ble (rBase .r1) a && Nat.blt a (rAddr .r1 p.nmax))
    || (Nat.ble pBase a && Nat.blt a (pAddr p.peakCap))

/-- The target of an access; none is a bus error: a misaligned or unmapped offset (20_memory.md R63, R64). -/
def target (p : Params) (off : Offset) : Option Target :=
  let a := off.toNat
  if a % 8 ≠ 0 then none
  else if isBufferOffset p a then some (.buffer a)
  else (Reg.ofOffset a).map .reg

/-- The block offset a host address reaches, for the block at BASE (20_memory.md R61). -/
def offsetOfHostAddress (a : Nat) : Option Offset :=
  if Config.base ≤ a ∧ a < Config.base + 2 ^ 23 then some (BitVec.ofNat 23 (a - Config.base)) else none

/-! ## Registers -/

/-- ID (10_state.md R27). -/
def idWord : Word := 0x0000000146465432

/-- CFG: LOG2_NMAX in 4:0, PEAK_CAP in 15:8 (10_state.md R28). -/
def cfgWord (p : Params) : Word := BitVec.ofNat 64 (p.log2Nmax + 256 * p.peakCap)

/-- The word a host read of a register returns; reserved bits read 0 (10_state.md R24 to R38). -/
def State.readReg (s : State) : Reg → Word
  | .id => idWord
  | .cfg => cfgWord s.params
  | .ctrl => s.ctrlWord
  | .status => s.statusWord
  | .cmd => s.cmd.setWidth 64
  | .len => s.len.setWidth 64
  | .fs => s.fs.setWidth 64
  | .peakThr => s.peakThr
  | .pcount => s.pcount.setWidth 64
  | .fPeak => s.fPeak
  | .fHps => s.fHps
  | .fAc => s.fAc
  | .conf => s.conf
  | .pkBin => s.pkBin.setWidth 64
  | .hpsBin => s.hpsBin.setWidth 64
  | .acLag => s.acLag.setWidth 64

/-- The registers the engine owns while BUSY = 1 (70_reset_and_hazards.md R301). -/
def Reg.busyOwned : Reg → Bool
  | .cmd | .len | .fs | .peakThr | .fPeak | .fHps | .fAc => true
  | .id | .cfg | .ctrl | .status | .pcount | .conf | .pkBin | .hpsBin | .acLag => false

/-- A CTRL write: SRST = 1 resets, whatever IE; else IE is stored (10_state.md R29). -/
def writeCtrl (v : Word) (s : State) : State := if v.getLsbD 1 then softReset s else { s with ie := v.getLsbD 0 }

/-- A host write of a register by its access type (10_state.md R24, R26); narrow registers keep their low bits,
read-only ones ignore it. -/
def State.writeReg (s : State) (r : Reg) (v : Word) : State :=
  match r with
  | .ctrl => writeCtrl v s
  | .status => acknowledge v s
  | .cmd => issue (v.setWidth 32) s
  | .len => { s with len := v.setWidth 32 }
  | .fs => { s with fs := v.setWidth 32 }
  | .peakThr => { s with peakThr := v }
  | .fPeak => { s with fPeak := v }
  | .fHps => { s with fHps := v }
  | .fAc => { s with fAc := v }
  | .id | .cfg | .pcount | .conf | .pkBin | .hpsBin | .acLag => s

/-! ## Transactions -/

/-- The transaction is answered. -/
def State.answer (s : State) (r : Reply) : State := { s with reply := some r }

/-- `MemRead(off, 8)` (20_memory.md R60, R64; 70_reset_and_hazards.md R301): a buffer read while BUSY = 1 sets
HAZ and returns a drawn value. -/
def memRead (off : Offset) (s : State) : State :=
  match target s.params off with
  | none => s.answer (.read 0 .err)
  | some (.reg r) => s.answer (.read (s.readReg r) .ok)
  | some (.buffer a) =>
    if s.busy then { s.hazard with draws := s.draws + 1 }.answer (.read (Config.draw s.draws) .ok)
    else s.answer (.read (s.wordAt a) .ok)

/-- `MemWrite(off, 8, v)` (20_memory.md R60, R64; 70_reset_and_hazards.md R301): a write the busy rule forbids
is ignored and sets HAZ. -/
def memWrite (off : Offset) (v : Word) (s : State) : State :=
  match target s.params off with
  | none => s.answer (.write .err)
  | some (.reg r) =>
    if s.busy && r.busyOwned then s.hazard.answer (.write .ok) else (s.writeReg r v).answer (.write .ok)
  | some (.buffer a) =>
    if s.busy then s.hazard.answer (.write .ok) else (s.storeWords a [v]).answer (.write .ok)

/-- A host transaction, carried out completely (20_memory.md R60, R71). -/
def hostTxn (t : Txn) (s : State) : State :=
  match t with
  | .read off => memRead off s
  | .write off v => memWrite off v s

end Sys2Proof.Machine
end

