-- ==== Sys2Proof/Machine/Trig.lean ====
section
/-! DEFINITION. COS64 and SIN64 (40_command.md R129), a parameter (00_scope.md R7; log entry 2).  In the
reference configuration they are the binary64 value nearest the cosine or sine of the exact value of the argument,
computed in fixed point with `fracBits` fractional bits: reduction by quarter turns, then the power series. -/

namespace Sys2Proof.Machine

/-- Fractional bits of the fixed-point values below. -/
def fracBits : Nat := 1344

/-- pi/2 with `fracBits` fractional bits, rounded down. -/
def halfPi : Nat :=
  0x1921fb54442d18469898cc51701b839a252049c1114cf98e804177d4c76273644a29410f31c6809bbdf2a33679a748636605614dbe4be286e9fc26adadaa3848bc90b6aecc4bcfd8de89885d34c6fdad617feb96de80d6fdbdc70d7f6b5133f4b5d3e4822f8963fcc9250cca3d9c8b67b8400f97142c77e0b31b4906c38aba734d22c7f51fa499ebf06caba47b9475b2c38c5e6ac410aa5773daa520ee12d2cdace186a9c95793009

/-- The alternating series whose term of degree `k` is `t`, each later term
`t * x^2 / ((k+1)(k+2))`; `plus` and `minus` hold the sums of the terms so far by sign. -/
def altSeries (sq : Nat) : (fuel k t plus minus : Nat) → (negative : Bool) → Nat
  | 0, _, _, plus, minus, _ => plus - minus
  | fuel + 1, k, t, plus, minus, negative =>
    if t = 0 then plus - minus
    else
      let t' := t * sq / 2 ^ fracBits / ((k + 1) * (k + 2))
      if negative then altSeries sq fuel (k + 2) t' plus (minus + t) false
      else altSeries sq fuel (k + 2) t' (plus + t) minus true

/-- cos of `r` in the first quarter turn, both in fixed point. -/
def cosQuarter (r : Nat) : Nat := altSeries (r * r / 2 ^ fracBits) 256 0 (2 ^ fracBits) 0 0 false

/-- sin of `r` in the first quarter turn, both in fixed point. -/
def sinQuarter (r : Nat) : Nat := altSeries (r * r / 2 ^ fracBits) 256 1 r 0 0 false

/-- The pattern of a fixed-point magnitude with a sign. -/
def ofFixed (neg : Bool) (m : Nat) : F64 := packBits neg (roundBits m (2 ^ (fracBits - 1074)))

/-- The cosine of the finite magnitude `u * 2^-1074`, by the quarter turn it falls in. -/
def cosUnits (u : Nat) : F64 :=
  let x := u * 2 ^ (fracBits - 1074)
  let q := x / halfPi % 4
  let r := x % halfPi
  if q = 0 then ofFixed false (cosQuarter r)
  else if q = 1 then ofFixed true (sinQuarter r)
  else if q = 2 then ofFixed true (cosQuarter r)
  else ofFixed false (sinQuarter r)

/-- The sine of the finite magnitude `u * 2^-1074`, by the quarter turn it falls in. -/
def sinUnits (u : Nat) : F64 :=
  let x := u * 2 ^ (fracBits - 1074)
  let q := x / halfPi % 4
  let r := x % halfPi
  if q = 0 then ofFixed false (sinQuarter r)
  else if q = 1 then ofFixed false (cosQuarter r)
  else if q = 2 then ofFixed true (sinQuarter r)
  else ofFixed true (cosQuarter r)

/-- `|x|`. -/
def fabs (x : F64) : F64 := packBits false (magBits x)

/-- COS64, a total function; even, because only `|x|` enters (00_scope.md R7). -/
def cos64 (t : Trig) (x : F64) : F64 :=
  match t with
  | .rounded => if isFinite x then cosUnits (unitsOf x) else nanOut .cos (fabs x) (fabs x)
  | .configured => Config.cosOf (fabs x)

/-- SIN64 of `|x|`. -/
def sinMagnitude (t : Trig) (x : F64) : F64 :=
  match t with
  | .rounded => if isFinite x then sinUnits (unitsOf x) else nanOut .sin (fabs x) (fabs x)
  | .configured => Config.sinOf (fabs x)

/-- SIN64, a total function; odd, because the sign of `x` is put on the sine of `|x|` (00_scope.md R7). -/
def sin64 (t : Trig) (x : F64) : F64 := if signOf x then fneg (sinMagnitude t x) else sinMagnitude t x

end Sys2Proof.Machine
end

