-- ==== Sys2Proof/Machine/Fft.lean ====
section
/-! DEFINITION. The FFT engine (41_fft.md): FFT_CORE on the first N entries of a buffer, as a list, and the
FFT command. -/

namespace Sys2Proof.Machine

/-- `bitrev(i, k)` (40_command.md R130). -/
def bitrev : (i k : Nat) → Nat
  | _, 0 => 0
  | i, k + 1 => i % 2 * 2 ^ k + bitrev (i / 2) k

/-- `(B[i], B[j]) <- (B[j], B[i])` (41_fft.md R161). -/
def swapAt (b : List Cplx) (i j : Nat) : List Cplx := (b.set i (nthC b j)).set j (nthC b i)

/-- Step 2 for the indices `i`, `i + 1`, ..., of which `count` are left: each pair is swapped once, when
`i < bitrev(i, k)` (41_fft.md R161, R162). -/
def swapPass (k : Nat) : (count i : Nat) → List Cplx → List Cplx
  | 0, _, b => b
  | count + 1, i, b =>
    swapPass k count (i + 1) (if i < bitrev i k then swapAt b i (bitrev i k) else b)

/-- `TWIDDLE(m, dir)` (41_fft.md R163). -/
def twiddle (t : Trig) (m : Nat) (dir : Dir) : Cplx :=
  let th := fdiv twoPi (i2f m)
  match dir with
  | .forward => ⟨cos64 t (fneg th), sin64 t (fneg th)⟩
  | .inverse => ⟨cos64 t th, sin64 t th⟩

/-- The `j` loop of one block (41_fft.md R161, R164): `tops` and `bots` are the block's halves, old values; the
results are the new halves.  `w` is the running twiddle, multiplied by `wm` after each butterfly. -/
def butterflies (wm : Cplx) : Cplx → List Cplx → List Cplx → List Cplx × List Cplx
  | w, u :: tops, v :: bots =>
    let t := cmul w v
    let rest := butterflies wm (cmul w wm) tops bots
    (cadd u t :: rest.1, csub u t :: rest.2)
  | _, _, _ => ([], [])

/-- One block: `w` starts at ONE (41_fft.md R164). -/
def blockPass (half : Nat) (wm : Cplx) (blk : List Cplx) : List Cplx :=
  let r := butterflies wm .one (blk.take half) (blk.drop half)
  r.1 ++ r.2

/-- One stage: its blocks of `2 * half` entries, of which `count` are left, in order (41_fft.md R161). -/
def stagePass (half : Nat) (wm : Cplx) : (count : Nat) → List Cplx → List Cplx
  | 0, b => b
  | count + 1, b => blockPass half wm (b.take (2 * half)) ++ stagePass half wm count (b.drop (2 * half))

/-- Step 3 for the stages `s`, `s + 1`, ..., of which `count` are left (41_fft.md R161). -/
def stages (t : Trig) (n : Nat) (dir : Dir) : (count s : Nat) → List Cplx → List Cplx
  | 0, _, b => b
  | count + 1, s, b =>
    stages t n dir count (s + 1) (stagePass (2 ^ s / 2) (twiddle t (2 ^ s) dir) (n / 2 ^ s) b)

/-- Step 4 (41_fft.md R165). -/
def scale (n : Nat) (dir : Dir) (b : List Cplx) : List Cplx :=
  match dir with
  | .forward => b
  | .inverse => b.map fun x => cdivn x n

/-- `FFT_CORE(B, N, dir)` (41_fft.md R161) on `B[0..N-1]`. -/
def fftCore (t : Trig) (n : Nat) (dir : Dir) (b : List Cplx) : List Cplx :=
  scale n dir (stages t n dir n.log2 1 (swapPass n.log2 n 0 b))

/-- FFT: `FFT_CORE(C[S], N, dir)` (41_fft.md R160). -/
def execFft (b : CBuf) (dir : Dir) (s : State) : Host.Outcome State Fault Refusal :=
  .next (s.storeC b (fftCore s.params.trig s.opLen dir (s.loadC b s.opLen))).complete

end Sys2Proof.Machine
end

