-- ==== Sys2Proof/Machine/Magnitude.lean ====
section
/-! DEFINITION. Magnitude and peak extraction (42_magnitude_peak.md): MAGF, MAG and PEAKS, with the conversion
from bin to frequency (40_command.md R131). -/

namespace Sys2Proof.Machine

/-- `MAGF(c)` (42_magnitude_peak.md R180). -/
def magf (c : Cplx) : F64 := fsqrt (fadd (fmul c.re c.re) (fmul c.im c.im))

/-- `MAGF(C[b][i])` for `i` in `0..n-1`. -/
def State.magnitudes (s : State) (b : CBuf) (n : Nat) : List F64 := (s.loadC b n).map magf

/-- `bin_to_frequency(b, N, fs)` (40_command.md R131). -/
def binToFrequency (b : F64) (n fs : Nat) : F64 := fdiv (fmul b (i2f fs)) (i2f n)

/-- MAG: `R[D][i] <- MAGF(C[S][i])` for `i` in `0..N-1` (42_magnitude_peak.md R181). -/
def execMag (d : RBuf) (b : CBuf) (s : State) : Host.Outcome State Fault Refusal :=
  .next (s.storeR d (s.magnitudes b s.opLen)).complete

/-- `IsPeak(M, i, thr)` (42_magnitude_peak.md R182). -/
def isPeak (m : Nat → F64) (i : Nat) (thr : F64) : Bool :=
  fgt (m i) (m (i - 1)) && fgt (m i) (m (i + 1)) && fgt (m i) thr

/-- The scan of PEAKS from bin `i` on, of which `count` bins are left, with the peaks found so far: it ends
once MAXP are held (42_magnitude_peak.md R183). -/
def scanPeaks (m : Nat → F64) (thr : F64) (maxp n fs : Nat) : (count i : Nat) → List Peak → List Peak
  | 0, _, found => found
  | count + 1, i, found =>
    if maxp ≤ found.length then found
    else
      scanPeaks m thr maxp n fs count (i + 1)
        (if isPeak m i thr then found ++ [⟨i, binToFrequency (i2f i) n fs, m i⟩] else found)

/-- Put a peak after every one that is not smaller. -/
def insertPeak (p : Peak) : List Peak → List Peak
  | [] => [p]
  | q :: qs => if fgt p.mag q.mag then p :: q :: qs else q :: insertPeak p qs

/-- `StableSortDescending(L)` (42_magnitude_peak.md R184): insertion in list order. -/
def sortPeaks (ps : List Peak) : List Peak := ps.foldl (fun sorted p => insertPeak p sorted) []

/-- The sorted peak list of PEAKS (42_magnitude_peak.md R183): bins `1..N/2-2`, none for `N <= 4` (R182). -/
def peakList (m : Nat → F64) (thr : F64) (maxp n fs : Nat) : List Peak :=
  sortPeaks (scanPeaks m thr maxp n fs (n / 2 - 2) 1 [])

/-- The list PEAKS finds in R[b] (42_magnitude_peak.md R183); the scan reads `R[b][0..N/2-1]`. -/
def State.foundPeaks (s : State) (b : RBuf) (maxp : Nat) : List Peak :=
  peakList (nth (s.loadR b (s.opLen / 2))) s.peakThr maxp s.opLen s.opFs

/-- PEAKS: P and PCOUNT (42_magnitude_peak.md R183). -/
def execPeaks (b : RBuf) (maxp : BitVec 8) (s : State) : Host.Outcome State Fault Refusal :=
  let ps := s.foundPeaks b maxp.toNat
  .next ((s.storePeaks 0 ps).setPcount ps.length).complete

end Sys2Proof.Machine
end

