-- ==== Sys2Proof/Machine/Pitch.lean ====
section
/-! DEFINITION. The pitch detectors and the confidence combiner (43_pitch.md): PITCHPK, PITCHHPS, PITCHAC and
CONF, with the maximum search they share (40_command.md R132). -/

namespace Sys2Proof.Machine

/-- The loop of ARGMAX from index `i` on, `count` indices left (40_command.md R132). -/
def argmaxLoop (v : Nat → F64) : (count i : Nat) → (best : F64) → (bi : Nat) → Nat
  | 0, _, _, bi => bi
  | count + 1, i, best, bi =>
    if fgt (v i) best then argmaxLoop v count (i + 1) (v i) i else argmaxLoop v count (i + 1) best bi

/-- `ARGMAX(v, lo, hi)`: 0 when nothing in the range exceeds +0.0 (40_command.md R132). -/
def argmax (v : Nat → F64) (lo hi : Nat) : Nat := argmaxLoop v (hi + 1 - lo) lo plusZero 0

/-! ## Peak method -/

/-- `PK_RANGE(N, fs)` (43_pitch.md R201). -/
def pkRange (p : Params) (n fs : Nat) : Nat × Nat := (p.pkFmin * n / fs, min (p.pkFmax * n / fs) (n / 2))

/-- `PARABOLIC(a, y0, c)` (43_pitch.md R202). -/
def parabolic (a y0 c : F64) : F64 :=
  let den := fadd (fsub a (fmul two y0)) c
  if feq den plusZero then plusZero else fdiv (fmul half (fsub a c)) den

/-- The winning bin of the peak method (43_pitch.md R200). -/
def peakBin (p : Params) (m : Nat → F64) (n fs : Nat) : Nat := argmax m (pkRange p n fs).1 (pkRange p n fs).2

/-- The estimate from winning bin `b` (43_pitch.md R200): refined when both neighbours lie in the
half-spectrum. -/
def peakEstimate (m : Nat → F64) (b n fs : Nat) : F64 :=
  if b = 0 then plusZero
  else
    let delta := if b + 1 ≤ n / 2 then parabolic (m (b - 1)) (m b) (m (b + 1)) else plusZero
    binToFrequency (fadd (i2f b) delta) n fs

/-- PITCHPK: F_PEAK and PK_BIN (43_pitch.md R200). -/
def execPitchpk (b : CBuf) (s : State) : Host.Outcome State Fault Refusal :=
  let m := nth (s.magnitudes b s.opLen)
  let bin := peakBin s.params m s.opLen s.opFs
  .next (s.setPeak (peakEstimate m bin s.opLen s.opFs) bin).complete

/-! ## Harmonic product spectrum -/

/-- One round of HPS_BUILD: `R1[i] <- fmul(R1[i], R0[i*h])` for `i` in `0..N div (2*h)` (43_pitch.md R206). -/
def hpsRound (n h : Nat) (r0 r1 : List F64) : List F64 :=
  (List.range r1.length).map fun i => if i ≤ n / (2 * h) then fmul (nth r1 i) (nth r0 (i * h)) else nth r1 i

/-- The rounds `h`, `h + 1`, ..., of which `count` are left (43_pitch.md R206). -/
def hpsRounds (n : Nat) (r0 : List F64) : (count h : Nat) → List F64 → List F64
  | 0, _, r1 => r1
  | count + 1, h, r1 => hpsRounds n r0 count (h + 1) (hpsRound n h r0 r1)

/-- `HPS_BUILD(H, N)`: `R1[0..N/2]` from R0 (43_pitch.md R206). -/
def hpsBuild (h n : Nat) (r0 : List F64) : List F64 :=
  hpsRounds n r0 (h - 1) 2 ((List.range (n / 2 + 1)).map (nth r0))

/-- `HPS_RANGE(H, N, fs)` (43_pitch.md R207). -/
def hpsRange (p : Params) (h n fs : Nat) : Nat × Nat :=
  (p.hpsFmin * n / fs, min (p.hpsFmax * n / fs) (n / (2 * h)))

/-- The winning bin of the HPS array (43_pitch.md R205). -/
def hpsBin (p : Params) (r1 : List F64) (h n fs : Nat) : Nat :=
  argmax (nth r1) (hpsRange p h n fs).1 (hpsRange p h n fs).2

/-- The estimate from winning bin `b`; no interpolation (43_pitch.md R205). -/
def hpsEstimate (b n fs : Nat) : F64 := if b = 0 then plusZero else binToFrequency (i2f b) n fs

/-- PITCHHPS: R0, R1, F_HPS and HPS_BIN (43_pitch.md R205). -/
def execPitchhps (b : CBuf) (h : BitVec 4) (s : State) : Host.Outcome State Fault Refusal :=
  let r0 := s.magnitudes b s.opLen
  let r1 := hpsBuild h.toNat s.opLen r0
  let bin := hpsBin s.params r1 h.toNat s.opLen s.opFs
  .next (((s.storeR .r0 r0).storeR .r1 r1).setHps (hpsEstimate bin s.opLen s.opFs) bin).complete

/-! ## Autocorrelation -/

/-- The power spectrum (43_pitch.md R211). -/
def powerSpectrum (b : List Cplx) : List Cplx := b.map fun x => cmul x (conj x)

/-- What PITCHAC leaves in `C[D][0..N-1]` (43_pitch.md R210). -/
def autocorrelation (t : Trig) (n : Nat) (b : List Cplx) : List Cplx :=
  fftCore t n .inverse (powerSpectrum (fftCore t n .forward b))

/-- `AC_RANGE(N, fs)` (43_pitch.md R212). -/
def acRange (p : Params) (n fs : Nat) : Nat × Nat := (max 1 (fs / p.acFmax), min (fs / p.acFmin) (n / 2))

/-- The winning lag: the largest real part in range (43_pitch.md R210). -/
def acLag (p : Params) (ac : List Cplx) (n fs : Nat) : Nat :=
  argmax (fun i => (nthC ac i).re) (acRange p n fs).1 (acRange p n fs).2

/-- The estimate from winning lag `lag` (43_pitch.md R210). -/
def acEstimate (lag fs : Nat) : F64 := if lag = 0 then plusZero else fdiv (i2f fs) (i2f lag)

/-- PITCHAC: `C[D]`, F_AC and AC_LAG (43_pitch.md R210); with S = D the copy changes nothing and the input is
overwritten. -/
def execPitchac (d b : CBuf) (s : State) : Host.Outcome State Fault Refusal :=
  let ac := autocorrelation s.params.trig s.opLen (s.loadC b s.opLen)
  let lag := acLag s.params ac s.opLen s.opFs
  .next ((s.storeC d ac).setAc (acEstimate lag s.opFs) lag).complete

/-! ## Confidence -/

/-- The score of three estimates (43_pitch.md R215). -/
def confidence (f1 f2 f3 : F64) : F64 :=
  let mean := fdiv (fadd (fadd f1 f2) f3) three
  if feq mean plusZero then plusZero
  else
    let d1 := fsub f1 mean
    let d2 := fsub f2 mean
    let d3 := fsub f3 mean
    let var := fdiv (fadd (fadd (fmul d1 d1) (fmul d2 d2)) (fmul d3 d3)) three
    fdiv one (fadd one (fdiv (fsqrt var) mean))

/-- CONF: the score of F_PEAK, F_HPS and F_AC (43_pitch.md R215, R216). -/
def execConf (s : State) : Host.Outcome State Fault Refusal :=
  .next (s.setConf (confidence s.fPeak s.fHps s.fAc)).complete

end Sys2Proof.Machine
end

