-- ==== Sys2Proof/Machine/Window.lean ====
section
/-! DEFINITION. The window envelope (44_window.md): the default coefficients and the WIN command. -/

namespace Sys2Proof.Machine

/-- `WIN_DENOM(N)` (00_scope.md R7, 44_window.md R244). -/
def winDenom : WinDenom → Nat → Nat
  | .nMinusOne, n => n - 1
  | .n, n => n

/-- The default `WINCOEF(kind, n, N)` (44_window.md R244; log entry 12); 0.54, 0.46, 0.42 and 0.08 are the
patterns R244 gives. -/
def defaultWinCoef (t : Trig) (d : WinDenom) (kind : WindowKind) (i n : Nat) : F64 :=
  let dn := winDenom d n
  if dn = 0 then one
  else
    let th1 := fdiv (fmul twoPi (i2f i)) (i2f dn)
    match kind with
    | .hann => fmul half (fsub one (cos64 t th1))
    | .hamming => fsub 0x3FE147AE147AE148 (fmul 0x3FDD70A3D70A3D71 (cos64 t th1))
    | .blackman =>
      let th2 := fdiv (fmul fourPi (i2f i)) (i2f dn)
      fadd (fsub 0x3FDAE147AE147AE1 (fmul half (cos64 t th1))) (fmul 0x3FB47AE147AE147B (cos64 t th2))

/-- `WINCOEF(kind, n, N)` (00_scope.md R7; log entry 1). -/
def winCoef (p : Params) (kind : WindowKind) (i n : Nat) : F64 :=
  match p.winCoef with
  | .default => defaultWinCoef p.trig p.winDenom kind i n
  | .configured => Config.windowCoef kind i n

/-- The envelope multiply of one entry, component by component (44_window.md R242). -/
def windowed (w : F64) (x : Cplx) : Cplx := ⟨fmul x.re w, fmul x.im w⟩

/-- The envelope over entries `i`, `i + 1`, ... (44_window.md R240). -/
def windowFrom (p : Params) (kind : WindowKind) (n : Nat) : (i : Nat) → List Cplx → List Cplx
  | _, [] => []
  | i, x :: xs => windowed (winCoef p kind i n) x :: windowFrom p kind n (i + 1) xs

/-- WIN: `C[S][0..N-1]` in place (44_window.md R240). -/
def execWin (b : CBuf) (kind : WindowKind) (s : State) : Host.Outcome State Fault Refusal :=
  .next (s.storeC b (windowFrom s.params kind s.opLen 0 (s.loadC b s.opLen))).complete

end Sys2Proof.Machine
end

