-- ==== Sys2Proof/Machine/Dispatch.lean ====
section
/-! DEFINITION. `Exec` of 40_command.md R123: one arm for each command. -/

namespace Sys2Proof.Machine

def exec (i : Instr) (s : State) : Host.Outcome State Fault Refusal :=
  match i with
  | .nop => Sys2Proof.Machine.execNop s
  | .fft b dir => Sys2Proof.Machine.execFft b dir s
  | .mag d b => Sys2Proof.Machine.execMag d b s
  | .peaks b maxp => Sys2Proof.Machine.execPeaks b maxp s
  | .pitchpk b => Sys2Proof.Machine.execPitchpk b s
  | .pitchhps b h => Sys2Proof.Machine.execPitchhps b h s
  | .pitchac d b => Sys2Proof.Machine.execPitchac d b s
  | .conf => Sys2Proof.Machine.execConf s
  | .win b kind => Sys2Proof.Machine.execWin b kind s

end Sys2Proof.Machine
end

