-- ==== Sys2Proof/Machine/Step.lean ====
section
/-! DEFINITION. One step: the next move of the interleaving (20_memory.md R71), a host transaction, the
engine's step or a power-on reset. -/

namespace Sys2Proof.Machine

/-- The engine's step, *complete* (40_command.md R122), enabled iff BUSY = 1; idle otherwise, when nothing
changes (60_exceptions.md R282). -/
def engineStep (s : State) : Host.Outcome State Fault Refusal :=
  match s.pending with
  | none => .next s
  | some p =>
    match check s.params p.word p.len p.fs with
    | .ok i => exec i s
    | .error _ => .fault .pendingNotAcceptable

/-- The next move.  With none scheduled the engine moves, so a pending command completes
(70_reset_and_hazards.md R307). -/
def step (s : State) : Host.Outcome State Fault Refusal :=
  match s.turns with
  | [] => engineStep s
  | .engine :: rest => engineStep { s with turns := rest }
  | .host t :: rest => .next (hostTxn t { s with turns := rest })
  | .powerOn :: rest => .next (powerOnReset { s with turns := rest })

/-- The LEN under which word `w` is accepted: the one held, or 1 where that length is rejected. -/
def fetchLen (w : CmdWord) (s : State) : BitVec 32 :=
  match check s.params w s.len s.fs with
  | .error .invalidSize => 1
  | .error .sizeRange => 1
  | _ => s.len

/-- The FS under which word `w` is accepted: the one held, or 44100 where FS = 0 is rejected. -/
def fetchFs (w : CmdWord) (s : State) : BitVec 32 :=
  match check s.params w (fetchLen w s) s.fs with
  | .error .badFs => 44100
  | _ => s.fs

/-- `s` with the word where the next step takes its command.  An acceptable word is the pending command, as
after its acceptance (40_command.md R121), with a LEN and FS that let it be accepted, and the engine moves
next.  A word every LEN and FS reject is the next host write to CMD, which the next step runs by rejecting it
(log entry 8). -/
def State.withFetchWord (s : State) (nbits w : Nat) : State :=
  let word : CmdWord := BitVec.ofNat 32 (w % 2 ^ nbits)
  match check s.params word (fetchLen word s) (fetchFs word s) with
  | .ok _ =>
    { s with
      cmd := word, done := false, err := false, errcode := .none
      len := fetchLen word s, fs := fetchFs word s
      pending := some ⟨word, fetchLen word s, fetchFs word s⟩
      turns := .engine :: s.turns }
  | .error _ =>
    { s with pending := none, turns := .host (.write 0x20 (word.setWidth 64)) :: s.turns }

end Sys2Proof.Machine
end

