-- ==== Sys2Proof/Machine/Assembler.lean ====
section
/-! DEFINITION. How commands and host programs are written down: the assembler lines of 30_encoding.md R100, the
other names of R101, and the host program lines of R102 as moves. -/

namespace Sys2Proof.Machine

/-- An operand of an assembler line: `c0`/`c1`, `r0`/`r1`, `#n`, or a word such as `fwd` (30_encoding.md R100). -/
inductive AsmOperand where
  | cbuf (b : CBuf)
  | rbuf (b : RBuf)
  | number (n : Nat)
  | word (w : String)
  deriving DecidableEq, Repr

/-- `fwd`, `inv` (30_encoding.md R100). -/
def dirOfWord (w : String) : Option Dir :=
  if w = "fwd" then some .forward else if w = "inv" then some .inverse else none

/-- `FORWARD`, `INVERSE`, the words of the name `transform` (30_encoding.md R101). -/
def dirOfLongWord (w : String) : Option Dir :=
  if w = "FORWARD" then some .forward else if w = "INVERSE" then some .inverse else none

/-- `hann`, `hamming`, `blackman` (30_encoding.md R100). -/
def windowOfWord (w : String) : Option WindowKind :=
  if w = "hann" then some .hann
  else if w = "hamming" then some .hamming
  else if w = "blackman" then some .blackman
  else none

/-- A `#n` that fits MAXP. -/
def maxpOf (n : Nat) : Option (BitVec 8) := if n < 256 then some (BitVec.ofNat 8 n) else none

/-- A `#n` that fits H. -/
def harmonicsOf (n : Nat) : Option (BitVec 4) := if n < 16 then some (BitVec.ofNat 4 n) else none

/-- The command a mnemonic and its operands name, destination first (30_encoding.md R100). -/
def assembleCore (name : String) (ops : List AsmOperand) : Option Instr :=
  match ops with
  | [] => if name = "NOP" then some .nop else if name = "CONF" then some .conf else none
  | [.cbuf s] => if name = "PITCHPK" then some (.pitchpk s) else none
  | [.cbuf s, .word w] =>
    if name = "FFT" then (dirOfWord w).map (.fft s)
    else if name = "WIN" then (windowOfWord w).map (.win s)
    else none
  | [.rbuf d, .cbuf s] => if name = "MAG" then some (.mag d s) else none
  | [.rbuf s, .number n] => if name = "PEAKS" then (maxpOf n).map (.peaks s) else none
  | [.cbuf s, .number n] => if name = "PITCHHPS" then (harmonicsOf n).map (.pitchhps s) else none
  | [.cbuf d, .cbuf s] => if name = "PITCHAC" then some (.pitchac d s) else none
  | _ => none

/-- The expansion of the other names (30_encoding.md R101); any other line stands as it is. -/
def expandName (name : String) (ops : List AsmOperand) : String × List AsmOperand :=
  if name = "FFTF" then ("FFT", ops ++ [.word "fwd"])
  else if name = "IFFT" then ("FFT", ops ++ [.word "inv"])
  else if name = "HANN" then ("WIN", ops ++ [.word "hann"])
  else if name = "HAMMING" then ("WIN", ops ++ [.word "hamming"])
  else if name = "BLACKMAN" then ("WIN", ops ++ [.word "blackman"])
  else if name = "transform" then
    match ops with
    | [.cbuf s, .word w] =>
      match dirOfLongWord w with
      | some .forward => ("FFT", [.cbuf s, .word "fwd"])
      | some .inverse => ("FFT", [.cbuf s, .word "inv"])
      | none => (name, ops)
    | _ => (name, ops)
  else if name = "magnitude_spectrum" then ("MAG", ops)
  else if name = "find_peaks" then ("PEAKS", ops)
  else if name = "detect_pitch_peak" then ("PITCHPK", ops)
  else if name = "detect_pitch_hps" then ("PITCHHPS", ops)
  else if name = "detect_pitch_autocorr" then ("PITCHAC", ops)
  else (name, ops)

/-- The command an assembler line names (30_encoding.md R100, R101). -/
def assemble (name : String) (ops : List AsmOperand) : Option Instr :=
  assembleCore (expandName name ops).1 (expandName name ops).2

/-- The words `fwd` and `inv`. -/
def dirWord : Dir → String
  | .forward => "fwd"
  | .inverse => "inv"

/-- The words of the window kinds. -/
def windowWord : WindowKind → String
  | .hann => "hann"
  | .hamming => "hamming"
  | .blackman => "blackman"

/-- The assembler line of a command (30_encoding.md R100). -/
def asmLine : Instr → String × List AsmOperand
  | .nop => ("NOP", [])
  | .fft s dir => ("FFT", [.cbuf s, .word (dirWord dir)])
  | .mag d s => ("MAG", [.rbuf d, .cbuf s])
  | .peaks s m => ("PEAKS", [.rbuf s, .number m.toNat])
  | .pitchpk s => ("PITCHPK", [.cbuf s])
  | .pitchhps s h => ("PITCHHPS", [.cbuf s, .number h.toNat])
  | .pitchac d s => ("PITCHAC", [.cbuf d, .cbuf s])
  | .conf => ("CONF", [])
  | .win s k => ("WIN", [.cbuf s, .word (windowWord k)])

/-! ## Host programs (30_encoding.md R102) -/

/-- A line of a host program. -/
inductive HostLine where
  | write (off : Offset) (v : Word)
  | read (off : Offset)
  | issue (i : Instr)
  /-- STATUS is read until BUSY reads 0; `polls` of the reads come before the engine's step -/
  | wait (polls : Nat)
  | store (b : CBuf) (i : Nat) (x : Cplx)
  deriving DecidableEq, Repr

/-- The moves of a line, with the engine's step of a `wait` among its reads. -/
def HostLine.turns : HostLine → List Turn
  | .write off v => [.host (.write off v)]
  | .read off => [.host (.read off)]
  | .issue i => [.host (.write 0x20 ((encode i).setWidth 64))]
  | .wait polls => List.replicate polls (.host (.read 0x18)) ++ [.engine, .host (.read 0x18)]
  | .store b i x =>
    [.host (.write (BitVec.ofNat 23 (cAddr b i)) x.re), .host (.write (BitVec.ofNat 23 (cAddr b i + 8)) x.im)]

/-- The moves of a program, line by line. -/
def programTurns (p : List HostLine) : List Turn := p.flatMap HostLine.turns

end Sys2Proof.Machine
end

