-- ==== Sys2Proof/Safety.lean ====
section
/-! DEFINITION. What claims are stated in terms of: a command in flight, the invariant of the state, and a run
that never stops. -/

namespace Sys2Proof.Machine

/-- The engine holds the accepted command `i`: it is pending and passes the checks of its acceptance
(10_state.md R42, 60_exceptions.md R267). -/
def State.holds (s : State) (i : Instr) : Prop :=
  ∃ p, s.pending = some p ∧ check s.params p.word p.len p.fs = .ok i

/-- The invariant. -/
structure Inv (s : State) : Prop where
  /-- memory is in canonical form -/
  memWf : Memory.wf s.mem
  /-- only bytes of valid buffer entries are stored (20_memory.md R62, R68) -/
  memMapped : ∀ c ∈ s.mem, isBufferOffset s.params c.1 = true
  /-- the pending command is the word in CMD with LEN and FS as they stand, and was accepted
  (10_state.md R42, 40_command.md R137) -/
  pendingAccepted : ∀ p, s.pending = some p →
    p.word = s.cmd ∧ p.len = s.len ∧ p.fs = s.fs ∧ ∃ i, check s.params p.word p.len p.fs = .ok i
  /-- while BUSY, DONE and ERR are 0 and ERRCODE is NONE (40_command.md R120, R121) -/
  busyFlags : s.busy = true → s.done = false ∧ s.err = false ∧ s.errcode = .none
  /-- DONE excludes ERR and an error code (10_state.md R30, 60_exceptions.md R272) -/
  doneFlags : s.done = true → s.err = false ∧ s.errcode = .none
  /-- ERR comes with its cause (60_exceptions.md R272) -/
  errFlags : s.err = true → s.errcode ≠ .none
  /-- PCOUNT is at most PEAK_CAP (42_magnitude_peak.md R183) -/
  pcountBound : s.pcount.toNat ≤ s.params.peakCap

/-- Every run from `s`, of any length, goes on. -/
def NeverStops (s : State) : Prop := ∀ k, ∃ t, core.run k s = .next t

end Sys2Proof.Machine
end

