-- ==== Sys2Proof/Certificates/Slice0/Obligations.lean ====
section
/-! DEFINITION. The statements for the provers, and the terms they are stated in (`Sys2Proof.Spec`), written from
the rules and not from the meanings. -/

namespace Sys2Proof.Spec

open Sys2Proof.Machine

/-! ## Encoding and checks -/

/-- The rows of 30_encoding.md R93: opcode, match, mask. -/
def rows : List (Nat × CmdWord × CmdWord) :=
  [(0, 0x00000000, 0xFFFFFFFF), (1, 0x00000001, 0xFFFFFFAF), (2, 0x00000002, 0xFFFFFFCF),
    (3, 0x00000003, 0xFF00FFEF), (4, 0x00000004, 0xFFFFFFEF), (5, 0x00000005, 0xFFFF0FEF),
    (6, 0x00000006, 0xFFFFFFCF), (7, 0x00000007, 0xFFFFFFFF), (8, 0x00000008, 0xFFFFFCEF)]

/-- The opcode of a command (30_encoding.md R92). -/
def opcode : Instr → Nat
  | .nop => 0
  | .fft _ _ => 1
  | .mag _ _ => 2
  | .peaks _ _ => 3
  | .pitchpk _ => 4
  | .pitchhps _ _ => 5
  | .pitchac _ _ => 6
  | .conf => 7
  | .win _ _ => 8

/-- `w` is the command with opcode `op` (30_encoding.md R93). -/
def IsCommand (w : CmdWord) (op : Nat) : Prop :=
  ∃ row ∈ rows, row.1 = op ∧ w &&& row.2.2 = row.2.1 ∧ (op = 8 → w.extractLsb' 8 2 ≠ 3)

/-- The bits an opcode uses: OP and the fields of its row (30_encoding.md R91, R93). -/
def usedBits (op : Nat) : CmdWord :=
  match op with
  | 1 => 0x0000005F
  | 2 => 0x0000003F
  | 3 => 0x00FF001F
  | 4 => 0x0000001F
  | 5 => 0x0000F01F
  | 6 => 0x0000003F
  | 8 => 0x0000031F
  | _ => 0x0000000F

/-- `Check(w, len, fs)` on the raw word, as 60_exceptions.md R267 writes it; `legal` is `Legal(w)`. -/
def checkCode (p : Params) (legal : Bool) (w : CmdWord) (len fs : BitVec 32) : Nat :=
  let op := (w.extractLsb' 0 4).toNat
  let n := len.toNat
  if !legal then 1
  else if op ∈ [1, 2, 3, 4, 5, 6, 8] ∧ isPow2 n = false then 2
  else if op ∈ [1, 2, 3, 4, 5, 6, 8] ∧ n > p.nmax then 3
  else if op = 5 ∧ w.extractLsb' 12 4 = 0 then 4
  else if op = 3 ∧ (w.extractLsb' 16 8).toNat > p.peakCap then 4
  else if op ∈ [3, 4, 5, 6] ∧ fs = 0 then 5
  else 0

/-- The code of the outcome of a check: 0 when the command is accepted (60_exceptions.md R261). -/
def outcomeCode : Except ErrCode Instr → Nat
  | .ok _ => 0
  | .error e => e.code.toNat

/-! ## Arithmetic -/

/-- The real number a finite pattern denotes (00_scope.md R9). -/
noncomputable def real (x : F64) : ℝ := ((toRat x : ℚ) : ℝ)

/-- `r` is the exact value `x` rounded once to nearest, ties to even; past the midpoint above the largest finite
value, the infinity of the sign of `x` (40_command.md R125). -/
def RoundsTo (x : ℝ) (r : F64) : Prop :=
  if |x| < (2 ^ 54 - 1) * 2 ^ 970 then
    isFinite r = true
      ∧ (∀ y, isFinite y = true → |real r - x| ≤ |real y - x|)
      ∧ (∀ y, isFinite y = true → real y ≠ real r → |real r - x| = |real y - x| → r.toNat % 2 = 0)
  else r = packBits (decide (signOf r)) infBits ∧ (signOf r = true ↔ x < 0)

/-- +infinity -/
def plusInf : F64 := 0x7FF0000000000000

/-- Flip of bit 63. -/
def negated (x : F64) : F64 := x ^^^ 0x8000000000000000

/-! ## Searches and lists -/

/-- `b` is what the maximum search of 40_command.md R132 returns for `v` over `lo..hi`: nothing exceeds +0.0 and
`b` is 0, or `b` is the lowest index of the largest value, which exceeds +0.0. -/
def Wins (v : Nat → F64) (lo hi b : Nat) : Prop :=
  (b = 0 ∧ ∀ i, lo ≤ i → i ≤ hi → fgt (v i) plusZero = false)
    ∨ (lo ≤ b ∧ b ≤ hi ∧ fgt (v b) plusZero = true
        ∧ (∀ i, lo ≤ i → i ≤ hi → fgt (v i) (v b) = false)
        ∧ (∀ i, lo ≤ i → i < b → feq (v i) (v b) = false))

/-- MAGF (42_magnitude_peak.md R180). -/
def magnitude (c : Cplx) : F64 := fsqrt (fadd (fmul c.re c.re) (fmul c.im c.im))

/-- The peaks PEAKS collects, in scan order: the first `maxp` of the bins `1..N/2-2` that are strict local maxima
above the threshold (42_magnitude_peak.md R182, R183). -/
def firstPeaks (m : Nat → F64) (thr : F64) (maxp n fs : Nat) : List Peak :=
  (((List.range' 1 (n / 2 - 2)).filter fun i =>
      fgt (m i) (m (i - 1)) && fgt (m i) (m (i + 1)) && fgt (m i) thr).take maxp).map fun i =>
    ⟨i, fdiv (fmul (i2f i) (i2f fs)) (i2f n), m i⟩

/-- `ps` is `StableSortDescending(l)` (42_magnitude_peak.md R184), for `l` in ascending bin order. -/
def StableSorted (l ps : List Peak) : Prop :=
  ps.Perm l ∧ ps.Pairwise fun p q => fgt p.mag q.mag = true ∨ (feq p.mag q.mag = true ∧ p.bin < q.bin)

/-- `M[i]·M[2i]·...·M[h_i·i]`, rounded after each product in ascending order; harmonic `h` enters iff
`i ≤ N div (2h)` (43_pitch.md R206). -/
def harmonicProduct (h n : Nat) (m : Nat → F64) (i : Nat) : F64 :=
  (List.range' 2 (h - 1)).foldl (fun acc k => if i ≤ n / (2 * k) then fmul acc (m (i * k)) else acc) (m i)

/-! ## Complex primitives and twiddles, spelled out (40_command.md R128, R129; 41_fft.md R163) -/

/-- `cadd`. -/
def cplxAdd (a b : Cplx) : Cplx := ⟨fadd a.re b.re, fadd a.im b.im⟩

/-- `csub`. -/
def cplxSub (a b : Cplx) : Cplx := ⟨fsub a.re b.re, fsub a.im b.im⟩

/-- `cmul`. -/
def cplxMul (a b : Cplx) : Cplx :=
  ⟨fsub (fmul a.re b.re) (fmul a.im b.im), fadd (fmul a.re b.im) (fmul a.im b.re)⟩

/-- `conj`. -/
def cplxConj (a : Cplx) : Cplx := ⟨a.re, negated a.im⟩

/-- `TWIDDLE(m, dir)`: the angle is `TWO_PI / m`, negated for FORWARD. -/
def principal (trig : Trig) (m : Nat) (dir : Dir) : Cplx :=
  let angle := fdiv 0x401921FB54442D18 (i2f m)
  let th := if dir = .forward then negated angle else angle
  ⟨cos64 trig th, sin64 trig th⟩

/-! ## FFT_CORE as in-place loops over a buffer (41_fft.md R161) -/

/-- `B[i] <- x` -/
def setAt (b : Nat → Cplx) (i : Nat) (x : Cplx) : Nat → Cplx := fun j => if j = i then x else b j

/-- Step 2. -/
def inPlaceSwaps (k n : Nat) (b : Nat → Cplx) : Nat → Cplx :=
  (List.range n).foldl
    (fun b i =>
      let j := bitrev i k
      if i < j then setAt (setAt b i (b j)) j (b i) else b) b

/-- One block of step 3, from `blk` on: the buffer and `w` after each `j`. -/
def inPlaceBlock (half : Nat) (wm : Cplx) (b : Nat → Cplx) (blk : Nat) : Nat → Cplx :=
  ((List.range half).foldl
    (fun (bw : (Nat → Cplx) × Cplx) j =>
      let top := blk + j
      let bot := top + half
      let t := cplxMul bw.2 (bw.1 bot)
      let u := bw.1 top
      (setAt (setAt bw.1 top (cplxAdd u t)) bot (cplxSub u t), cplxMul bw.2 wm))
    (b, ⟨0x3FF0000000000000, 0⟩)).1

/-- Stage `s` of step 3. -/
def inPlaceStage (trig : Trig) (n : Nat) (dir : Dir) (b : Nat → Cplx) (s : Nat) : Nat → Cplx :=
  (List.range (n / 2 ^ s)).foldl
    (fun b q => inPlaceBlock (2 ^ s / 2) (principal trig (2 ^ s) dir) b (q * 2 ^ s)) b

/-- FFT_CORE on the entries below `n`. -/
def inPlaceFft (trig : Trig) (n : Nat) (dir : Dir) (b : Nat → Cplx) : Nat → Cplx :=
  let out := (List.range' 1 n.log2).foldl (inPlaceStage trig n dir) (inPlaceSwaps n.log2 n b)
  match dir with
  | .forward => out
  | .inverse => fun i => ⟨fdiv (out i).re (i2f n), fdiv (out i).im (i2f n)⟩

/-! ## What commands read and write (40_command.md R124) -/

/-- Offset `a` lies in the first `n` entries of a complex buffer. -/
def InC (b : CBuf) (n a : Nat) : Prop := cAddr b 0 ≤ a ∧ a < cAddr b n

/-- Offset `a` lies in the first `n` entries of a real buffer. -/
def InR (b : RBuf) (n a : Nat) : Prop := rAddr b 0 ≤ a ∧ a < rAddr b n

/-- Offset `a` lies in BIN, FREQ or MAG of one of the first `n` peaks. -/
def InP (n a : Nat) : Prop := ∃ j < n, pAddr j ≤ a ∧ a < pAddr j + 24

/-- The buffer bytes a command with length `n` reads. -/
def ReadsByte (i : Instr) (n a : Nat) : Prop :=
  match i with
  | .nop | .conf => False
  | .fft b _ | .mag _ b | .pitchpk b | .pitchhps b _ | .pitchac _ b | .win b _ => InC b n a
  | .peaks b _ => InR b (n / 2) a

/-- The buffer bytes a command with length `n` writes, `count` being the peaks PEAKS found. -/
def WritesByte (i : Instr) (n count a : Nat) : Prop :=
  match i with
  | .nop | .conf | .pitchpk _ => False
  | .fft b _ | .win b _ => InC b n a
  | .mag d _ => InR d n a
  | .peaks _ _ => InP count a
  | .pitchhps _ _ => InR .r0 n a ∨ InR .r1 (n / 2 + 1) a
  | .pitchac d _ => InC d n a

/-- The buffer bytes a soft reset loses with a pending command (70_reset_and_hazards.md R292): as
`WritesByte`, with all of `P[0..MAXP-1]`. -/
def LosesByte (i : Instr) (n a : Nat) : Prop :=
  match i with
  | .peaks _ m => InP m.toNat a
  | i => WritesByte i n 0 a

/-! ## The address map (20_memory.md R62) -/

/-- `off` is a register offset, or a buffer word of valid index. -/
def Mapped (p : Params) (off : Nat) : Prop :=
  off ≤ 0x78
    ∨ (0x100000 ≤ off ∧ off ≤ 0x1FFFFF ∧ (off - 0x100000) / 16 < p.nmax)
    ∨ (0x200000 ≤ off ∧ off ≤ 0x2FFFFF ∧ (off - 0x200000) / 16 < p.nmax)
    ∨ (0x300000 ≤ off ∧ off ≤ 0x37FFFF ∧ (off - 0x300000) / 8 < p.nmax)
    ∨ (0x380000 ≤ off ∧ off ≤ 0x3FFFFF ∧ (off - 0x380000) / 8 < p.nmax)
    ∨ (0x400000 ≤ off ∧ off ≤ 0x401FFF ∧ (off - 0x400000) / 32 < p.peakCap)

/-- `off` is a valid buffer word. -/
def BufferWord (p : Params) (off : Nat) : Prop := Mapped p off ∧ 0x100000 ≤ off ∧ off % 8 = 0

end Sys2Proof.Spec

open Sys2Proof Sys2Proof.Machine Sys2Proof.Spec

/-! ## Encoding -/

/-- 30_encoding.md R91, R93: the words of R100's examples, and one of every other command, decode to what they
stand for. -/
def Obligations.WordsOfTheSpecDecode : Prop :=
  decode 0x00000000 = .ok .nop
    ∧ decode 0x00000001 = .ok (.fft .c0 .forward)
    ∧ decode 0x00000051 = .ok (.fft .c1 .inverse)
    ∧ decode 0x00000022 = .ok (.mag .r1 .c0)
    ∧ decode 0x00080003 = .ok (.peaks .r0 8)
    ∧ decode 0x00000014 = .ok (.pitchpk .c1)
    ∧ decode 0x00004005 = .ok (.pitchhps .c0 4)
    ∧ decode 0x00000026 = .ok (.pitchac .c1 .c0)
    ∧ decode 0x00000016 = .ok (.pitchac .c0 .c1)
    ∧ decode 0x00000007 = .ok .conf
    ∧ decode 0x00000208 = .ok (.win .c0 .blackman)

/-- 30_encoding.md R93: a word is the command with opcode `op` iff it matches that row under its mask, and for WIN
additionally `w[9:8] != 3`. -/
def Obligations.DecodeFollowsTheOpcodeRows : Prop :=
  ∀ (w : CmdWord) (op : Nat), (∃ i, decode w = .ok i ∧ opcode i = op) ↔ IsCommand w op

/-- 30_encoding.md R91, R93: decoding an encoded command gives it back with every operand, well-formed or not, and
no two words are one command. -/
def Obligations.DecodeAndEncodeAreInverse : Prop :=
  (∀ i, decode (encode i) = .ok i) ∧ (∀ w i, decode w = .ok i → encode i = w)

/-- 30_encoding.md R99: the illegal words, and what writing one while idle does. -/
def Obligations.IllegalWordsAreRejected : Prop :=
  (∀ w : CmdWord,
    ((∃ e, decode w = .error e) ↔
      (9 ≤ (w.extractLsb' 0 4).toNat ∨ w.getLsbD 7 = true ∨ w.extractLsb' 10 2 ≠ 0 ∨ w.extractLsb' 24 8 ≠ 0
        ∨ w &&& ~~~usedBits (w.extractLsb' 0 4).toNat ≠ 0
        ∨ ((w.extractLsb' 0 4).toNat = 8 ∧ w.extractLsb' 8 2 = 3))))
  ∧ (∀ (s : State) (v : Word) (e : DecodeError), s.busy = false → decode (v.setWidth 32) = .error e →
      hostTxn (.write 0x20 v) s =
        { s with
          cmd := v.setWidth 32, done := false, err := true, errcode := .illegalCmd
          reply := some (.write .ok) })

/-- 30_encoding.md R100, R101: every command has an assembler line that names it, the words of R100's examples are
those of their lines, and the other names of R101 are their expansions. -/
def Obligations.AssemblerLinesNameTheCommands : Prop :=
  (∀ i, assemble (asmLine i).1 (asmLine i).2 = some i)
    ∧ (assemble "FFT" [.cbuf .c0, .word "fwd"]).map encode = some 0x00000001
    ∧ (assemble "FFT" [.cbuf .c1, .word "inv"]).map encode = some 0x00000051
    ∧ (assemble "MAG" [.rbuf .r1, .cbuf .c0]).map encode = some 0x00000022
    ∧ (assemble "PEAKS" [.rbuf .r0, .number 8]).map encode = some 0x00080003
    ∧ (assemble "PITCHHPS" [.cbuf .c0, .number 4]).map encode = some 0x00004005
    ∧ (assemble "PITCHAC" [.cbuf .c1, .cbuf .c0]).map encode = some 0x00000026
    ∧ (assemble "WIN" [.cbuf .c0, .word "blackman"]).map encode = some 0x00000208
    ∧ (∀ s, assemble "FFTF" [.cbuf s] = some (.fft s .forward) ∧ assemble "IFFT" [.cbuf s] = some (.fft s .inverse)
        ∧ assemble "HANN" [.cbuf s] = some (.win s .hann) ∧ assemble "HAMMING" [.cbuf s] = some (.win s .hamming)
        ∧ assemble "BLACKMAN" [.cbuf s] = some (.win s .blackman)
        ∧ assemble "transform" [.cbuf s, .word "FORWARD"] = some (.fft s .forward)
        ∧ assemble "transform" [.cbuf s, .word "INVERSE"] = some (.fft s .inverse)
        ∧ assemble "detect_pitch_peak" [.cbuf s] = some (.pitchpk s))
    ∧ (∀ d s, assemble "magnitude_spectrum" [.rbuf d, .cbuf s] = some (.mag d s))
    ∧ (∀ s (m : BitVec 8), assemble "find_peaks" [.rbuf s, .number m.toNat] = some (.peaks s m))
    ∧ (∀ s (h : BitVec 4), assemble "detect_pitch_hps" [.cbuf s, .number h.toNat] = some (.pitchhps s h))
    ∧ (∀ d s, assemble "detect_pitch_autocorr" [.cbuf d, .cbuf s] = some (.pitchac d s))

/-! ## Issue, acceptance, rejection -/

/-- 40_command.md R130: `ispow2` holds of the powers of two alone, `log2` is the exponent, and bit `k-1-b` of
`bitrev(i, k)`, a number below `2^k`, is bit `b` of `i`. -/
def Obligations.IntegerHelpersAreAsDefined : Prop :=
  (∀ n, isPow2 n = true ↔ ∃ k, n = 2 ^ k)
    ∧ (∀ k, (2 ^ k).log2 = k)
    ∧ (∀ i k, bitrev i k < 2 ^ k ∧ ∀ b < k, (bitrev i k).testBit (k - 1 - b) = i.testBit b)

/-- 60_exceptions.md R267: the check of a word reports the lowest code that applies. -/
def Obligations.CheckReportsTheLowestCode : Prop :=
  ∀ (p : Params) (w : CmdWord) (len fs : BitVec 32) (legal : Bool), (legal = true ↔ ∃ op, IsCommand w op) →
    outcomeCode (check p w len fs) = checkCode p legal w len fs

/-- 40_command.md R120, R121 and 60_exceptions.md R265: a CMD write while idle is accepted or rejected, and
changes nothing else; while BUSY it is ignored with HAZ; the response is OK in each case. -/
def Obligations.CmdWriteAcceptsOrRejects : Prop :=
  ∀ (s : State) (v : Word),
    (s.busy = true → hostTxn (.write 0x20 v) s = { s with haz := true, reply := some (.write .ok) })
    ∧ (s.busy = false →
        (∀ e, check s.params (v.setWidth 32) s.len s.fs = .error e →
          hostTxn (.write 0x20 v) s =
            { s with
              cmd := v.setWidth 32, done := false, err := true, errcode := e
              reply := some (.write .ok) })
        ∧ (∀ i, check s.params (v.setWidth 32) s.len s.fs = .ok i →
          hostTxn (.write 0x20 v) s =
            { s with
              cmd := v.setWidth 32, done := false, err := false, errcode := .none
              pending := some ⟨v.setWidth 32, s.len, s.fs⟩, reply := some (.write .ok) }))

/-! ## Steps -/

/-- 40_command.md R122, R123: when it is the engine's turn, one was chosen for it or none is left (log entry 6), a
step is the meaning of the accepted command the pending word decodes to. -/
def Obligations.StepRunsThePendingCommand : Prop :=
  ∀ (s : State) (p : Pending) (i : Instr) (rest : List Turn), s.pending = some p → decode p.word = .ok i →
    check s.params p.word p.len p.fs = .ok i →
      (s.turns = [] → step s = exec i s) ∧ (s.turns = .engine :: rest → step s = exec i { s with turns := rest })

/-- 20_memory.md R60, R71: a host turn is one transaction, carried out completely. -/
def Obligations.StepRunsTheHostTransaction : Prop :=
  ∀ (s : State) (t : Txn) (rest : List Turn), s.turns = .host t :: rest →
    step s = .next (hostTxn t { s with turns := rest })

/-- 60_exceptions.md R282: an idle block changes no state until the host accesses it: the engine's turn
(log entry 6) leaves it as it is. -/
def Obligations.IdleBlockChangesNothing : Prop :=
  ∀ s : State, s.busy = false → (s.turns = [] → step s = .next s)
    ∧ (∀ rest, s.turns = .engine :: rest → step s = .next { s with turns := rest })

/-- The model's own placing of a command (log entry 8): from any state, a well-formed command is the pending
command after `withFetchWord`, accepted, and the next step is its meaning. -/
def Obligations.FetchWordRunsNext : Prop :=
  ∀ (s : State) (i : Instr), i.wellFormed s.params = true →
    (s.withFetchWord 32 (encode i).toNat).holds i
      ∧ step (s.withFetchWord 32 (encode i).toNat) =
        exec i { s.withFetchWord 32 (encode i).toNat with turns := s.turns }

/-! ## Results, completion and frame of each command -/

/-- 40_command.md R133, R122: NOP does nothing but complete. -/
def Obligations.NopOnlyCompletes : Prop :=
  ∀ s : State, exec .nop s = .next { s with pending := none, done := true }

/-- 41_fft.md R160, R161: FFT completes; `C[S][0..N-1]` holds what the in-place loops compute; every other
buffer byte and every register but STATUS is unchanged. -/
def Obligations.FftRunsTheInPlaceLoops : Prop :=
  ∀ (s : State) (b : CBuf) (dir : Dir), s.holds (.fft b dir) →
    ∃ t, exec (.fft b dir) s = .next t
      ∧ t = { s with mem := t.mem, pending := none, done := true }
      ∧ (∀ i < s.opLen, t.cAt b i = inPlaceFft s.params.trig s.opLen dir (s.cAt b) i)
      ∧ (∀ a, a < cAddr b 0 ∨ cAddr b s.opLen ≤ a → t.byteAt a = s.byteAt a)

/-- 42_magnitude_peak.md R181: MAG completes; `R[D][i]` is MAGF of `C[S][i]` for every i below N; every other
buffer byte and every register but STATUS is unchanged. -/
def Obligations.MagWritesEveryMagnitude : Prop :=
  ∀ (s : State) (d : RBuf) (b : CBuf), s.holds (.mag d b) →
    ∃ t, exec (.mag d b) s = .next t
      ∧ t = { s with mem := t.mem, pending := none, done := true }
      ∧ (∀ i < s.opLen, t.rAt d i = magnitude (s.cAt b i))
      ∧ (∀ a, a < rAddr d 0 ∨ rAddr d s.opLen ≤ a → t.byteAt a = s.byteAt a)

/-- 42_magnitude_peak.md R182 to R184: PEAKS completes; P holds the first MAXP peaks of the scan, stably sorted by
descending magnitude, and PCOUNT their number; PAD words, every other buffer byte and every other register but
STATUS are unchanged. -/
def Obligations.PeaksWritesTheSortedPeaks : Prop :=
  ∀ (s : State) (b : RBuf) (maxp : BitVec 8), s.holds (.peaks b maxp) →
    ∃ t ps, exec (.peaks b maxp) s = .next t
      ∧ StableSorted (firstPeaks (s.rAt b) s.peakThr maxp.toNat s.opLen s.opFs) ps
      ∧ t = { s with mem := t.mem, pcount := t.pcount, pending := none, done := true }
      ∧ t.pcount.toNat = ps.length
      ∧ (∀ (j : Nat) (h : j < ps.length), t.wordAt (pAddr j) = BitVec.ofNat 64 ps[j].bin
          ∧ t.wordAt (pAddr j + 8) = ps[j].freq ∧ t.wordAt (pAddr j + 16) = ps[j].mag)
      ∧ (∀ a, ¬InP ps.length a → t.byteAt a = s.byteAt a)

/-- 43_pitch.md R200 to R202: PITCHPK completes; PK_BIN is the winner of the magnitudes over the peak band, and
F_PEAK its frequency, refined when both neighbours lie in the half-spectrum; nothing else but STATUS changes. -/
def Obligations.PitchpkSetsBinAndEstimate : Prop :=
  ∀ (s : State) (b : CBuf), s.holds (.pitchpk b) →
    ∃ bin,
      let n := s.opLen
      let fs := s.opFs
      let m := fun i => magnitude (s.cAt b i)
      let den := fadd (fsub (m (bin - 1)) (fmul two (m bin))) (m (bin + 1))
      let delta :=
        if bin + 1 ≤ n / 2 then
          if feq den plusZero then plusZero else fdiv (fmul half (fsub (m (bin - 1)) (m (bin + 1)))) den
        else plusZero
      Wins m (s.params.pkFmin * n / fs) (min (s.params.pkFmax * n / fs) (n / 2)) bin
        ∧ exec (.pitchpk b) s = .next
            { s with
              fPeak := if bin = 0 then plusZero else fdiv (fmul (fadd (i2f bin) delta) (i2f fs)) (i2f n)
              pkBin := BitVec.ofNat 32 bin, pending := none, done := true }

/-- 43_pitch.md R205 to R207: PITCHHPS completes; R0 holds the magnitudes, R1 the harmonic products, HPS_BIN the
winner of R1 over the HPS range and F_HPS its frequency; every other buffer byte and every other register but
STATUS is unchanged. -/
def Obligations.PitchhpsWritesProductsAndEstimate : Prop :=
  ∀ (s : State) (b : CBuf) (h : BitVec 4), s.holds (.pitchhps b h) →
    ∃ t bin,
      let n := s.opLen
      let fs := s.opFs
      let m := fun i => magnitude (s.cAt b i)
      exec (.pitchhps b h) s = .next t
        ∧ t = { s with
            mem := t.mem, pending := none, done := true
            fHps := if bin = 0 then plusZero else fdiv (fmul (i2f bin) (i2f fs)) (i2f n)
            hpsBin := BitVec.ofNat 32 bin }
        ∧ (∀ i < n, t.rAt .r0 i = m i)
        ∧ (∀ i ≤ n / 2, t.rAt .r1 i = harmonicProduct h.toNat n m i)
        ∧ Wins (t.rAt .r1) (s.params.hpsFmin * n / fs)
            (min (s.params.hpsFmax * n / fs) (n / (2 * h.toNat))) bin
        ∧ (∀ a, ¬InR .r0 n a → ¬InR .r1 (n / 2 + 1) a → t.byteAt a = s.byteAt a)

/-- 43_pitch.md R210 to R212: PITCHAC completes; `C[D][0..N-1]` holds the inverse transform of the power spectrum
of the forward transform of `C[S][0..N-1]`, AC_LAG the winner of its real parts over the lag range and F_AC the
rate over the lag; every other buffer byte (with S and D different, C[S]) and every other register but STATUS is
unchanged. -/
def Obligations.PitchacWritesAutocorrelationAndEstimate : Prop :=
  ∀ (s : State) (d b : CBuf), s.holds (.pitchac d b) →
    ∃ t lag,
      let n := s.opLen
      let fs := s.opFs
      let spectrum := inPlaceFft s.params.trig n .forward (s.cAt b)
      exec (.pitchac d b) s = .next t
        ∧ t = { s with
            mem := t.mem, pending := none, done := true
            fAc := if lag = 0 then plusZero else fdiv (i2f fs) (i2f lag)
            acLag := BitVec.ofNat 32 lag }
        ∧ (∀ i < n, t.cAt d i =
            inPlaceFft s.params.trig n .inverse (fun i => cplxMul (spectrum i) (cplxConj (spectrum i))) i)
        ∧ Wins (fun i => (t.cAt d i).re) (max 1 (fs / s.params.acFmax)) (min (fs / s.params.acFmin) (n / 2)) lag
        ∧ (∀ a, a < cAddr d 0 ∨ cAddr d n ≤ a → t.byteAt a = s.byteAt a)

/-- 43_pitch.md R215: CONF completes; the score is +0.0 at a zero mean and otherwise `1/(1 + sqrt(var)/mean)`, each
operation rounded; nothing else but STATUS changes. -/
def Obligations.ConfCombinesTheThreeEstimates : Prop :=
  ∀ s : State,
    let mean := fdiv (fadd (fadd s.fPeak s.fHps) s.fAc) three
    let sq := fun f => fmul (fsub f mean) (fsub f mean)
    let var := fdiv (fadd (fadd (sq s.fPeak) (sq s.fHps)) (sq s.fAc)) three
    exec .conf s = .next
      { s with
        conf := if feq mean plusZero then plusZero else fdiv one (fadd one (fdiv (fsqrt var) mean))
        pending := none, done := true }

/-- 44_window.md R240, R242: WIN completes; both parts of each of the first N entries are multiplied by the
coefficient WINCOEF; every other buffer byte and every register but STATUS is unchanged. -/
def Obligations.WinMultipliesEveryEntry : Prop :=
  ∀ (s : State) (b : CBuf) (kind : WindowKind), s.holds (.win b kind) →
    ∃ t, exec (.win b kind) s = .next t
      ∧ t = { s with mem := t.mem, pending := none, done := true }
      ∧ (∀ i < s.opLen, t.cAt b i =
          ⟨fmul (s.cAt b i).re (winCoef s.params kind i s.opLen),
            fmul (s.cAt b i).im (winCoef s.params kind i s.opLen)⟩)
      ∧ (∀ a, a < cAddr b 0 ∨ cAddr b s.opLen ≤ a → t.byteAt a = s.byteAt a)

/-! ## All commands -/

/-- 40_command.md R124: no command writes anything not in its row, but STATUS as R122 says. -/
def Obligations.CommandsWriteOnlyTheirRow : Prop :=
  ∀ (i : Instr) (s t : State), s.holds i → exec i s = .next t →
    (t.pending = none ∧ t.done = true ∧ t.err = s.err ∧ t.haz = s.haz ∧ t.errcode = s.errcode)
    ∧ (t.ie = s.ie ∧ t.cmd = s.cmd ∧ t.len = s.len ∧ t.fs = s.fs ∧ t.peakThr = s.peakThr)
    ∧ (opcode i ≠ 3 → t.pcount = s.pcount)
    ∧ (opcode i ≠ 4 → t.fPeak = s.fPeak ∧ t.pkBin = s.pkBin)
    ∧ (opcode i ≠ 5 → t.fHps = s.fHps ∧ t.hpsBin = s.hpsBin)
    ∧ (opcode i ≠ 6 → t.fAc = s.fAc ∧ t.acLag = s.acLag)
    ∧ (opcode i ≠ 7 → t.conf = s.conf)
    ∧ (t.epoch = s.epoch ∧ t.draws = s.draws ∧ t.turns = s.turns ∧ t.reply = s.reply)
    ∧ (∀ a, ¬WritesByte i s.opLen t.pcount.toNat a → t.byteAt a = s.byteAt a)

/-- 40_command.md R124, 10_state.md R43: what a command writes is determined by its word, N, fs, the parameters and what
its row reads; nothing else of the state can be seen in it.  For NaN results this rests on the model's choice of one
pattern for each operation and operands (log entry 3; R308 excepts payloads). -/
def Obligations.ResultsDependOnlyOnWhatIsRead : Prop :=
  ∀ (i : Instr) (s s' t t' : State), s.holds i → s'.holds i →
    s.params = s'.params → s.opLen = s'.opLen → s.opFs = s'.opFs →
    (∀ a, ReadsByte i s.opLen a → s.byteAt a = s'.byteAt a) →
    (opcode i = 3 → s.peakThr = s'.peakThr) →
    (opcode i = 7 → s.fPeak = s'.fPeak ∧ s.fHps = s'.fHps ∧ s.fAc = s'.fAc) →
    exec i s = .next t → exec i s' = .next t' →
      (∀ a, WritesByte i s.opLen t.pcount.toNat a → t.byteAt a = t'.byteAt a)
      ∧ (opcode i = 3 → t.pcount = t'.pcount)
      ∧ (opcode i = 4 → t.fPeak = t'.fPeak ∧ t.pkBin = t'.pkBin)
      ∧ (opcode i = 5 → t.fHps = t'.fHps ∧ t.hpsBin = t'.hpsBin)
      ∧ (opcode i = 6 → t.fAc = t'.fAc ∧ t.acLag = t'.acLag)
      ∧ (opcode i = 7 → t.conf = t'.conf)

/-! ## The parts of the algorithms -/

/-- 40_command.md R132: the maximum search returns the lowest index of the largest value in the range when that
exceeds +0.0, and else 0; a NaN never wins, and an empty range gives 0. -/
def Obligations.ArgmaxFindsTheLowestLargest : Prop :=
  ∀ (v : Nat → F64) (lo hi : Nat), Wins v lo hi (argmax v lo hi)

/-- 41_fft.md R162: after the swaps entry `i` is old entry `bitrev(i, k)`, moved bit for bit, and `bitrev` is its
own inverse. -/
def Obligations.SwapLoopReversesTheIndices : Prop :=
  ∀ (k : Nat) (b : List Cplx), b.length = 2 ^ k →
    (swapPass k (2 ^ k) 0 b).length = 2 ^ k
      ∧ ∀ i < 2 ^ k, nthC (swapPass k (2 ^ k) 0 b) i = nthC b (bitrev i k) ∧ bitrev (bitrev i k) k = i

/-- 00_scope.md R7, 41_fft.md R163: COS64 is even and SIN64 odd, so the INVERSE twiddle is the conjugate of the
FORWARD one, bit for bit. -/
def Obligations.InverseTwiddleIsTheConjugate : Prop :=
  (∀ trig x, cos64 trig (negated x) = cos64 trig x ∧ sin64 trig (negated x) = negated (sin64 trig x))
    ∧ ∀ trig m, twiddle trig m .inverse = ⟨(twiddle trig m .forward).re, negated (twiddle trig m .forward).im⟩

/-- 41_fft.md R163: the table of FORWARD factors for `m = 2^s`, in the reference configuration (log entry 2). -/
def Obligations.ForwardTwiddlesOfTheReferenceTable : Prop :=
  ∀ row ∈ ([
    (1, 0xBFF0000000000000, 0xBCA1A62633145C07), (2, 0x3C91A62633145C07, 0xBFF0000000000000),
    (3, 0x3FE6A09E667F3BCD, 0xBFE6A09E667F3BCC), (4, 0x3FED906BCF328D46, 0xBFD87DE2A6AEA963),
    (5, 0x3FEF6297CFF75CB0, 0xBFC8F8B83C69A60A), (6, 0x3FEFD88DA3D12526, 0xBFB917A6BC29B42C),
    (7, 0x3FEFF621E3796D7E, 0xBFA91F65F10DD814), (8, 0x3FEFFD886084CD0D, 0xBF992155F7A3667E),
    (9, 0x3FEFFF62169B92DB, 0xBF8921D1FCDEC784), (10, 0x3FEFFFD8858E8A92, 0xBF7921F0FE670071),
    (11, 0x3FEFFFF621621D02, 0xBF6921F8BECCA4BA), (12, 0x3FEFFFFD88586EE6, 0xBF5921FAAEE6472D),
    (13, 0x3FEFFFFF62161A34, 0xBF4921FB2AECB360), (14, 0x3FEFFFFFD8858675, 0xBF3921FB49EE4EA6),
    (15, 0x3FEFFFFFF621619C, 0xBF2921FB51AEB57B), (16, 0x3FEFFFFFFD885867, 0xBF1921FB539ECF31)] :
      List (Nat × F64 × F64)), twiddle .rounded (2 ^ row.1) .forward = ⟨row.2.1, row.2.2⟩

/-- 43_pitch.md R211: with no NaN among its parts, the product of a value and its conjugate has the squared
magnitude as real part, and +0 as imaginary part where the product of the parts is finite, a NaN where it overflows;
a NaN part makes both parts NaNs. -/
def Obligations.PowerSpectrumIsReal : Prop :=
  ∀ x : Cplx,
    (isNaN x.re = false → isNaN x.im = false →
      (cmul x (conj x)).re = fadd (fmul x.re x.re) (fmul x.im x.im)
      ∧ (isFinite (fmul x.im x.re) = true → (cmul x (conj x)).im = plusZero)
      ∧ (isInf (fmul x.im x.re) = true → isNaN (cmul x (conj x)).im = true))
    ∧ (isNaN x.re = true ∨ isNaN x.im = true →
        isNaN (cmul x (conj x)).re = true ∧ isNaN (cmul x (conj x)).im = true)

/-- 42_magnitude_peak.md R180: a magnitude is never negative nor -0, is +infinity when a component is infinite and
the other is not a NaN, and is a NaN when a component is. -/
def Obligations.MagnitudesAreNeverNegative : Prop :=
  ∀ c : Cplx,
    (isNaN c.re = true ∨ isNaN c.im = true → isNaN (magf c) = true)
    ∧ (isNaN c.re = false → isNaN c.im = false → isNaN (magf c) = false ∧ signOf (magf c) = false
        ∧ (isInf c.re = true ∨ isInf c.im = true → magf c = plusInf))

/-- 43_pitch.md R204: a detector that finds nothing above +0.0 in its range completes with estimate +0.0 and
index 0. -/
def Obligations.NothingFoundGivesTheSentinel : Prop :=
  ∀ (s t : State) (b d : CBuf) (h : BitVec 4),
    (s.holds (.pitchpk b) → exec (.pitchpk b) s = .next t →
      (∀ i, s.params.pkFmin * s.opLen / s.opFs ≤ i → i ≤ min (s.params.pkFmax * s.opLen / s.opFs) (s.opLen / 2) →
        fgt (magnitude (s.cAt b i)) plusZero = false) → t.fPeak = 0 ∧ t.pkBin = 0 ∧ t.done = true ∧ t.err = s.err)
    ∧ (s.holds (.pitchhps b h) → exec (.pitchhps b h) s = .next t →
      (∀ i, s.params.hpsFmin * s.opLen / s.opFs ≤ i →
        i ≤ min (s.params.hpsFmax * s.opLen / s.opFs) (s.opLen / (2 * h.toNat)) →
        fgt (t.rAt .r1 i) plusZero = false) → t.fHps = 0 ∧ t.hpsBin = 0 ∧ t.done = true ∧ t.err = s.err)
    ∧ (s.holds (.pitchac d b) → exec (.pitchac d b) s = .next t →
      (∀ i, max 1 (s.opFs / s.params.acFmax) ≤ i → i ≤ min (s.opFs / s.params.acFmin) (s.opLen / 2) →
        fgt (t.cAt d i).re plusZero = false) → t.fAc = 0 ∧ t.acLag = 0 ∧ t.done = true ∧ t.err = s.err)

/-- 41_fft.md R167: FFT forward of length 1 leaves every buffer byte unchanged. -/
def Obligations.ForwardFftOfLengthOneIsTheIdentity : Prop :=
  ∀ (s : State) (b : CBuf), s.opLen = 1 →
    ∃ t, exec (.fft b .forward) s = .next t ∧ ∀ a, t.byteAt a = s.byteAt a

/-- 44_window.md R245, for the default coefficients and the correctly rounded cosine (log entries 1 and 2): the first
one of every window of length 2 or more (up to NMAX): exactly 0 for Hann, 0x3FB47AE147AE147C for Hamming, -2^-56 for
Blackman; and 1.0 at length 1 under the denominator N - 1. -/
def Obligations.FirstWindowCoefficients : Prop :=
  ∀ p : Params, p.winCoef = .default → p.trig = .rounded →
    (∀ kind, p.winDenom = .nMinusOne → winCoef p kind 0 1 = one)
      ∧ ∀ n, 2 ≤ n → n ≤ p.nmax →
        winCoef p .hann 0 n = plusZero ∧ winCoef p .hamming 0 n = 0x3FB47AE147AE147C
          ∧ winCoef p .blackman 0 n = 0xBC70000000000000

/-- 44_window.md R244: the default coefficient of every kind at every `i` and `n`, under either denominator
convention: 1.0 at denominator 0, and the formula of the kind, as written, otherwise. -/
def Obligations.WindowCoefficientsAreTheDefaultFormulas : Prop :=
  ∀ (p : Params) (i n : Nat), p.winCoef = .default →
    let dn := if p.winDenom = .n then n else n - 1
    let th1 := fdiv (fmul 0x401921FB54442D18 (i2f i)) (i2f dn)
    let th2 := fdiv (fmul 0x402921FB54442D18 (i2f i)) (i2f dn)
    (dn = 0 → ∀ kind, winCoef p kind i n = 0x3FF0000000000000)
      ∧ (dn ≠ 0 →
        winCoef p .hann i n = fmul 0x3FE0000000000000 (fsub 0x3FF0000000000000 (cos64 p.trig th1))
          ∧ winCoef p .hamming i n = fsub 0x3FE147AE147AE148 (fmul 0x3FDD70A3D70A3D71 (cos64 p.trig th1))
          ∧ winCoef p .blackman i n =
            fadd (fsub 0x3FDAE147AE147AE1 (fmul 0x3FE0000000000000 (cos64 p.trig th1)))
              (fmul 0x3FB47AE147AE147B (cos64 p.trig th2)))

/-- 43_pitch.md R215: a NaN or infinite estimate makes the confidence a NaN, whatever the others are, and three zero
estimates, of either sign, make it +0.0. -/
def Obligations.ConfidenceOfDegenerateEstimates : Prop :=
  (∀ f1 f2 f3,
    (isNaN f1 = true ∨ isNaN f2 = true ∨ isNaN f3 = true) ∨ (isInf f1 = true ∨ isInf f2 = true ∨ isInf f3 = true) →
      isNaN (confidence f1 f2 f3) = true)
    ∧ (∀ f1 f2 f3, isZero f1 = true → isZero f2 = true → isZero f3 = true → confidence f1 f2 f3 = plusZero)

/-! ## Binary64 (40_command.md R125 to R127, R131; 00_scope.md R9) -/

/-- 40_command.md R125: on finite operands each operation is the exact result rounded once to nearest, ties to
even, overflow giving the infinity of its sign from the midpoint above the largest finite value on (IEEE 754's
threshold, PRESUMED, log entry 13). -/
def Obligations.FloatOperationsRoundToNearestEven : Prop :=
  ∀ a b, isFinite a = true → isFinite b = true →
    RoundsTo (real a + real b) (fadd a b) ∧ RoundsTo (real a - real b) (fsub a b)
      ∧ RoundsTo (real a * real b) (fmul a b)
      ∧ (isZero b = false → RoundsTo (real a / real b) (fdiv a b))
      ∧ (0 ≤ real a → RoundsTo (√(real a)) (fsqrt a))

/-- 40_command.md R125, R126: the special cases: division by zero, invalid operations, the root of -0, exact zero
sums and differences; and a NaN operand gives a NaN. -/
def Obligations.FloatSpecialCases : Prop :=
  (∀ a b, isFinite a = true → isZero a = false → isZero b = true →
      fdiv a b = packBits (signOf a != signOf b) infBits)
    ∧ (∀ a b, isZero a = true → isZero b = true → isNaN (fdiv a b) = true)
    ∧ (∀ a b, isInf a = true → isInf b = true → signOf a = signOf b → isNaN (fsub a b) = true)
    ∧ (∀ a b, isZero a = true → isInf b = true → isNaN (fmul a b) = true)
    ∧ (∀ a, isZero a = false → signOf a = true → isNaN (fsqrt a) = true)
    ∧ fsqrt 0x8000000000000000 = 0x8000000000000000
    ∧ (∀ a b, isFinite a = true → isFinite b = true → real a + real b = 0 →
        fadd a b = if signOf a && signOf b then 0x8000000000000000 else 0)
    ∧ (∀ a b, isFinite a = true → isFinite b = true → real a = real b →
        fsub a b = if signOf a && !signOf b then 0x8000000000000000 else 0)
    ∧ (∀ a b, isNaN a = true ∨ isNaN b = true →
        isNaN (fadd a b) = true ∧ isNaN (fsub a b) = true ∧ isNaN (fmul a b) = true ∧ isNaN (fdiv a b) = true)
    ∧ (∀ a, isNaN a = true → isNaN (fsqrt a) = true)

/-- 40_command.md R125, and IEEE 754 where R125 lists no case (PRESUMED, log entry 13): a product or quotient that is
no NaN, a zero among them, has the exclusive or of its operands' signs, and a root the sign of its operand; and the
operations on infinite operands. -/
def Obligations.SignsAndInfiniteOperands : Prop :=
  (∀ a b, isNaN (fmul a b) = false → signOf (fmul a b) = (signOf a != signOf b))
    ∧ (∀ a b, isNaN (fdiv a b) = false → signOf (fdiv a b) = (signOf a != signOf b))
    ∧ (∀ a, isNaN (fsqrt a) = false → signOf (fsqrt a) = signOf a)
    ∧ (∀ a b, isInf a = true → isFinite b = true →
        fadd a b = a ∧ fadd b a = a ∧ fsub a b = a ∧ fsub b a = negated a)
    ∧ (∀ a b, isInf a = true → isInf b = true →
        if signOf a = signOf b then fadd a b = a ∧ isNaN (fsub a b) = true
        else isNaN (fadd a b) = true ∧ fsub a b = a)
    ∧ (∀ a b, isInf a = true → isNaN b = false →
        if isZero b then isNaN (fmul a b) = true ∧ isNaN (fmul b a) = true
        else isInf (fmul a b) = true ∧ isInf (fmul b a) = true)
    ∧ (∀ a b, isInf a = true → isFinite b = true → isInf (fdiv a b) = true ∧ isZero (fdiv b a) = true)
    ∧ (∀ a b, isInf a = true → isInf b = true → isNaN (fdiv a b) = true)
    ∧ fsqrt plusInf = plusInf

/-- 40_command.md R127: the comparisons are false on NaNs, take +0 and -0 as equal, order finite values as the
reals they denote, and put the infinities outermost; of any two values that are no NaN, infinite ones among them, they
are equal exactly when they are one pattern or both zeros, and otherwise exactly one exceeds the other; `a < b` is
`b > a`. -/
def Obligations.ComparisonsOrderTheReals : Prop :=
  (∀ a b, isNaN a = true ∨ isNaN b = true → fgt a b = false ∧ feq a b = false)
    ∧ (∀ a b, isFinite a = true → isFinite b = true →
        (fgt a b = true ↔ real b < real a) ∧ (feq a b = true ↔ real a = real b))
    ∧ (∀ a, isNaN a = false → (fgt plusInf a = true ↔ a ≠ plusInf)
        ∧ (fgt a (negated plusInf) = true ↔ a ≠ negated plusInf))
    ∧ (∀ a b, isNaN a = false → isNaN b = false →
        (feq a b = true ↔ a = b ∨ (isZero a = true ∧ isZero b = true))
        ∧ (fgt a b = true ↔ fgt b a = false ∧ feq a b = false))

/-- 00_scope.md R9: `i2f` is exact below 2^53. -/
def Obligations.IntegerConversionIsExact : Prop :=
  ∀ n, n < 2 ^ 53 → isFinite (i2f n) = true ∧ signOf (i2f n) = false ∧ real (i2f n) = n

/-- 40_command.md R131, 42_magnitude_peak.md R183: the frequency of an integer bin is exactly `bin·fs/N`. -/
def Obligations.IntegerBinFrequencyIsExact : Prop :=
  ∀ (b k fs : Nat), b < 2 ^ 16 → k ≤ 16 → fs < 2 ^ 32 →
    isFinite (binToFrequency (i2f b) (2 ^ k) fs) = true
      ∧ real (binToFrequency (i2f b) (2 ^ k) fs) = b * fs / 2 ^ k

/-! ## The bus -/

/-- 20_memory.md R62 to R64, 60_exceptions.md R274: an access is a bus error exactly when its offset is misaligned
or unmapped; it answers ERR, with data 0 for a read, and changes nothing else, BUSY or not. -/
def Obligations.BusErrorsChangeNothing : Prop :=
  ∀ (s : State) (off : Offset) (v : Word),
    (¬(off.toNat % 8 = 0 ∧ Mapped s.params off.toNat) →
      hostTxn (.read off) s = { s with reply := some (.read 0 .err) }
        ∧ hostTxn (.write off v) s = { s with reply := some (.write .err) })
    ∧ (off.toNat % 8 = 0 → Mapped s.params off.toNat →
        (∃ d, (hostTxn (.read off) s).reply = some (.read d .ok))
          ∧ (hostTxn (.write off v) s).reply = some (.write .ok))

/-- 70_reset_and_hazards.md R301: while BUSY, a write of an operand register, of CMD or of a buffer word is ignored
with HAZ; a read of a buffer word sets HAZ and answers a drawn value; read-only registers ignore writes without HAZ;
STATUS and CTRL writes, a soft reset among them, act as when idle; a register read answers the value the register
holds.  The response is OK throughout.  The statement holds for every drawn value;
that a counter numbers them is the model's choice (log entry 4). -/
def Obligations.BusyRule : Prop :=
  ∀ (s : State) (off : Offset) (v : Word), s.busy = true →
    (off.toNat ∈ [0x20, 0x28, 0x30, 0x38, 0x48, 0x50, 0x58] ∨ BufferWord s.params off.toNat →
      hostTxn (.write off v) s = { s with haz := true, reply := some (.write .ok) })
    ∧ (BufferWord s.params off.toNat →
        hostTxn (.read off) s =
          { s with
            haz := true, draws := s.draws + 1, reply := some (.read (Config.draw s.draws) .ok) })
    ∧ (off.toNat ∈ [0x00, 0x08, 0x40, 0x60, 0x68, 0x70, 0x78] →
        hostTxn (.write off v) s = { s with reply := some (.write .ok) })
    ∧ (off.toNat = 0x18 → hostTxn (.write off v) s =
        { s with
          done := s.done && !v.getLsbD 1, err := s.err && !v.getLsbD 2, haz := s.haz && !v.getLsbD 3
          reply := some (.write .ok) })
    ∧ (off.toNat = 0x10 → v.getLsbD 1 = false →
        hostTxn (.write off v) s = { s with ie := v.getLsbD 0, reply := some (.write .ok) })
    ∧ (off.toNat = 0x10 → v.getLsbD 1 = true →
        hostTxn (.write off v) s = { softReset s with reply := some (.write .ok) })
    ∧ (off.toNat ≤ 0x78 → off.toNat % 8 = 0 →
        ∃ r, Reg.ofOffset off.toNat = some r
          ∧ hostTxn (.read off) s = { s with reply := some (.read (s.readReg r) .ok) })

/-- 10_state.md R23 to R38: what a host read of each register returns; reserved bits read 0. -/
def Obligations.RegisterReadsReturnTheFields : Prop :=
  ∀ s : State,
    let reads := fun (off : Offset) (d : Word) =>
      hostTxn (.read off) s = { s with reply := some (.read d .ok) }
    reads 0x00 0x0000000146465432
      ∧ (∃ d : Word, reads 0x08 d ∧ (d.extractLsb' 0 5).toNat = s.params.log2Nmax ∧ d.extractLsb' 5 3 = 0
          ∧ (d.extractLsb' 8 8).toNat = s.params.peakCap ∧ d.extractLsb' 16 48 = 0)
      ∧ (s.params = .reference → reads 0x08 0x000000000000400D)
      ∧ reads 0x10 (if s.ie then 1 else 0)
      ∧ (∃ d : Word, reads 0x18 d ∧ d.getLsbD 0 = s.busy ∧ d.getLsbD 1 = s.done ∧ d.getLsbD 2 = s.err
          ∧ d.getLsbD 3 = s.haz ∧ d.extractLsb' 4 4 = 0 ∧ d.extractLsb' 8 8 = s.errcode.code
          ∧ d.extractLsb' 16 48 = 0)
      ∧ reads 0x20 (s.cmd.setWidth 64) ∧ reads 0x28 (s.len.setWidth 64) ∧ reads 0x30 (s.fs.setWidth 64)
      ∧ reads 0x38 s.peakThr ∧ reads 0x40 (s.pcount.setWidth 64) ∧ reads 0x48 s.fPeak ∧ reads 0x50 s.fHps
      ∧ reads 0x58 s.fAc ∧ reads 0x60 s.conf ∧ reads 0x68 (s.pkBin.setWidth 64)
      ∧ reads 0x70 (s.hpsBin.setWidth 64) ∧ reads 0x78 (s.acLag.setWidth 64)

/-- 10_state.md R24, R26, R29, R36: what a host write of each register but CMD does while idle. -/
def Obligations.RegisterWritesFollowTheAccessType : Prop :=
  ∀ (s : State) (v : Word), s.busy = false →
    hostTxn (.write 0x28 v) s = { s with len := v.setWidth 32, reply := some (.write .ok) }
      ∧ hostTxn (.write 0x30 v) s = { s with fs := v.setWidth 32, reply := some (.write .ok) }
      ∧ hostTxn (.write 0x38 v) s = { s with peakThr := v, reply := some (.write .ok) }
      ∧ hostTxn (.write 0x48 v) s = { s with fPeak := v, reply := some (.write .ok) }
      ∧ hostTxn (.write 0x50 v) s = { s with fHps := v, reply := some (.write .ok) }
      ∧ hostTxn (.write 0x58 v) s = { s with fAc := v, reply := some (.write .ok) }
      ∧ (v.getLsbD 1 = false →
          hostTxn (.write 0x10 v) s = { s with ie := v.getLsbD 0, reply := some (.write .ok) })
      ∧ hostTxn (.write 0x18 v) s =
          { s with
            done := s.done && !v.getLsbD 1, err := s.err && !v.getLsbD 2, haz := s.haz && !v.getLsbD 3
            reply := some (.write .ok) }
      ∧ (∀ off : Offset, off.toNat ∈ [0x00, 0x08, 0x40, 0x60, 0x68, 0x70, 0x78] →
          hostTxn (.write off v) s = { s with reply := some (.write .ok) })

/-- 20_memory.md R62, R71: while idle a write of a buffer word changes that word alone, and reads return the word
stored last. -/
def Obligations.BufferWordsHoldTheLastStore : Prop :=
  ∀ (s : State) (off : Offset) (v : Word), s.busy = false → BufferWord s.params off.toNat →
    ∃ t, hostTxn (.write off v) s = t
      ∧ t = { s with mem := t.mem, reply := some (.write .ok) }
      ∧ hostTxn (.read off) t = { t with reply := some (.read v .ok) }
      ∧ (∀ off' : Offset, BufferWord s.params off'.toNat → off' ≠ off →
          ∃ d, hostTxn (.read off') s = { s with reply := some (.read d .ok) }
            ∧ hostTxn (.read off') t = { t with reply := some (.read d .ok) })
      ∧ (∀ a, a < off.toNat ∨ off.toNat + 8 ≤ a → t.byteAt a = s.byteAt a)

/-- 60_exceptions.md R275: HAZ rises only at a host access the busy rule forbids. -/
def Obligations.OnlyForbiddenAccessesSetHaz : Prop :=
  ∀ s t : State, step s = .next t → s.haz = false → t.haz = true →
    s.busy = true ∧ ∃ off rest,
      (s.turns = .host (.read off) :: rest ∧ BufferWord s.params off.toNat)
      ∨ (∃ v, s.turns = .host (.write off v) :: rest
          ∧ (off.toNat ∈ [0x20, 0x28, 0x30, 0x38, 0x48, 0x50, 0x58] ∨ BufferWord s.params off.toNat))

/-- 60_exceptions.md R275: HAZ is sticky: it falls only at a STATUS write with bit 3 = 1 or a reset. -/
def Obligations.HazFallsOnlyWhenCleared : Prop :=
  ∀ s t : State, step s = .next t → s.haz = true → t.haz = false →
    ∃ rest, s.turns = .powerOn :: rest
      ∨ (∃ v : Word, s.turns = .host (.write 0x18 v) :: rest ∧ v.getLsbD 3 = true)
      ∨ (∃ v : Word, s.turns = .host (.write 0x10 v) :: rest ∧ v.getLsbD 1 = true)

/-- 60_exceptions.md R270, R271: `irq` follows IE, DONE and ERR; completion or rejection with IE = 1 asserts it, the
W1C write of both flags drops it, and setting IE while a flag is up asserts it at once. -/
def Obligations.IrqFollowsTheFlags : Prop :=
  ∀ s : State,
    (s.irq = true ↔ s.ie = true ∧ (s.done = true ∨ s.err = true))
    ∧ (∀ i t, exec i s = .next t → t.irq = s.ie)
    ∧ (∀ (v : Word) e, s.busy = false → check s.params (v.setWidth 32) s.len s.fs = .error e →
        (hostTxn (.write 0x20 v) s).irq = s.ie)
    ∧ (∀ v : Word, v.getLsbD 1 = true → v.getLsbD 2 = true → (hostTxn (.write 0x18 v) s).irq = false)
    ∧ (∀ v : Word, v.getLsbD 0 = true → v.getLsbD 1 = false →
        (hostTxn (.write 0x10 v) s).irq = (s.done || s.err))

/-- 60_exceptions.md R270, R271: `irq` stays asserted until the host clears every raised flag by a STATUS write,
clears IE, has a new command accepted (which clears DONE and ERR), or a reset. -/
def Obligations.IrqStaysUntilCleared : Prop :=
  ∀ s t : State, step s = .next t → s.irq = true → t.irq = false →
    ∃ rest, s.turns = .powerOn :: rest
      ∨ (∃ v : Word, s.turns = .host (.write 0x18 v) :: rest
          ∧ (s.done = true → v.getLsbD 1 = true) ∧ (s.err = true → v.getLsbD 2 = true))
      ∨ (∃ v : Word, s.turns = .host (.write 0x10 v) :: rest ∧ (v.getLsbD 0 = false ∨ v.getLsbD 1 = true))
      ∨ (∃ (v : Word) (i : Instr), s.turns = .host (.write 0x20 v) :: rest ∧ s.busy = false
          ∧ check s.params (v.setWidth 32) s.len s.fs = .ok i)

/-! ## Reset -/

/-- 10_state.md R46: what every register reads, and that nothing is pending, in the reset state, after a power-on
move, and after a soft reset. -/
def Obligations.ResetValuesOfTheRegisters : Prop :=
  ∀ s t : State,
    t = State.reset ∨ (∃ rest, s.turns = .powerOn :: rest ∧ step s = .next t) ∨ t = powerOnReset s
        ∨ t = softReset s →
    t.readReg .id = 0x0000000146465432 ∧ (t.readReg .cfg).toNat = t.params.log2Nmax + 256 * t.params.peakCap
      ∧ (t.params = .reference → t.readReg .cfg = 0x000000000000400D) ∧ t.readReg .ctrl = 0
      ∧ t.readReg .status = 0 ∧ t.readReg .cmd = 0 ∧ t.readReg .len = 0 ∧ t.readReg .fs = 44100
      ∧ t.readReg .peakThr = 0x3FB999999999999A ∧ t.readReg .pcount = 0 ∧ t.readReg .fPeak = 0
      ∧ t.readReg .fHps = 0 ∧ t.readReg .fAc = 0 ∧ t.readReg .conf = 0 ∧ t.readReg .pkBin = 0
      ∧ t.readReg .hpsBin = 0 ∧ t.readReg .acLag = 0 ∧ t.pending = none ∧ t.irq = false

/-- 10_state.md R46, R47, 70_reset_and_hazards.md R290: a power-on move leaves the reset state, the parameters as they
were, and every buffer byte a value of this power-on reset alone (numbered by a counter, the model's choice, log
entry 5), whatever was stored before. -/
def Obligations.PowerOnLeavesFreshContents : Prop :=
  ∀ (s : State) (rest : List Turn), s.turns = .powerOn :: rest →
    ∃ t, step s = .next t
      ∧ t = { State.reset with params := s.params, epoch := s.epoch + 1, draws := s.draws, turns := rest }
      ∧ ∀ a, t.byteAt a = Config.powerOnByte (s.epoch + 1) a

/-- 10_state.md R44, 70_reset_and_hazards.md R290: no step changes a parameter, a reset included. -/
def Obligations.StepsKeepTheParameters : Prop := ∀ s t : State, step s = .next t → t.params = s.params

/-- 70_reset_and_hazards.md R292: a CTRL write with SRST = 1, BUSY or not, answers OK, resets every register, keeps
every buffer byte outside the write set of the command in flight, and makes each word of that set a value drawn
for it alone (numbered by a counter, the model's choice, log entry 4). -/
def Obligations.SoftResetDrawsTheWriteSet : Prop :=
  ∀ (s : State) (v : Word), Inv s → v.getLsbD 1 = true →
    ∃ t, hostTxn (.write 0x10 v) s = t
      ∧ t = { State.reset with
          params := s.params, mem := t.mem, epoch := s.epoch, draws := t.draws, turns := s.turns
          reply := some (.write .ok) }
      ∧ (∀ a, (∀ i, s.holds i → ¬LosesByte i s.opLen a) → t.byteAt a = s.byteAt a)
      ∧ (∀ i, s.holds i → ∃ k : Nat → Nat,
          (∀ a, a % 8 = 0 → LosesByte i s.opLen a →
            s.draws ≤ k a ∧ k a < t.draws ∧ t.wordAt a = Config.draw (k a))
          ∧ ∀ a a', a % 8 = 0 → a' % 8 = 0 → LosesByte i s.opLen a → LosesByte i s.opLen a' →
              k a = k a' → a = a')

/-! ## The invariant -/

/-- The invariant holds after reset. -/
def Obligations.ResetMeetsTheInvariant : Prop := Inv State.reset

/-- Every step keeps the invariant: memory stays canonical and inside the mapped entries, the pending command stays
the accepted one of CMD, LEN and FS, the flags stay consistent, PCOUNT stays within PEAK_CAP. -/
def Obligations.StepKeepsTheInvariant : Prop := ∀ s t : State, Inv s → step s = .next t → Inv t

/-- 40_command.md R122, 60_exceptions.md R268: no run from a state that meets the invariant ever stops, whatever the
host does. -/
def Obligations.RunsNeverStop : Prop := ∀ s : State, Inv s → NeverStops s

/-- 40_command.md R137: while a command stays pending over a step, it stays the same command, and every operand
register and every buffer byte keeps its value. -/
def Obligations.OperandsAreStableWhilePending : Prop :=
  ∀ (s t : State) (p p' : Pending), s.pending = some p → step s = .next t → t.pending = some p' →
    p' = p ∧ t.cmd = s.cmd ∧ t.len = s.len ∧ t.fs = s.fs ∧ t.peakThr = s.peakThr ∧ t.fPeak = s.fPeak
      ∧ t.fHps = s.fHps ∧ t.fAc = s.fAc ∧ ∀ a, t.byteAt a = s.byteAt a

/-- 70_reset_and_hazards.md R307: a pending command is no longer pending, completed or aborted, at some point within
the moves scheduled and one more, whatever they are (the schedule is the model's choice, log entry 6). -/
def Obligations.PendingCommandsComplete : Prop :=
  ∀ s : State, Inv s → s.busy = true →
    ∃ k t, k ≤ s.turns.length + 1 ∧ core.run k s = .next t ∧ t.pending = none

/-- 30_encoding.md R102, 40_command.md R122, 20_memory.md R71: when a `wait` line comes next, its reads before the
engine's step and that step leave the block idle, the effect of the pending command in place, and one last read of
STATUS to come (the placing of the engine's step among the reads is the model's choice, log entry 6). -/
def Obligations.WaitEndsWithTheBlockIdle : Prop :=
  ∀ (s : State) (polls : Nat) (rest : List Turn) (i : Instr), s.holds i →
    s.turns = (HostLine.wait polls).turns ++ rest →
      ∃ t r, core.run (polls + 1) s = .next t ∧ t.busy = false ∧ t.turns = .host (.read 0x18) :: rest
        ∧ exec i { s with turns := .host (.read 0x18) :: rest, reply := r } = .next t

/-- 10_state.md R30, R42: BUSY rises only at an accepted CMD write, which leaves that command pending, and falls only
at the engine's move, at a power-on reset, or at a CTRL write with SRST = 1. -/
def Obligations.BusyChangesOnlyAtItsEvents : Prop :=
  ∀ s t : State, step s = .next t →
    (s.busy = false → t.busy = true →
      ∃ v i rest, s.turns = .host (.write 0x20 v) :: rest ∧ check s.params (v.setWidth 32) s.len s.fs = .ok i
        ∧ t.pending = some ⟨v.setWidth 32, s.len, s.fs⟩)
    ∧ (s.busy = true → t.busy = false →
      s.turns = [] ∨ ∃ rest, s.turns = .engine :: rest ∨ s.turns = .powerOn :: rest
        ∨ ∃ v : Word, s.turns = .host (.write 0x10 v) :: rest ∧ v.getLsbD 1 = true)
end

