-- ==== Sys2Proof/Laws/State.lean ====
section
/-! SUPPORT. What each update of the state leaves in each field: one lemma for each field of each update, so that
no later proof unfolds one. -/

namespace Sys2Proof.Machine

variable (s : State)

/-! ## withMem -/

@[simp] theorem withMem_params (m : List Host.Cell) : (s.withMem m).params = s.params := rfl
@[simp] theorem withMem_ie (m : List Host.Cell) : (s.withMem m).ie = s.ie := rfl
@[simp] theorem withMem_done (m : List Host.Cell) : (s.withMem m).done = s.done := rfl
@[simp] theorem withMem_err (m : List Host.Cell) : (s.withMem m).err = s.err := rfl
@[simp] theorem withMem_haz (m : List Host.Cell) : (s.withMem m).haz = s.haz := rfl
@[simp] theorem withMem_errcode (m : List Host.Cell) : (s.withMem m).errcode = s.errcode := rfl
@[simp] theorem withMem_cmd (m : List Host.Cell) : (s.withMem m).cmd = s.cmd := rfl
@[simp] theorem withMem_len (m : List Host.Cell) : (s.withMem m).len = s.len := rfl
@[simp] theorem withMem_fs (m : List Host.Cell) : (s.withMem m).fs = s.fs := rfl
@[simp] theorem withMem_peakThr (m : List Host.Cell) : (s.withMem m).peakThr = s.peakThr := rfl
@[simp] theorem withMem_pcount (m : List Host.Cell) : (s.withMem m).pcount = s.pcount := rfl
@[simp] theorem withMem_fPeak (m : List Host.Cell) : (s.withMem m).fPeak = s.fPeak := rfl
@[simp] theorem withMem_fHps (m : List Host.Cell) : (s.withMem m).fHps = s.fHps := rfl
@[simp] theorem withMem_fAc (m : List Host.Cell) : (s.withMem m).fAc = s.fAc := rfl
@[simp] theorem withMem_conf (m : List Host.Cell) : (s.withMem m).conf = s.conf := rfl
@[simp] theorem withMem_pkBin (m : List Host.Cell) : (s.withMem m).pkBin = s.pkBin := rfl
@[simp] theorem withMem_hpsBin (m : List Host.Cell) : (s.withMem m).hpsBin = s.hpsBin := rfl
@[simp] theorem withMem_acLag (m : List Host.Cell) : (s.withMem m).acLag = s.acLag := rfl
@[simp] theorem withMem_pending (m : List Host.Cell) : (s.withMem m).pending = s.pending := rfl
@[simp] theorem withMem_mem (m : List Host.Cell) : (s.withMem m).mem = m := rfl
@[simp] theorem withMem_epoch (m : List Host.Cell) : (s.withMem m).epoch = s.epoch := rfl
@[simp] theorem withMem_draws (m : List Host.Cell) : (s.withMem m).draws = s.draws := rfl
@[simp] theorem withMem_turns (m : List Host.Cell) : (s.withMem m).turns = s.turns := rfl
@[simp] theorem withMem_reply (m : List Host.Cell) : (s.withMem m).reply = s.reply := rfl

/-! ## storeWords -/

@[simp] theorem storeWords_params (a : Nat) (vs : List Word) : (s.storeWords a vs).params = s.params := rfl
@[simp] theorem storeWords_ie (a : Nat) (vs : List Word) : (s.storeWords a vs).ie = s.ie := rfl
@[simp] theorem storeWords_done (a : Nat) (vs : List Word) : (s.storeWords a vs).done = s.done := rfl
@[simp] theorem storeWords_err (a : Nat) (vs : List Word) : (s.storeWords a vs).err = s.err := rfl
@[simp] theorem storeWords_haz (a : Nat) (vs : List Word) : (s.storeWords a vs).haz = s.haz := rfl
@[simp] theorem storeWords_errcode (a : Nat) (vs : List Word) : (s.storeWords a vs).errcode = s.errcode := rfl
@[simp] theorem storeWords_cmd (a : Nat) (vs : List Word) : (s.storeWords a vs).cmd = s.cmd := rfl
@[simp] theorem storeWords_len (a : Nat) (vs : List Word) : (s.storeWords a vs).len = s.len := rfl
@[simp] theorem storeWords_fs (a : Nat) (vs : List Word) : (s.storeWords a vs).fs = s.fs := rfl
@[simp] theorem storeWords_peakThr (a : Nat) (vs : List Word) : (s.storeWords a vs).peakThr = s.peakThr := rfl
@[simp] theorem storeWords_pcount (a : Nat) (vs : List Word) : (s.storeWords a vs).pcount = s.pcount := rfl
@[simp] theorem storeWords_fPeak (a : Nat) (vs : List Word) : (s.storeWords a vs).fPeak = s.fPeak := rfl
@[simp] theorem storeWords_fHps (a : Nat) (vs : List Word) : (s.storeWords a vs).fHps = s.fHps := rfl
@[simp] theorem storeWords_fAc (a : Nat) (vs : List Word) : (s.storeWords a vs).fAc = s.fAc := rfl
@[simp] theorem storeWords_conf (a : Nat) (vs : List Word) : (s.storeWords a vs).conf = s.conf := rfl
@[simp] theorem storeWords_pkBin (a : Nat) (vs : List Word) : (s.storeWords a vs).pkBin = s.pkBin := rfl
@[simp] theorem storeWords_hpsBin (a : Nat) (vs : List Word) : (s.storeWords a vs).hpsBin = s.hpsBin := rfl
@[simp] theorem storeWords_acLag (a : Nat) (vs : List Word) : (s.storeWords a vs).acLag = s.acLag := rfl
@[simp] theorem storeWords_pending (a : Nat) (vs : List Word) : (s.storeWords a vs).pending = s.pending := rfl
@[simp] theorem storeWords_mem (a : Nat) (vs : List Word) : (s.storeWords a vs).mem = Memory.store s.mem a (wordsBytes vs) := rfl
@[simp] theorem storeWords_epoch (a : Nat) (vs : List Word) : (s.storeWords a vs).epoch = s.epoch := rfl
@[simp] theorem storeWords_draws (a : Nat) (vs : List Word) : (s.storeWords a vs).draws = s.draws := rfl
@[simp] theorem storeWords_turns (a : Nat) (vs : List Word) : (s.storeWords a vs).turns = s.turns := rfl
@[simp] theorem storeWords_reply (a : Nat) (vs : List Word) : (s.storeWords a vs).reply = s.reply := rfl

/-! ## drawWords -/

@[simp] theorem drawWords_params (r : Nat × Nat) : (s.drawWords r).params = s.params := rfl
@[simp] theorem drawWords_ie (r : Nat × Nat) : (s.drawWords r).ie = s.ie := rfl
@[simp] theorem drawWords_done (r : Nat × Nat) : (s.drawWords r).done = s.done := rfl
@[simp] theorem drawWords_err (r : Nat × Nat) : (s.drawWords r).err = s.err := rfl
@[simp] theorem drawWords_haz (r : Nat × Nat) : (s.drawWords r).haz = s.haz := rfl
@[simp] theorem drawWords_errcode (r : Nat × Nat) : (s.drawWords r).errcode = s.errcode := rfl
@[simp] theorem drawWords_cmd (r : Nat × Nat) : (s.drawWords r).cmd = s.cmd := rfl
@[simp] theorem drawWords_len (r : Nat × Nat) : (s.drawWords r).len = s.len := rfl
@[simp] theorem drawWords_fs (r : Nat × Nat) : (s.drawWords r).fs = s.fs := rfl
@[simp] theorem drawWords_peakThr (r : Nat × Nat) : (s.drawWords r).peakThr = s.peakThr := rfl
@[simp] theorem drawWords_pcount (r : Nat × Nat) : (s.drawWords r).pcount = s.pcount := rfl
@[simp] theorem drawWords_fPeak (r : Nat × Nat) : (s.drawWords r).fPeak = s.fPeak := rfl
@[simp] theorem drawWords_fHps (r : Nat × Nat) : (s.drawWords r).fHps = s.fHps := rfl
@[simp] theorem drawWords_fAc (r : Nat × Nat) : (s.drawWords r).fAc = s.fAc := rfl
@[simp] theorem drawWords_conf (r : Nat × Nat) : (s.drawWords r).conf = s.conf := rfl
@[simp] theorem drawWords_pkBin (r : Nat × Nat) : (s.drawWords r).pkBin = s.pkBin := rfl
@[simp] theorem drawWords_hpsBin (r : Nat × Nat) : (s.drawWords r).hpsBin = s.hpsBin := rfl
@[simp] theorem drawWords_acLag (r : Nat × Nat) : (s.drawWords r).acLag = s.acLag := rfl
@[simp] theorem drawWords_pending (r : Nat × Nat) : (s.drawWords r).pending = s.pending := rfl
@[simp] theorem drawWords_mem (r : Nat × Nat) : (s.drawWords r).mem = Memory.store s.mem r.1 (wordsBytes ((List.range r.2).map fun t => Config.draw (s.draws + t))) := rfl
@[simp] theorem drawWords_epoch (r : Nat × Nat) : (s.drawWords r).epoch = s.epoch := rfl
@[simp] theorem drawWords_draws (r : Nat × Nat) : (s.drawWords r).draws = s.draws + r.2 := rfl
@[simp] theorem drawWords_turns (r : Nat × Nat) : (s.drawWords r).turns = s.turns := rfl
@[simp] theorem drawWords_reply (r : Nat × Nat) : (s.drawWords r).reply = s.reply := rfl

/-! ## raiseError -/

@[simp] theorem raiseError_params (e : ErrCode) : (raiseError e s).params = s.params := rfl
@[simp] theorem raiseError_ie (e : ErrCode) : (raiseError e s).ie = s.ie := rfl
@[simp] theorem raiseError_done (e : ErrCode) : (raiseError e s).done = s.done := rfl
@[simp] theorem raiseError_err (e : ErrCode) : (raiseError e s).err = true := rfl
@[simp] theorem raiseError_haz (e : ErrCode) : (raiseError e s).haz = s.haz := rfl
@[simp] theorem raiseError_errcode (e : ErrCode) : (raiseError e s).errcode = e := rfl
@[simp] theorem raiseError_cmd (e : ErrCode) : (raiseError e s).cmd = s.cmd := rfl
@[simp] theorem raiseError_len (e : ErrCode) : (raiseError e s).len = s.len := rfl
@[simp] theorem raiseError_fs (e : ErrCode) : (raiseError e s).fs = s.fs := rfl
@[simp] theorem raiseError_peakThr (e : ErrCode) : (raiseError e s).peakThr = s.peakThr := rfl
@[simp] theorem raiseError_pcount (e : ErrCode) : (raiseError e s).pcount = s.pcount := rfl
@[simp] theorem raiseError_fPeak (e : ErrCode) : (raiseError e s).fPeak = s.fPeak := rfl
@[simp] theorem raiseError_fHps (e : ErrCode) : (raiseError e s).fHps = s.fHps := rfl
@[simp] theorem raiseError_fAc (e : ErrCode) : (raiseError e s).fAc = s.fAc := rfl
@[simp] theorem raiseError_conf (e : ErrCode) : (raiseError e s).conf = s.conf := rfl
@[simp] theorem raiseError_pkBin (e : ErrCode) : (raiseError e s).pkBin = s.pkBin := rfl
@[simp] theorem raiseError_hpsBin (e : ErrCode) : (raiseError e s).hpsBin = s.hpsBin := rfl
@[simp] theorem raiseError_acLag (e : ErrCode) : (raiseError e s).acLag = s.acLag := rfl
@[simp] theorem raiseError_pending (e : ErrCode) : (raiseError e s).pending = s.pending := rfl
@[simp] theorem raiseError_mem (e : ErrCode) : (raiseError e s).mem = s.mem := rfl
@[simp] theorem raiseError_epoch (e : ErrCode) : (raiseError e s).epoch = s.epoch := rfl
@[simp] theorem raiseError_draws (e : ErrCode) : (raiseError e s).draws = s.draws := rfl
@[simp] theorem raiseError_turns (e : ErrCode) : (raiseError e s).turns = s.turns := rfl
@[simp] theorem raiseError_reply (e : ErrCode) : (raiseError e s).reply = s.reply := rfl

/-! ## acknowledge -/

@[simp] theorem acknowledge_params (v : Word) : (acknowledge v s).params = s.params := rfl
@[simp] theorem acknowledge_ie (v : Word) : (acknowledge v s).ie = s.ie := rfl
@[simp] theorem acknowledge_done (v : Word) : (acknowledge v s).done = (s.done && !v.getLsbD 1) := rfl
@[simp] theorem acknowledge_err (v : Word) : (acknowledge v s).err = (s.err && !v.getLsbD 2) := rfl
@[simp] theorem acknowledge_haz (v : Word) : (acknowledge v s).haz = (s.haz && !v.getLsbD 3) := rfl
@[simp] theorem acknowledge_errcode (v : Word) : (acknowledge v s).errcode = s.errcode := rfl
@[simp] theorem acknowledge_cmd (v : Word) : (acknowledge v s).cmd = s.cmd := rfl
@[simp] theorem acknowledge_len (v : Word) : (acknowledge v s).len = s.len := rfl
@[simp] theorem acknowledge_fs (v : Word) : (acknowledge v s).fs = s.fs := rfl
@[simp] theorem acknowledge_peakThr (v : Word) : (acknowledge v s).peakThr = s.peakThr := rfl
@[simp] theorem acknowledge_pcount (v : Word) : (acknowledge v s).pcount = s.pcount := rfl
@[simp] theorem acknowledge_fPeak (v : Word) : (acknowledge v s).fPeak = s.fPeak := rfl
@[simp] theorem acknowledge_fHps (v : Word) : (acknowledge v s).fHps = s.fHps := rfl
@[simp] theorem acknowledge_fAc (v : Word) : (acknowledge v s).fAc = s.fAc := rfl
@[simp] theorem acknowledge_conf (v : Word) : (acknowledge v s).conf = s.conf := rfl
@[simp] theorem acknowledge_pkBin (v : Word) : (acknowledge v s).pkBin = s.pkBin := rfl
@[simp] theorem acknowledge_hpsBin (v : Word) : (acknowledge v s).hpsBin = s.hpsBin := rfl
@[simp] theorem acknowledge_acLag (v : Word) : (acknowledge v s).acLag = s.acLag := rfl
@[simp] theorem acknowledge_pending (v : Word) : (acknowledge v s).pending = s.pending := rfl
@[simp] theorem acknowledge_mem (v : Word) : (acknowledge v s).mem = s.mem := rfl
@[simp] theorem acknowledge_epoch (v : Word) : (acknowledge v s).epoch = s.epoch := rfl
@[simp] theorem acknowledge_draws (v : Word) : (acknowledge v s).draws = s.draws := rfl
@[simp] theorem acknowledge_turns (v : Word) : (acknowledge v s).turns = s.turns := rfl
@[simp] theorem acknowledge_reply (v : Word) : (acknowledge v s).reply = s.reply := rfl

/-! ## setPeak -/

@[simp] theorem setPeak_params (f : F64) (b : Nat) : (s.setPeak f b).params = s.params := rfl
@[simp] theorem setPeak_ie (f : F64) (b : Nat) : (s.setPeak f b).ie = s.ie := rfl
@[simp] theorem setPeak_done (f : F64) (b : Nat) : (s.setPeak f b).done = s.done := rfl
@[simp] theorem setPeak_err (f : F64) (b : Nat) : (s.setPeak f b).err = s.err := rfl
@[simp] theorem setPeak_haz (f : F64) (b : Nat) : (s.setPeak f b).haz = s.haz := rfl
@[simp] theorem setPeak_errcode (f : F64) (b : Nat) : (s.setPeak f b).errcode = s.errcode := rfl
@[simp] theorem setPeak_cmd (f : F64) (b : Nat) : (s.setPeak f b).cmd = s.cmd := rfl
@[simp] theorem setPeak_len (f : F64) (b : Nat) : (s.setPeak f b).len = s.len := rfl
@[simp] theorem setPeak_fs (f : F64) (b : Nat) : (s.setPeak f b).fs = s.fs := rfl
@[simp] theorem setPeak_peakThr (f : F64) (b : Nat) : (s.setPeak f b).peakThr = s.peakThr := rfl
@[simp] theorem setPeak_pcount (f : F64) (b : Nat) : (s.setPeak f b).pcount = s.pcount := rfl
@[simp] theorem setPeak_fPeak (f : F64) (b : Nat) : (s.setPeak f b).fPeak = f := rfl
@[simp] theorem setPeak_fHps (f : F64) (b : Nat) : (s.setPeak f b).fHps = s.fHps := rfl
@[simp] theorem setPeak_fAc (f : F64) (b : Nat) : (s.setPeak f b).fAc = s.fAc := rfl
@[simp] theorem setPeak_conf (f : F64) (b : Nat) : (s.setPeak f b).conf = s.conf := rfl
@[simp] theorem setPeak_pkBin (f : F64) (b : Nat) : (s.setPeak f b).pkBin = BitVec.ofNat 32 b := rfl
@[simp] theorem setPeak_hpsBin (f : F64) (b : Nat) : (s.setPeak f b).hpsBin = s.hpsBin := rfl
@[simp] theorem setPeak_acLag (f : F64) (b : Nat) : (s.setPeak f b).acLag = s.acLag := rfl
@[simp] theorem setPeak_pending (f : F64) (b : Nat) : (s.setPeak f b).pending = s.pending := rfl
@[simp] theorem setPeak_mem (f : F64) (b : Nat) : (s.setPeak f b).mem = s.mem := rfl
@[simp] theorem setPeak_epoch (f : F64) (b : Nat) : (s.setPeak f b).epoch = s.epoch := rfl
@[simp] theorem setPeak_draws (f : F64) (b : Nat) : (s.setPeak f b).draws = s.draws := rfl
@[simp] theorem setPeak_turns (f : F64) (b : Nat) : (s.setPeak f b).turns = s.turns := rfl
@[simp] theorem setPeak_reply (f : F64) (b : Nat) : (s.setPeak f b).reply = s.reply := rfl

/-! ## setHps -/

@[simp] theorem setHps_params (f : F64) (b : Nat) : (s.setHps f b).params = s.params := rfl
@[simp] theorem setHps_ie (f : F64) (b : Nat) : (s.setHps f b).ie = s.ie := rfl
@[simp] theorem setHps_done (f : F64) (b : Nat) : (s.setHps f b).done = s.done := rfl
@[simp] theorem setHps_err (f : F64) (b : Nat) : (s.setHps f b).err = s.err := rfl
@[simp] theorem setHps_haz (f : F64) (b : Nat) : (s.setHps f b).haz = s.haz := rfl
@[simp] theorem setHps_errcode (f : F64) (b : Nat) : (s.setHps f b).errcode = s.errcode := rfl
@[simp] theorem setHps_cmd (f : F64) (b : Nat) : (s.setHps f b).cmd = s.cmd := rfl
@[simp] theorem setHps_len (f : F64) (b : Nat) : (s.setHps f b).len = s.len := rfl
@[simp] theorem setHps_fs (f : F64) (b : Nat) : (s.setHps f b).fs = s.fs := rfl
@[simp] theorem setHps_peakThr (f : F64) (b : Nat) : (s.setHps f b).peakThr = s.peakThr := rfl
@[simp] theorem setHps_pcount (f : F64) (b : Nat) : (s.setHps f b).pcount = s.pcount := rfl
@[simp] theorem setHps_fPeak (f : F64) (b : Nat) : (s.setHps f b).fPeak = s.fPeak := rfl
@[simp] theorem setHps_fHps (f : F64) (b : Nat) : (s.setHps f b).fHps = f := rfl
@[simp] theorem setHps_fAc (f : F64) (b : Nat) : (s.setHps f b).fAc = s.fAc := rfl
@[simp] theorem setHps_conf (f : F64) (b : Nat) : (s.setHps f b).conf = s.conf := rfl
@[simp] theorem setHps_pkBin (f : F64) (b : Nat) : (s.setHps f b).pkBin = s.pkBin := rfl
@[simp] theorem setHps_hpsBin (f : F64) (b : Nat) : (s.setHps f b).hpsBin = BitVec.ofNat 32 b := rfl
@[simp] theorem setHps_acLag (f : F64) (b : Nat) : (s.setHps f b).acLag = s.acLag := rfl
@[simp] theorem setHps_pending (f : F64) (b : Nat) : (s.setHps f b).pending = s.pending := rfl
@[simp] theorem setHps_mem (f : F64) (b : Nat) : (s.setHps f b).mem = s.mem := rfl
@[simp] theorem setHps_epoch (f : F64) (b : Nat) : (s.setHps f b).epoch = s.epoch := rfl
@[simp] theorem setHps_draws (f : F64) (b : Nat) : (s.setHps f b).draws = s.draws := rfl
@[simp] theorem setHps_turns (f : F64) (b : Nat) : (s.setHps f b).turns = s.turns := rfl
@[simp] theorem setHps_reply (f : F64) (b : Nat) : (s.setHps f b).reply = s.reply := rfl

/-! ## setAc -/

@[simp] theorem setAc_params (f : F64) (b : Nat) : (s.setAc f b).params = s.params := rfl
@[simp] theorem setAc_ie (f : F64) (b : Nat) : (s.setAc f b).ie = s.ie := rfl
@[simp] theorem setAc_done (f : F64) (b : Nat) : (s.setAc f b).done = s.done := rfl
@[simp] theorem setAc_err (f : F64) (b : Nat) : (s.setAc f b).err = s.err := rfl
@[simp] theorem setAc_haz (f : F64) (b : Nat) : (s.setAc f b).haz = s.haz := rfl
@[simp] theorem setAc_errcode (f : F64) (b : Nat) : (s.setAc f b).errcode = s.errcode := rfl
@[simp] theorem setAc_cmd (f : F64) (b : Nat) : (s.setAc f b).cmd = s.cmd := rfl
@[simp] theorem setAc_len (f : F64) (b : Nat) : (s.setAc f b).len = s.len := rfl
@[simp] theorem setAc_fs (f : F64) (b : Nat) : (s.setAc f b).fs = s.fs := rfl
@[simp] theorem setAc_peakThr (f : F64) (b : Nat) : (s.setAc f b).peakThr = s.peakThr := rfl
@[simp] theorem setAc_pcount (f : F64) (b : Nat) : (s.setAc f b).pcount = s.pcount := rfl
@[simp] theorem setAc_fPeak (f : F64) (b : Nat) : (s.setAc f b).fPeak = s.fPeak := rfl
@[simp] theorem setAc_fHps (f : F64) (b : Nat) : (s.setAc f b).fHps = s.fHps := rfl
@[simp] theorem setAc_fAc (f : F64) (b : Nat) : (s.setAc f b).fAc = f := rfl
@[simp] theorem setAc_conf (f : F64) (b : Nat) : (s.setAc f b).conf = s.conf := rfl
@[simp] theorem setAc_pkBin (f : F64) (b : Nat) : (s.setAc f b).pkBin = s.pkBin := rfl
@[simp] theorem setAc_hpsBin (f : F64) (b : Nat) : (s.setAc f b).hpsBin = s.hpsBin := rfl
@[simp] theorem setAc_acLag (f : F64) (b : Nat) : (s.setAc f b).acLag = BitVec.ofNat 32 b := rfl
@[simp] theorem setAc_pending (f : F64) (b : Nat) : (s.setAc f b).pending = s.pending := rfl
@[simp] theorem setAc_mem (f : F64) (b : Nat) : (s.setAc f b).mem = s.mem := rfl
@[simp] theorem setAc_epoch (f : F64) (b : Nat) : (s.setAc f b).epoch = s.epoch := rfl
@[simp] theorem setAc_draws (f : F64) (b : Nat) : (s.setAc f b).draws = s.draws := rfl
@[simp] theorem setAc_turns (f : F64) (b : Nat) : (s.setAc f b).turns = s.turns := rfl
@[simp] theorem setAc_reply (f : F64) (b : Nat) : (s.setAc f b).reply = s.reply := rfl

/-! ## setConf -/

@[simp] theorem setConf_params (f : F64) : (s.setConf f).params = s.params := rfl
@[simp] theorem setConf_ie (f : F64) : (s.setConf f).ie = s.ie := rfl
@[simp] theorem setConf_done (f : F64) : (s.setConf f).done = s.done := rfl
@[simp] theorem setConf_err (f : F64) : (s.setConf f).err = s.err := rfl
@[simp] theorem setConf_haz (f : F64) : (s.setConf f).haz = s.haz := rfl
@[simp] theorem setConf_errcode (f : F64) : (s.setConf f).errcode = s.errcode := rfl
@[simp] theorem setConf_cmd (f : F64) : (s.setConf f).cmd = s.cmd := rfl
@[simp] theorem setConf_len (f : F64) : (s.setConf f).len = s.len := rfl
@[simp] theorem setConf_fs (f : F64) : (s.setConf f).fs = s.fs := rfl
@[simp] theorem setConf_peakThr (f : F64) : (s.setConf f).peakThr = s.peakThr := rfl
@[simp] theorem setConf_pcount (f : F64) : (s.setConf f).pcount = s.pcount := rfl
@[simp] theorem setConf_fPeak (f : F64) : (s.setConf f).fPeak = s.fPeak := rfl
@[simp] theorem setConf_fHps (f : F64) : (s.setConf f).fHps = s.fHps := rfl
@[simp] theorem setConf_fAc (f : F64) : (s.setConf f).fAc = s.fAc := rfl
@[simp] theorem setConf_conf (f : F64) : (s.setConf f).conf = f := rfl
@[simp] theorem setConf_pkBin (f : F64) : (s.setConf f).pkBin = s.pkBin := rfl
@[simp] theorem setConf_hpsBin (f : F64) : (s.setConf f).hpsBin = s.hpsBin := rfl
@[simp] theorem setConf_acLag (f : F64) : (s.setConf f).acLag = s.acLag := rfl
@[simp] theorem setConf_pending (f : F64) : (s.setConf f).pending = s.pending := rfl
@[simp] theorem setConf_mem (f : F64) : (s.setConf f).mem = s.mem := rfl
@[simp] theorem setConf_epoch (f : F64) : (s.setConf f).epoch = s.epoch := rfl
@[simp] theorem setConf_draws (f : F64) : (s.setConf f).draws = s.draws := rfl
@[simp] theorem setConf_turns (f : F64) : (s.setConf f).turns = s.turns := rfl
@[simp] theorem setConf_reply (f : F64) : (s.setConf f).reply = s.reply := rfl

/-! ## setPcount -/

@[simp] theorem setPcount_params (n : Nat) : (s.setPcount n).params = s.params := rfl
@[simp] theorem setPcount_ie (n : Nat) : (s.setPcount n).ie = s.ie := rfl
@[simp] theorem setPcount_done (n : Nat) : (s.setPcount n).done = s.done := rfl
@[simp] theorem setPcount_err (n : Nat) : (s.setPcount n).err = s.err := rfl
@[simp] theorem setPcount_haz (n : Nat) : (s.setPcount n).haz = s.haz := rfl
@[simp] theorem setPcount_errcode (n : Nat) : (s.setPcount n).errcode = s.errcode := rfl
@[simp] theorem setPcount_cmd (n : Nat) : (s.setPcount n).cmd = s.cmd := rfl
@[simp] theorem setPcount_len (n : Nat) : (s.setPcount n).len = s.len := rfl
@[simp] theorem setPcount_fs (n : Nat) : (s.setPcount n).fs = s.fs := rfl
@[simp] theorem setPcount_peakThr (n : Nat) : (s.setPcount n).peakThr = s.peakThr := rfl
@[simp] theorem setPcount_pcount (n : Nat) : (s.setPcount n).pcount = BitVec.ofNat 8 n := rfl
@[simp] theorem setPcount_fPeak (n : Nat) : (s.setPcount n).fPeak = s.fPeak := rfl
@[simp] theorem setPcount_fHps (n : Nat) : (s.setPcount n).fHps = s.fHps := rfl
@[simp] theorem setPcount_fAc (n : Nat) : (s.setPcount n).fAc = s.fAc := rfl
@[simp] theorem setPcount_conf (n : Nat) : (s.setPcount n).conf = s.conf := rfl
@[simp] theorem setPcount_pkBin (n : Nat) : (s.setPcount n).pkBin = s.pkBin := rfl
@[simp] theorem setPcount_hpsBin (n : Nat) : (s.setPcount n).hpsBin = s.hpsBin := rfl
@[simp] theorem setPcount_acLag (n : Nat) : (s.setPcount n).acLag = s.acLag := rfl
@[simp] theorem setPcount_pending (n : Nat) : (s.setPcount n).pending = s.pending := rfl
@[simp] theorem setPcount_mem (n : Nat) : (s.setPcount n).mem = s.mem := rfl
@[simp] theorem setPcount_epoch (n : Nat) : (s.setPcount n).epoch = s.epoch := rfl
@[simp] theorem setPcount_draws (n : Nat) : (s.setPcount n).draws = s.draws := rfl
@[simp] theorem setPcount_turns (n : Nat) : (s.setPcount n).turns = s.turns := rfl
@[simp] theorem setPcount_reply (n : Nat) : (s.setPcount n).reply = s.reply := rfl

/-! ## accept -/

@[simp] theorem accept_params (w : CmdWord) : (accept w s).params = s.params := rfl
@[simp] theorem accept_ie (w : CmdWord) : (accept w s).ie = s.ie := rfl
@[simp] theorem accept_done (w : CmdWord) : (accept w s).done = s.done := rfl
@[simp] theorem accept_err (w : CmdWord) : (accept w s).err = false := rfl
@[simp] theorem accept_haz (w : CmdWord) : (accept w s).haz = s.haz := rfl
@[simp] theorem accept_errcode (w : CmdWord) : (accept w s).errcode = .none := rfl
@[simp] theorem accept_cmd (w : CmdWord) : (accept w s).cmd = s.cmd := rfl
@[simp] theorem accept_len (w : CmdWord) : (accept w s).len = s.len := rfl
@[simp] theorem accept_fs (w : CmdWord) : (accept w s).fs = s.fs := rfl
@[simp] theorem accept_peakThr (w : CmdWord) : (accept w s).peakThr = s.peakThr := rfl
@[simp] theorem accept_pcount (w : CmdWord) : (accept w s).pcount = s.pcount := rfl
@[simp] theorem accept_fPeak (w : CmdWord) : (accept w s).fPeak = s.fPeak := rfl
@[simp] theorem accept_fHps (w : CmdWord) : (accept w s).fHps = s.fHps := rfl
@[simp] theorem accept_fAc (w : CmdWord) : (accept w s).fAc = s.fAc := rfl
@[simp] theorem accept_conf (w : CmdWord) : (accept w s).conf = s.conf := rfl
@[simp] theorem accept_pkBin (w : CmdWord) : (accept w s).pkBin = s.pkBin := rfl
@[simp] theorem accept_hpsBin (w : CmdWord) : (accept w s).hpsBin = s.hpsBin := rfl
@[simp] theorem accept_acLag (w : CmdWord) : (accept w s).acLag = s.acLag := rfl
@[simp] theorem accept_pending (w : CmdWord) : (accept w s).pending = some ⟨w, s.len, s.fs⟩ := rfl
@[simp] theorem accept_mem (w : CmdWord) : (accept w s).mem = s.mem := rfl
@[simp] theorem accept_epoch (w : CmdWord) : (accept w s).epoch = s.epoch := rfl
@[simp] theorem accept_draws (w : CmdWord) : (accept w s).draws = s.draws := rfl
@[simp] theorem accept_turns (w : CmdWord) : (accept w s).turns = s.turns := rfl
@[simp] theorem accept_reply (w : CmdWord) : (accept w s).reply = s.reply := rfl

/-! ## complete -/

@[simp] theorem complete_params : s.complete.params = s.params := rfl
@[simp] theorem complete_ie : s.complete.ie = s.ie := rfl
@[simp] theorem complete_done : s.complete.done = true := rfl
@[simp] theorem complete_err : s.complete.err = s.err := rfl
@[simp] theorem complete_haz : s.complete.haz = s.haz := rfl
@[simp] theorem complete_errcode : s.complete.errcode = s.errcode := rfl
@[simp] theorem complete_cmd : s.complete.cmd = s.cmd := rfl
@[simp] theorem complete_len : s.complete.len = s.len := rfl
@[simp] theorem complete_fs : s.complete.fs = s.fs := rfl
@[simp] theorem complete_peakThr : s.complete.peakThr = s.peakThr := rfl
@[simp] theorem complete_pcount : s.complete.pcount = s.pcount := rfl
@[simp] theorem complete_fPeak : s.complete.fPeak = s.fPeak := rfl
@[simp] theorem complete_fHps : s.complete.fHps = s.fHps := rfl
@[simp] theorem complete_fAc : s.complete.fAc = s.fAc := rfl
@[simp] theorem complete_conf : s.complete.conf = s.conf := rfl
@[simp] theorem complete_pkBin : s.complete.pkBin = s.pkBin := rfl
@[simp] theorem complete_hpsBin : s.complete.hpsBin = s.hpsBin := rfl
@[simp] theorem complete_acLag : s.complete.acLag = s.acLag := rfl
@[simp] theorem complete_pending : s.complete.pending = none := rfl
@[simp] theorem complete_mem : s.complete.mem = s.mem := rfl
@[simp] theorem complete_epoch : s.complete.epoch = s.epoch := rfl
@[simp] theorem complete_draws : s.complete.draws = s.draws := rfl
@[simp] theorem complete_turns : s.complete.turns = s.turns := rfl
@[simp] theorem complete_reply : s.complete.reply = s.reply := rfl

/-! ## hazard -/

@[simp] theorem hazard_params : s.hazard.params = s.params := rfl
@[simp] theorem hazard_ie : s.hazard.ie = s.ie := rfl
@[simp] theorem hazard_done : s.hazard.done = s.done := rfl
@[simp] theorem hazard_err : s.hazard.err = s.err := rfl
@[simp] theorem hazard_haz : s.hazard.haz = true := rfl
@[simp] theorem hazard_errcode : s.hazard.errcode = s.errcode := rfl
@[simp] theorem hazard_cmd : s.hazard.cmd = s.cmd := rfl
@[simp] theorem hazard_len : s.hazard.len = s.len := rfl
@[simp] theorem hazard_fs : s.hazard.fs = s.fs := rfl
@[simp] theorem hazard_peakThr : s.hazard.peakThr = s.peakThr := rfl
@[simp] theorem hazard_pcount : s.hazard.pcount = s.pcount := rfl
@[simp] theorem hazard_fPeak : s.hazard.fPeak = s.fPeak := rfl
@[simp] theorem hazard_fHps : s.hazard.fHps = s.fHps := rfl
@[simp] theorem hazard_fAc : s.hazard.fAc = s.fAc := rfl
@[simp] theorem hazard_conf : s.hazard.conf = s.conf := rfl
@[simp] theorem hazard_pkBin : s.hazard.pkBin = s.pkBin := rfl
@[simp] theorem hazard_hpsBin : s.hazard.hpsBin = s.hpsBin := rfl
@[simp] theorem hazard_acLag : s.hazard.acLag = s.acLag := rfl
@[simp] theorem hazard_pending : s.hazard.pending = s.pending := rfl
@[simp] theorem hazard_mem : s.hazard.mem = s.mem := rfl
@[simp] theorem hazard_epoch : s.hazard.epoch = s.epoch := rfl
@[simp] theorem hazard_draws : s.hazard.draws = s.draws := rfl
@[simp] theorem hazard_turns : s.hazard.turns = s.turns := rfl
@[simp] theorem hazard_reply : s.hazard.reply = s.reply := rfl

/-! ## answer -/

@[simp] theorem answer_params (r : Reply) : (s.answer r).params = s.params := rfl
@[simp] theorem answer_ie (r : Reply) : (s.answer r).ie = s.ie := rfl
@[simp] theorem answer_done (r : Reply) : (s.answer r).done = s.done := rfl
@[simp] theorem answer_err (r : Reply) : (s.answer r).err = s.err := rfl
@[simp] theorem answer_haz (r : Reply) : (s.answer r).haz = s.haz := rfl
@[simp] theorem answer_errcode (r : Reply) : (s.answer r).errcode = s.errcode := rfl
@[simp] theorem answer_cmd (r : Reply) : (s.answer r).cmd = s.cmd := rfl
@[simp] theorem answer_len (r : Reply) : (s.answer r).len = s.len := rfl
@[simp] theorem answer_fs (r : Reply) : (s.answer r).fs = s.fs := rfl
@[simp] theorem answer_peakThr (r : Reply) : (s.answer r).peakThr = s.peakThr := rfl
@[simp] theorem answer_pcount (r : Reply) : (s.answer r).pcount = s.pcount := rfl
@[simp] theorem answer_fPeak (r : Reply) : (s.answer r).fPeak = s.fPeak := rfl
@[simp] theorem answer_fHps (r : Reply) : (s.answer r).fHps = s.fHps := rfl
@[simp] theorem answer_fAc (r : Reply) : (s.answer r).fAc = s.fAc := rfl
@[simp] theorem answer_conf (r : Reply) : (s.answer r).conf = s.conf := rfl
@[simp] theorem answer_pkBin (r : Reply) : (s.answer r).pkBin = s.pkBin := rfl
@[simp] theorem answer_hpsBin (r : Reply) : (s.answer r).hpsBin = s.hpsBin := rfl
@[simp] theorem answer_acLag (r : Reply) : (s.answer r).acLag = s.acLag := rfl
@[simp] theorem answer_pending (r : Reply) : (s.answer r).pending = s.pending := rfl
@[simp] theorem answer_mem (r : Reply) : (s.answer r).mem = s.mem := rfl
@[simp] theorem answer_epoch (r : Reply) : (s.answer r).epoch = s.epoch := rfl
@[simp] theorem answer_draws (r : Reply) : (s.answer r).draws = s.draws := rfl
@[simp] theorem answer_turns (r : Reply) : (s.answer r).turns = s.turns := rfl
@[simp] theorem answer_reply (r : Reply) : (s.answer r).reply = some r := rfl

/-! ## storeC -/

@[simp] theorem storeC_params (b : CBuf) (xs : List Cplx) : (s.storeC b xs).params = s.params := rfl
@[simp] theorem storeC_ie (b : CBuf) (xs : List Cplx) : (s.storeC b xs).ie = s.ie := rfl
@[simp] theorem storeC_done (b : CBuf) (xs : List Cplx) : (s.storeC b xs).done = s.done := rfl
@[simp] theorem storeC_err (b : CBuf) (xs : List Cplx) : (s.storeC b xs).err = s.err := rfl
@[simp] theorem storeC_haz (b : CBuf) (xs : List Cplx) : (s.storeC b xs).haz = s.haz := rfl
@[simp] theorem storeC_errcode (b : CBuf) (xs : List Cplx) : (s.storeC b xs).errcode = s.errcode := rfl
@[simp] theorem storeC_cmd (b : CBuf) (xs : List Cplx) : (s.storeC b xs).cmd = s.cmd := rfl
@[simp] theorem storeC_len (b : CBuf) (xs : List Cplx) : (s.storeC b xs).len = s.len := rfl
@[simp] theorem storeC_fs (b : CBuf) (xs : List Cplx) : (s.storeC b xs).fs = s.fs := rfl
@[simp] theorem storeC_peakThr (b : CBuf) (xs : List Cplx) : (s.storeC b xs).peakThr = s.peakThr := rfl
@[simp] theorem storeC_pcount (b : CBuf) (xs : List Cplx) : (s.storeC b xs).pcount = s.pcount := rfl
@[simp] theorem storeC_fPeak (b : CBuf) (xs : List Cplx) : (s.storeC b xs).fPeak = s.fPeak := rfl
@[simp] theorem storeC_fHps (b : CBuf) (xs : List Cplx) : (s.storeC b xs).fHps = s.fHps := rfl
@[simp] theorem storeC_fAc (b : CBuf) (xs : List Cplx) : (s.storeC b xs).fAc = s.fAc := rfl
@[simp] theorem storeC_conf (b : CBuf) (xs : List Cplx) : (s.storeC b xs).conf = s.conf := rfl
@[simp] theorem storeC_pkBin (b : CBuf) (xs : List Cplx) : (s.storeC b xs).pkBin = s.pkBin := rfl
@[simp] theorem storeC_hpsBin (b : CBuf) (xs : List Cplx) : (s.storeC b xs).hpsBin = s.hpsBin := rfl
@[simp] theorem storeC_acLag (b : CBuf) (xs : List Cplx) : (s.storeC b xs).acLag = s.acLag := rfl
@[simp] theorem storeC_pending (b : CBuf) (xs : List Cplx) : (s.storeC b xs).pending = s.pending := rfl
@[simp] theorem storeC_mem (b : CBuf) (xs : List Cplx) : (s.storeC b xs).mem = Memory.store s.mem (cAddr b 0) (wordsBytes (cplxWords xs)) := rfl
@[simp] theorem storeC_epoch (b : CBuf) (xs : List Cplx) : (s.storeC b xs).epoch = s.epoch := rfl
@[simp] theorem storeC_draws (b : CBuf) (xs : List Cplx) : (s.storeC b xs).draws = s.draws := rfl
@[simp] theorem storeC_turns (b : CBuf) (xs : List Cplx) : (s.storeC b xs).turns = s.turns := rfl
@[simp] theorem storeC_reply (b : CBuf) (xs : List Cplx) : (s.storeC b xs).reply = s.reply := rfl

/-! ## storeR -/

@[simp] theorem storeR_params (b : RBuf) (xs : List F64) : (s.storeR b xs).params = s.params := rfl
@[simp] theorem storeR_ie (b : RBuf) (xs : List F64) : (s.storeR b xs).ie = s.ie := rfl
@[simp] theorem storeR_done (b : RBuf) (xs : List F64) : (s.storeR b xs).done = s.done := rfl
@[simp] theorem storeR_err (b : RBuf) (xs : List F64) : (s.storeR b xs).err = s.err := rfl
@[simp] theorem storeR_haz (b : RBuf) (xs : List F64) : (s.storeR b xs).haz = s.haz := rfl
@[simp] theorem storeR_errcode (b : RBuf) (xs : List F64) : (s.storeR b xs).errcode = s.errcode := rfl
@[simp] theorem storeR_cmd (b : RBuf) (xs : List F64) : (s.storeR b xs).cmd = s.cmd := rfl
@[simp] theorem storeR_len (b : RBuf) (xs : List F64) : (s.storeR b xs).len = s.len := rfl
@[simp] theorem storeR_fs (b : RBuf) (xs : List F64) : (s.storeR b xs).fs = s.fs := rfl
@[simp] theorem storeR_peakThr (b : RBuf) (xs : List F64) : (s.storeR b xs).peakThr = s.peakThr := rfl
@[simp] theorem storeR_pcount (b : RBuf) (xs : List F64) : (s.storeR b xs).pcount = s.pcount := rfl
@[simp] theorem storeR_fPeak (b : RBuf) (xs : List F64) : (s.storeR b xs).fPeak = s.fPeak := rfl
@[simp] theorem storeR_fHps (b : RBuf) (xs : List F64) : (s.storeR b xs).fHps = s.fHps := rfl
@[simp] theorem storeR_fAc (b : RBuf) (xs : List F64) : (s.storeR b xs).fAc = s.fAc := rfl
@[simp] theorem storeR_conf (b : RBuf) (xs : List F64) : (s.storeR b xs).conf = s.conf := rfl
@[simp] theorem storeR_pkBin (b : RBuf) (xs : List F64) : (s.storeR b xs).pkBin = s.pkBin := rfl
@[simp] theorem storeR_hpsBin (b : RBuf) (xs : List F64) : (s.storeR b xs).hpsBin = s.hpsBin := rfl
@[simp] theorem storeR_acLag (b : RBuf) (xs : List F64) : (s.storeR b xs).acLag = s.acLag := rfl
@[simp] theorem storeR_pending (b : RBuf) (xs : List F64) : (s.storeR b xs).pending = s.pending := rfl
@[simp] theorem storeR_mem (b : RBuf) (xs : List F64) : (s.storeR b xs).mem = Memory.store s.mem (rAddr b 0) (wordsBytes xs) := rfl
@[simp] theorem storeR_epoch (b : RBuf) (xs : List F64) : (s.storeR b xs).epoch = s.epoch := rfl
@[simp] theorem storeR_draws (b : RBuf) (xs : List F64) : (s.storeR b xs).draws = s.draws := rfl
@[simp] theorem storeR_turns (b : RBuf) (xs : List F64) : (s.storeR b xs).turns = s.turns := rfl
@[simp] theorem storeR_reply (b : RBuf) (xs : List F64) : (s.storeR b xs).reply = s.reply := rfl

/-! ## storePeaks -/

@[simp] theorem storePeaks_params (j : Nat) (ps : List Peak) : (s.storePeaks j ps).params = s.params := by
  induction ps generalizing s j with
  | nil => rfl
  | cons p ps ih => exact ih _ _

@[simp] theorem storePeaks_ie (j : Nat) (ps : List Peak) : (s.storePeaks j ps).ie = s.ie := by
  induction ps generalizing s j with
  | nil => rfl
  | cons p ps ih => exact ih _ _
@[simp] theorem storePeaks_done (j : Nat) (ps : List Peak) : (s.storePeaks j ps).done = s.done := by
  induction ps generalizing s j with
  | nil => rfl
  | cons p ps ih => exact ih _ _
@[simp] theorem storePeaks_err (j : Nat) (ps : List Peak) : (s.storePeaks j ps).err = s.err := by
  induction ps generalizing s j with
  | nil => rfl
  | cons p ps ih => exact ih _ _
@[simp] theorem storePeaks_haz (j : Nat) (ps : List Peak) : (s.storePeaks j ps).haz = s.haz := by
  induction ps generalizing s j with
  | nil => rfl
  | cons p ps ih => exact ih _ _
@[simp] theorem storePeaks_errcode (j : Nat) (ps : List Peak) : (s.storePeaks j ps).errcode = s.errcode := by
  induction ps generalizing s j with
  | nil => rfl
  | cons p ps ih => exact ih _ _
@[simp] theorem storePeaks_cmd (j : Nat) (ps : List Peak) : (s.storePeaks j ps).cmd = s.cmd := by
  induction ps generalizing s j with
  | nil => rfl
  | cons p ps ih => exact ih _ _
@[simp] theorem storePeaks_len (j : Nat) (ps : List Peak) : (s.storePeaks j ps).len = s.len := by
  induction ps generalizing s j with
  | nil => rfl
  | cons p ps ih => exact ih _ _
@[simp] theorem storePeaks_fs (j : Nat) (ps : List Peak) : (s.storePeaks j ps).fs = s.fs := by
  induction ps generalizing s j with
  | nil => rfl
  | cons p ps ih => exact ih _ _
@[simp] theorem storePeaks_peakThr (j : Nat) (ps : List Peak) : (s.storePeaks j ps).peakThr = s.peakThr := by
  induction ps generalizing s j with
  | nil => rfl
  | cons p ps ih => exact ih _ _
@[simp] theorem storePeaks_pcount (j : Nat) (ps : List Peak) : (s.storePeaks j ps).pcount = s.pcount := by
  induction ps generalizing s j with
  | nil => rfl
  | cons p ps ih => exact ih _ _
@[simp] theorem storePeaks_fPeak (j : Nat) (ps : List Peak) : (s.storePeaks j ps).fPeak = s.fPeak := by
  induction ps generalizing s j with
  | nil => rfl
  | cons p ps ih => exact ih _ _
@[simp] theorem storePeaks_fHps (j : Nat) (ps : List Peak) : (s.storePeaks j ps).fHps = s.fHps := by
  induction ps generalizing s j with
  | nil => rfl
  | cons p ps ih => exact ih _ _
@[simp] theorem storePeaks_fAc (j : Nat) (ps : List Peak) : (s.storePeaks j ps).fAc = s.fAc := by
  induction ps generalizing s j with
  | nil => rfl
  | cons p ps ih => exact ih _ _
@[simp] theorem storePeaks_conf (j : Nat) (ps : List Peak) : (s.storePeaks j ps).conf = s.conf := by
  induction ps generalizing s j with
  | nil => rfl
  | cons p ps ih => exact ih _ _
@[simp] theorem storePeaks_pkBin (j : Nat) (ps : List Peak) : (s.storePeaks j ps).pkBin = s.pkBin := by
  induction ps generalizing s j with
  | nil => rfl
  | cons p ps ih => exact ih _ _
@[simp] theorem storePeaks_hpsBin (j : Nat) (ps : List Peak) : (s.storePeaks j ps).hpsBin = s.hpsBin := by
  induction ps generalizing s j with
  | nil => rfl
  | cons p ps ih => exact ih _ _
@[simp] theorem storePeaks_acLag (j : Nat) (ps : List Peak) : (s.storePeaks j ps).acLag = s.acLag := by
  induction ps generalizing s j with
  | nil => rfl
  | cons p ps ih => exact ih _ _
@[simp] theorem storePeaks_pending (j : Nat) (ps : List Peak) : (s.storePeaks j ps).pending = s.pending := by
  induction ps generalizing s j with
  | nil => rfl
  | cons p ps ih => exact ih _ _
@[simp] theorem storePeaks_epoch (j : Nat) (ps : List Peak) : (s.storePeaks j ps).epoch = s.epoch := by
  induction ps generalizing s j with
  | nil => rfl
  | cons p ps ih => exact ih _ _
@[simp] theorem storePeaks_draws (j : Nat) (ps : List Peak) : (s.storePeaks j ps).draws = s.draws := by
  induction ps generalizing s j with
  | nil => rfl
  | cons p ps ih => exact ih _ _
@[simp] theorem storePeaks_turns (j : Nat) (ps : List Peak) : (s.storePeaks j ps).turns = s.turns := by
  induction ps generalizing s j with
  | nil => rfl
  | cons p ps ih => exact ih _ _
@[simp] theorem storePeaks_reply (j : Nat) (ps : List Peak) : (s.storePeaks j ps).reply = s.reply := by
  induction ps generalizing s j with
  | nil => rfl
  | cons p ps ih => exact ih _ _

/-! ## scramble: only memory and the count of drawn values change -/

@[simp] theorem foldl_drawWords_params (rs : List (Nat × Nat)) : (rs.foldl State.drawWords s).params = s.params := by
  induction rs generalizing s with
  | nil => rfl
  | cons r rs ih => exact ih _

@[simp] theorem foldl_drawWords_ie (rs : List (Nat × Nat)) : (rs.foldl State.drawWords s).ie = s.ie := by
  induction rs generalizing s with
  | nil => rfl
  | cons r rs ih => exact ih _
@[simp] theorem scramble_params : s.scramble.params = s.params := by
  unfold State.scramble
  split
  · rfl
  · split <;> simp
@[simp] theorem scramble_ie : s.scramble.ie = s.ie := by
  unfold State.scramble
  split
  · rfl
  · split <;> simp
@[simp] theorem foldl_drawWords_done (rs : List (Nat × Nat)) : (rs.foldl State.drawWords s).done = s.done := by
  induction rs generalizing s with
  | nil => rfl
  | cons r rs ih => exact ih _
@[simp] theorem scramble_done : s.scramble.done = s.done := by
  unfold State.scramble
  split
  · rfl
  · split <;> simp
@[simp] theorem foldl_drawWords_err (rs : List (Nat × Nat)) : (rs.foldl State.drawWords s).err = s.err := by
  induction rs generalizing s with
  | nil => rfl
  | cons r rs ih => exact ih _
@[simp] theorem scramble_err : s.scramble.err = s.err := by
  unfold State.scramble
  split
  · rfl
  · split <;> simp
@[simp] theorem foldl_drawWords_haz (rs : List (Nat × Nat)) : (rs.foldl State.drawWords s).haz = s.haz := by
  induction rs generalizing s with
  | nil => rfl
  | cons r rs ih => exact ih _
@[simp] theorem scramble_haz : s.scramble.haz = s.haz := by
  unfold State.scramble
  split
  · rfl
  · split <;> simp
@[simp] theorem foldl_drawWords_errcode (rs : List (Nat × Nat)) : (rs.foldl State.drawWords s).errcode = s.errcode := by
  induction rs generalizing s with
  | nil => rfl
  | cons r rs ih => exact ih _
@[simp] theorem scramble_errcode : s.scramble.errcode = s.errcode := by
  unfold State.scramble
  split
  · rfl
  · split <;> simp
@[simp] theorem foldl_drawWords_cmd (rs : List (Nat × Nat)) : (rs.foldl State.drawWords s).cmd = s.cmd := by
  induction rs generalizing s with
  | nil => rfl
  | cons r rs ih => exact ih _
@[simp] theorem scramble_cmd : s.scramble.cmd = s.cmd := by
  unfold State.scramble
  split
  · rfl
  · split <;> simp
@[simp] theorem foldl_drawWords_len (rs : List (Nat × Nat)) : (rs.foldl State.drawWords s).len = s.len := by
  induction rs generalizing s with
  | nil => rfl
  | cons r rs ih => exact ih _
@[simp] theorem scramble_len : s.scramble.len = s.len := by
  unfold State.scramble
  split
  · rfl
  · split <;> simp
@[simp] theorem foldl_drawWords_fs (rs : List (Nat × Nat)) : (rs.foldl State.drawWords s).fs = s.fs := by
  induction rs generalizing s with
  | nil => rfl
  | cons r rs ih => exact ih _
@[simp] theorem scramble_fs : s.scramble.fs = s.fs := by
  unfold State.scramble
  split
  · rfl
  · split <;> simp
@[simp] theorem foldl_drawWords_peakThr (rs : List (Nat × Nat)) : (rs.foldl State.drawWords s).peakThr = s.peakThr := by
  induction rs generalizing s with
  | nil => rfl
  | cons r rs ih => exact ih _
@[simp] theorem scramble_peakThr : s.scramble.peakThr = s.peakThr := by
  unfold State.scramble
  split
  · rfl
  · split <;> simp
@[simp] theorem foldl_drawWords_pcount (rs : List (Nat × Nat)) : (rs.foldl State.drawWords s).pcount = s.pcount := by
  induction rs generalizing s with
  | nil => rfl
  | cons r rs ih => exact ih _
@[simp] theorem scramble_pcount : s.scramble.pcount = s.pcount := by
  unfold State.scramble
  split
  · rfl
  · split <;> simp
@[simp] theorem foldl_drawWords_fPeak (rs : List (Nat × Nat)) : (rs.foldl State.drawWords s).fPeak = s.fPeak := by
  induction rs generalizing s with
  | nil => rfl
  | cons r rs ih => exact ih _
@[simp] theorem scramble_fPeak : s.scramble.fPeak = s.fPeak := by
  unfold State.scramble
  split
  · rfl
  · split <;> simp
@[simp] theorem foldl_drawWords_fHps (rs : List (Nat × Nat)) : (rs.foldl State.drawWords s).fHps = s.fHps := by
  induction rs generalizing s with
  | nil => rfl
  | cons r rs ih => exact ih _
@[simp] theorem scramble_fHps : s.scramble.fHps = s.fHps := by
  unfold State.scramble
  split
  · rfl
  · split <;> simp
@[simp] theorem foldl_drawWords_fAc (rs : List (Nat × Nat)) : (rs.foldl State.drawWords s).fAc = s.fAc := by
  induction rs generalizing s with
  | nil => rfl
  | cons r rs ih => exact ih _
@[simp] theorem scramble_fAc : s.scramble.fAc = s.fAc := by
  unfold State.scramble
  split
  · rfl
  · split <;> simp
@[simp] theorem foldl_drawWords_conf (rs : List (Nat × Nat)) : (rs.foldl State.drawWords s).conf = s.conf := by
  induction rs generalizing s with
  | nil => rfl
  | cons r rs ih => exact ih _
@[simp] theorem scramble_conf : s.scramble.conf = s.conf := by
  unfold State.scramble
  split
  · rfl
  · split <;> simp
@[simp] theorem foldl_drawWords_pkBin (rs : List (Nat × Nat)) : (rs.foldl State.drawWords s).pkBin = s.pkBin := by
  induction rs generalizing s with
  | nil => rfl
  | cons r rs ih => exact ih _
@[simp] theorem scramble_pkBin : s.scramble.pkBin = s.pkBin := by
  unfold State.scramble
  split
  · rfl
  · split <;> simp
@[simp] theorem foldl_drawWords_hpsBin (rs : List (Nat × Nat)) : (rs.foldl State.drawWords s).hpsBin = s.hpsBin := by
  induction rs generalizing s with
  | nil => rfl
  | cons r rs ih => exact ih _
@[simp] theorem scramble_hpsBin : s.scramble.hpsBin = s.hpsBin := by
  unfold State.scramble
  split
  · rfl
  · split <;> simp
@[simp] theorem foldl_drawWords_acLag (rs : List (Nat × Nat)) : (rs.foldl State.drawWords s).acLag = s.acLag := by
  induction rs generalizing s with
  | nil => rfl
  | cons r rs ih => exact ih _
@[simp] theorem scramble_acLag : s.scramble.acLag = s.acLag := by
  unfold State.scramble
  split
  · rfl
  · split <;> simp
@[simp] theorem foldl_drawWords_pending (rs : List (Nat × Nat)) : (rs.foldl State.drawWords s).pending = s.pending := by
  induction rs generalizing s with
  | nil => rfl
  | cons r rs ih => exact ih _
@[simp] theorem scramble_pending : s.scramble.pending = s.pending := by
  unfold State.scramble
  split
  · rfl
  · split <;> simp
@[simp] theorem foldl_drawWords_epoch (rs : List (Nat × Nat)) : (rs.foldl State.drawWords s).epoch = s.epoch := by
  induction rs generalizing s with
  | nil => rfl
  | cons r rs ih => exact ih _
@[simp] theorem scramble_epoch : s.scramble.epoch = s.epoch := by
  unfold State.scramble
  split
  · rfl
  · split <;> simp
@[simp] theorem foldl_drawWords_turns (rs : List (Nat × Nat)) : (rs.foldl State.drawWords s).turns = s.turns := by
  induction rs generalizing s with
  | nil => rfl
  | cons r rs ih => exact ih _
@[simp] theorem scramble_turns : s.scramble.turns = s.turns := by
  unfold State.scramble
  split
  · rfl
  · split <;> simp
@[simp] theorem foldl_drawWords_reply (rs : List (Nat × Nat)) : (rs.foldl State.drawWords s).reply = s.reply := by
  induction rs generalizing s with
  | nil => rfl
  | cons r rs ih => exact ih _
@[simp] theorem scramble_reply : s.scramble.reply = s.reply := by
  unfold State.scramble
  split
  · rfl
  · split <;> simp

/-! ## Derived reads -/

@[simp] theorem withMem_busy (m : List Host.Cell) : (s.withMem m).busy = s.busy := rfl
@[simp] theorem storeWords_busy (a : Nat) (vs : List Word) : (s.storeWords a vs).busy = s.busy := rfl
@[simp] theorem hazard_busy : s.hazard.busy = s.busy := rfl
@[simp] theorem answer_busy (r : Reply) : (s.answer r).busy = s.busy := rfl
@[simp] theorem complete_busy : s.complete.busy = false := rfl
@[simp] theorem complete_byteAt (x : Nat) : s.complete.byteAt x = s.byteAt x := rfl
@[simp] theorem complete_wordAt (x : Nat) : s.complete.wordAt x = s.wordAt x := rfl
@[simp] theorem answer_byteAt (r : Reply) (x : Nat) : (s.answer r).byteAt x = s.byteAt x := rfl
@[simp] theorem answer_wordAt (r : Reply) (x : Nat) : (s.answer r).wordAt x = s.wordAt x := rfl
@[simp] theorem hazard_byteAt (x : Nat) : s.hazard.byteAt x = s.byteAt x := rfl
@[simp] theorem hazard_wordAt (x : Nat) : s.hazard.wordAt x = s.wordAt x := rfl
@[simp] theorem setPeak_byteAt (f : F64) (b : Nat) (x : Nat) : (s.setPeak f b).byteAt x = s.byteAt x := rfl
@[simp] theorem setPeak_wordAt (f : F64) (b : Nat) (x : Nat) : (s.setPeak f b).wordAt x = s.wordAt x := rfl
@[simp] theorem setHps_byteAt (f : F64) (b : Nat) (x : Nat) : (s.setHps f b).byteAt x = s.byteAt x := rfl
@[simp] theorem setHps_wordAt (f : F64) (b : Nat) (x : Nat) : (s.setHps f b).wordAt x = s.wordAt x := rfl
@[simp] theorem setAc_byteAt (f : F64) (b : Nat) (x : Nat) : (s.setAc f b).byteAt x = s.byteAt x := rfl
@[simp] theorem setAc_wordAt (f : F64) (b : Nat) (x : Nat) : (s.setAc f b).wordAt x = s.wordAt x := rfl
@[simp] theorem setConf_byteAt (f : F64) (x : Nat) : (s.setConf f).byteAt x = s.byteAt x := rfl
@[simp] theorem setConf_wordAt (f : F64) (x : Nat) : (s.setConf f).wordAt x = s.wordAt x := rfl
@[simp] theorem setPcount_byteAt (n : Nat) (x : Nat) : (s.setPcount n).byteAt x = s.byteAt x := rfl
@[simp] theorem setPcount_wordAt (n : Nat) (x : Nat) : (s.setPcount n).wordAt x = s.wordAt x := rfl

end Sys2Proof.Machine
end

