-- ==== Sys2Proof/Laws/Check.lean ====
section
/-! SUPPORT. What an accepted command satisfies, and what issuing one does. -/

namespace Sys2Proof.Machine

theorem check_ok_iff (p : Params) (w : CmdWord) (len fs : BitVec 32) (i : Instr) :
    check p w len fs = .ok i ↔ decode w = .ok i ∧ checkInstr p i len fs = .none := by
  unfold check
  cases hd : decode w with
  | error e => simp
  | ok j =>
    constructor
    · intro h
      cases hc : checkInstr p j len fs <;> simp only [hc, Except.ok.injEq, reduceCtorEq] at h
      subst h
      exact ⟨rfl, hc⟩
    · rintro ⟨h, hc⟩
      cases h
      simp [hc]

/-- An error code is never NONE. -/
theorem check_error_ne_none (p : Params) (w : CmdWord) (len fs : BitVec 32) (e : ErrCode)
    (h : check p w len fs = .error e) :
    e ≠ .none := by
  unfold check at h
  cases hd : decode w with
  | error e' => simp only [hd, Except.error.injEq] at h; simp [← h]
  | ok j =>
    cases hc : checkInstr p j len fs <;> simp only [hd, hc, Except.error.injEq, reduceCtorEq] at h <;> simp [← h]

/-- All that an accepted command satisfies (60_exceptions.md R262 to R266). -/
theorem checkInstr_none (p : Params) (i : Instr) (len fs : BitVec 32) (h : checkInstr p i len fs = .none) :
    (usesLen i = true → isPow2 len.toNat = true ∧ len.toNat ≤ p.nmax) ∧ i.wellFormed p = true
      ∧ (usesFs i = true → fs ≠ 0) := by
  unfold checkInstr at h
  by_cases h1 : (usesLen i && !isPow2 len.toNat) = true
  · simp [h1] at h
  rw [if_neg h1] at h
  by_cases h2 : (usesLen i && Nat.blt p.nmax len.toNat) = true
  · simp [h2] at h
  rw [if_neg h2] at h
  by_cases h3 : (!i.wellFormed p) = true
  · simp [h3] at h
  rw [if_neg h3] at h
  by_cases h4 : (usesFs i && fs == 0) = true
  · rw [if_pos h4] at h
    cases h
  refine ⟨fun hu => ⟨by simpa [hu] using h1, ?_⟩, by simpa using h3, fun hu => by simpa [hu] using h4⟩
  have hb : ¬Nat.blt p.nmax len.toNat = true := by simpa [hu] using h2
  rw [Nat.blt, Nat.ble_eq] at hb
  omega

theorem exists_pow2_of_isPow2 (n : Nat) (h : isPow2 n = true) : ∃ k, n = 2 ^ k := by
  simp only [isPow2, Bool.and_eq_true, bne_iff_ne, ne_eq, beq_iff_eq] at h
  exact (Nat.and_sub_one_eq_zero_iff_isPowerOfTwo h.1).1 h.2

/-- Issuing a word that is accepted. -/
theorem issue_accepted (w : CmdWord) (s : State) (i : Instr) (h : check s.params w s.len s.fs = .ok i) :
    issue w s =
      { s with
        cmd := w, done := false, err := false, errcode := .none, pending := some ⟨w, s.len, s.fs⟩ } := by
  simp [issue, h, accept]

/-- Issuing a word that is rejected. -/
theorem issue_rejected (w : CmdWord) (s : State) (e : ErrCode) (h : check s.params w s.len s.fs = .error e) :
    issue w s = { s with cmd := w, done := false, err := true, errcode := e } := by
  simp [issue, h, raiseError]

/-- One case or the other. -/
theorem issue_cases (w : CmdWord) (s : State) :
    (∃ i, check s.params w s.len s.fs = .ok i ∧ issue w s =
      { s with
        cmd := w, done := false, err := false, errcode := .none, pending := some ⟨w, s.len, s.fs⟩ })
    ∨ (∃ e, e ≠ .none ∧ check s.params w s.len s.fs = .error e ∧
      issue w s = { s with cmd := w, done := false, err := true, errcode := e }) := by
  cases h : check s.params w s.len s.fs with
  | ok i => exact .inl ⟨i, rfl, issue_accepted w s i h⟩
  | error e => exact .inr ⟨e, check_error_ne_none _ _ _ _ _ h, rfl, issue_rejected w s e h⟩

end Sys2Proof.Machine
end

