-- ==== Sys2Proof/Laws/Fft.lean ====
section
/-! SUPPORT. Lengths of the lists the meanings write. -/

namespace Sys2Proof.Machine

@[simp] theorem swapAt_length (b : List Cplx) (i j : Nat) : (swapAt b i j).length = b.length := by
  simp [swapAt]

@[simp] theorem swapPass_length (k count i : Nat) (b : List Cplx) :
    (swapPass k count i b).length = b.length := by
  induction count generalizing i b with
  | zero => rfl
  | succ count ih => rw [swapPass, ih]; split <;> simp

theorem butterflies_length (wm w : Cplx) (tops bots : List Cplx) (h : tops.length = bots.length) :
    (butterflies wm w tops bots).1.length = tops.length
      ∧ (butterflies wm w tops bots).2.length = bots.length := by
  induction tops generalizing w bots with
  | nil => cases bots <;> simp_all [butterflies]
  | cons u tops ih =>
    cases bots with
    | nil => simp at h
    | cons v bots =>
      have := ih (cmul w wm) bots (by simpa using h)
      simp [butterflies, this.1, this.2]

theorem blockPass_length (half : Nat) (wm : Cplx) (b : List Cplx) (h : b.length = 2 * half) :
    (blockPass half wm b).length = 2 * half := by
  have ht : (b.take half).length = half := by simp; omega
  have hd : (b.drop half).length = half := by simp; omega
  have := butterflies_length wm .one (b.take half) (b.drop half) (by omega)
  simp only [blockPass, List.length_append, this.1, this.2, ht, hd]
  omega

theorem stagePass_length (half : Nat) (wm : Cplx) (count : Nat) (b : List Cplx)
    (h : count * (2 * half) ≤ b.length) : (stagePass half wm count b).length = b.length := by
  induction count generalizing b with
  | zero => rfl
  | succ count ih =>
    have e : (count + 1) * (2 * half) = count * (2 * half) + 2 * half := by ring
    have ht : (b.take (2 * half)).length = 2 * half := by simp; omega
    rw [stagePass, List.length_append, blockPass_length _ _ _ ht, ih _ (by simp; omega)]
    simp
    omega

theorem stages_length (t : Trig) (n : Nat) (dir : Dir) (count s : Nat) (b : List Cplx) (h : b.length = n) (hs : 1 ≤ s) :
    (stages t n dir count s b).length = n := by
  induction count generalizing s b with
  | zero => exact h
  | succ count ih =>
    rw [stages]
    refine ih _ _ ?_ (by omega)
    obtain ⟨s, rfl⟩ : ∃ k, s = k + 1 := ⟨s - 1, by omega⟩
    have e : 2 * (2 ^ (s + 1) / 2) = 2 ^ (s + 1) := by rw [Nat.pow_succ]; omega
    rw [stagePass_length, h]
    rw [e, h]
    exact Nat.div_mul_le_self n _

/-- FFT_CORE gives as many entries as it takes. -/
theorem fftCore_length (t : Trig) (n : Nat) (dir : Dir) (b : List Cplx) (h : b.length = n) :
    (fftCore t n dir b).length = n := by
  have : ∀ b : List Cplx, (scale n dir b).length = b.length := by intro b; cases dir <;> simp [scale]
  rw [fftCore, this, stages_length _ _ _ _ _ _ (by simpa using h) (Nat.le_refl 1)]

theorem windowFrom_length (p : Params) (kind : WindowKind) (n i : Nat) (b : List Cplx) :
    (windowFrom p kind n i b).length = b.length := by
  induction b generalizing i with
  | nil => rfl
  | cons x b ih => simp [windowFrom, ih]

theorem windowFrom_getElem? (p : Params) (kind : WindowKind) (n i k : Nat) (b : List Cplx) :
    (windowFrom p kind n i b)[k]? = (b[k]?).map (windowed (winCoef p kind (i + k) n)) := by
  induction b generalizing i k with
  | nil => simp [windowFrom]
  | cons x b ih =>
    cases k with
    | zero => simp [windowFrom]
    | succ k => simp [windowFrom, ih, Nat.add_assoc, Nat.add_comm 1 k]

theorem autocorrelation_length (t : Trig) (n : Nat) (b : List Cplx) (h : b.length = n) :
    (autocorrelation t n b).length = n :=
  fftCore_length _ _ _ _ (by simpa [powerSpectrum] using fftCore_length t n .forward b h)

theorem hpsRounds_length (n : Nat) (r0 : List F64) (count h : Nat) (r1 : List F64) :
    (hpsRounds n r0 count h r1).length = r1.length := by
  induction count generalizing h r1 with
  | zero => rfl
  | succ count ih => rw [hpsRounds, ih]; simp [hpsRound]

@[simp] theorem hpsBuild_length (h n : Nat) (r0 : List F64) : (hpsBuild h n r0).length = n / 2 + 1 := by
  simp [hpsBuild, hpsRounds_length]

theorem scanPeaks_length_le (m : Nat → F64) (thr : F64) (maxp n fs count i : Nat) (found : List Peak)
    (h : found.length ≤ maxp) : (scanPeaks m thr maxp n fs count i found).length ≤ maxp := by
  induction count generalizing i found with
  | zero => exact h
  | succ count ih =>
    rw [scanPeaks]
    split
    · exact h
    · refine ih _ _ ?_
      split
      · simp; omega
      · omega

@[simp] theorem insertPeak_length (p : Peak) (ps : List Peak) : (insertPeak p ps).length = ps.length + 1 := by
  induction ps with
  | nil => rfl
  | cons q ps ih => rw [insertPeak]; split <;> simp [ih]

theorem foldl_insertPeak_length (ps acc : List Peak) :
    (ps.foldl (fun sorted p => insertPeak p sorted) acc).length = acc.length + ps.length := by
  induction ps generalizing acc with
  | nil => rfl
  | cons p ps ih => rw [List.foldl_cons, ih]; simp; omega

@[simp] theorem sortPeaks_length (ps : List Peak) : (sortPeaks ps).length = ps.length := by
  simp [sortPeaks, foldl_insertPeak_length]

/-- PEAKS finds at most MAXP peaks. -/
theorem peakList_length_le (m : Nat → F64) (thr : F64) (maxp n fs : Nat) :
    (peakList m thr maxp n fs).length ≤ maxp := by
  rw [peakList, sortPeaks_length]
  exact scanPeaks_length_le _ _ _ _ _ _ _ _ (by simp)

end Sys2Proof.Machine
end

