-- ==== Sys2Proof/Laws/Memory.lean ====
section
/-! SUPPORT. Memory: what a store leaves at every offset, and that every operation keeps the canonical form. -/

namespace Sys2Proof.Machine

/-! ## Bytes of numbers and words -/

@[simp] theorem leBytes_length (k n : Nat) : (leBytes k n).length = k := by
  induction k generalizing n with
  | zero => rfl
  | succ k ih => simp [leBytes, ih]

theorem leNat_leBytes (k n : Nat) : leNat (leBytes k n) = n % 256 ^ k := by
  induction k generalizing n with
  | zero => simp [leBytes, leNat, Nat.mod_one]
  | succ k ih =>
    have e : n % 256 ^ (k + 1) = n % 256 + 256 * (n / 256 % 256 ^ k) := by rw [Nat.pow_succ', Nat.mod_mul]
    simp only [leBytes, leNat, ih, BitVec.toNat_ofNat, e]

@[simp] theorem wordBytes_length (v : Word) : (wordBytes v).length = 8 := leBytes_length 8 _

theorem wordsBytes_length (vs : List Word) : (wordsBytes vs).length = 8 * vs.length := by
  induction vs with
  | nil => rfl
  | cons v vs ih => simp only [wordsBytes, List.length_append, wordBytes_length, ih, List.length_cons]; omega

theorem wordsBytes_getElem? (vs : List Word) (i k : Nat) (hk : k < 8) :
    (wordsBytes vs)[8 * i + k]? = (vs[i]?).bind fun v => (wordBytes v)[k]? := by
  induction vs generalizing i with
  | nil => simp [wordsBytes]
  | cons v vs ih =>
    cases i with
    | zero => simp [wordsBytes, List.getElem?_append_left, hk]
    | succ i =>
      have h : 8 * (i + 1) + k = 8 + (8 * i + k) := by omega
      rw [wordsBytes, h, List.getElem?_append_right (by simp)]
      simp [ih]

/-! ## One store -/

theorem lookup_eq_find? (m : List Host.Cell) (a : Nat) :
    Memory.byte? m a = (m.find? (fun c => c.1 == a)).map (·.2) := by
  unfold Memory.byte?
  induction m with
  | nil => rfl
  | cons c m ih =>
    obtain ⟨x, b⟩ := c
    by_cases h : a = x
    · subst h; simp
    · have h1 : (a == x) = false := by simp [h]
      have h2 : (x == a) = false := by simp [Ne.symm h]
      simp [List.lookup, h1, h2, ih]

theorem byte?_append (m m' : List Host.Cell) (a : Nat) :
    Memory.byte? (m ++ m') a = (Memory.byte? m a).or (Memory.byte? m' a) := by
  simp only [lookup_eq_find?, List.find?_append, Option.map_or]

theorem byte?_filter (m : List Host.Cell) (p : Nat → Bool) (a : Nat) :
    Memory.byte? (m.filter fun c => p c.1) a = if p a then Memory.byte? m a else none := by
  unfold Memory.byte?
  induction m with
  | nil => simp
  | cons c m ih =>
    obtain ⟨x, b⟩ := c
    by_cases h : a = x
    · subst h
      by_cases hp : p a <;> simp [List.filter, List.lookup, hp, ih]
    · have h1 : (a == x) = false := by simp [h]
      by_cases hp : p x <;> simp [List.filter, List.lookup, hp, ih, h1]

theorem byte?_cellsFrom (a : Nat) (bs : List Byte) (x : Nat) :
    Memory.byte? (cellsFrom a bs) x = if a ≤ x then bs[x - a]? else none := by
  unfold Memory.byte?
  induction bs generalizing a with
  | nil => simp [cellsFrom]
  | cons b bs ih =>
    by_cases h : x = a
    · subst h; simp [cellsFrom]
    · have h1 : (x == a) = false := by simp [h]
      by_cases hlt : a ≤ x
      · have e : x - a = (x - (a + 1)) + 1 := by omega
        have h2 : a + 1 ≤ x := by omega
        simp only [cellsFrom, List.lookup, h1, ih, hlt, h2, if_true, e, List.getElem?_cons_succ]
      · have h2 : ¬a + 1 ≤ x := by omega
        simp only [cellsFrom, List.lookup, h1, ih, hlt, h2, if_false]

/-- Everything a store does to reads: inside the stored run the new bytes, outside it the old ones. -/
theorem byte?_store (m : List Host.Cell) (a : Nat) (bs : List Byte) (x : Nat) :
    Memory.byte? (Memory.store m a bs) x =
      if a ≤ x ∧ x < a + bs.length then bs[x - a]? else Memory.byte? m x := by
  have f1 := byte?_filter m (fun y => Nat.blt y a) x
  have f2 := byte?_filter m (fun y => Nat.ble (a + bs.length) y) x
  simp only [Memory.store, byte?_append, byte?_cellsFrom] at *
  rw [f1, f2]
  by_cases h1 : a ≤ x
  · have b1 : Nat.blt x a = false := by
      rw [Bool.eq_false_iff]; simp [Nat.blt]; omega
    by_cases h2 : x < a + bs.length
    · have : (x - a) < bs.length := by omega
      simp [b1, h1, h2, List.getElem?_eq_getElem this]
    · have b2 : Nat.ble (a + bs.length) x = true := by simp; omega
      have : bs[x - a]? = none := List.getElem?_eq_none (by omega)
      simp [b1, b2, h1, h2, this]
  · have b1 : Nat.blt x a = true := by simp [Nat.blt]; omega
    have b2 : Nat.ble (a + bs.length) x = false := by
      rw [Bool.eq_false_iff]; simp; omega
    simp [b1, b2, h1]

/-! ## The canonical form -/

theorem cellsFrom_keys (a : Nat) (bs : List Byte) :
    (cellsFrom a bs).map Prod.fst = List.range' a bs.length := by
  induction bs generalizing a with
  | nil => rfl
  | cons b bs ih => simp [cellsFrom, ih, List.range'_succ]

/-- Every store keeps the canonical form. -/
theorem store_wf (m : List Host.Cell) (a : Nat) (bs : List Byte) (h : Memory.wf m) :
    Memory.wf (Memory.store m a bs) := by
  unfold Memory.wf at *
  have hsub : ∀ p : Host.Cell → Bool, ((m.filter p).map Prod.fst).Pairwise (· < ·) := fun p =>
    h.sublist (List.Sublist.map _ List.filter_sublist)
  simp only [Memory.store, List.map_append, List.pairwise_append, cellsFrom_keys, List.mem_append]
  refine ⟨hsub _, ⟨List.pairwise_lt_range', hsub _, ?_⟩, ?_⟩
  · intro x hx y hy
    simp only [List.mem_range', List.mem_map, List.mem_filter] at hx hy
    obtain ⟨c, ⟨-, hc⟩, rfl⟩ := hy
    obtain ⟨i, hi, rfl⟩ := hx
    have := Nat.le_of_ble_eq_true hc
    omega
  · intro x hx y hy
    simp only [List.mem_map, List.mem_filter] at hx
    obtain ⟨c, ⟨-, hc⟩, rfl⟩ := hx
    have hc : c.1 < a := Nat.le_of_ble_eq_true hc
    rcases hy with hy | hy
    · simp only [List.mem_range'] at hy
      obtain ⟨i, hi, rfl⟩ := hy
      omega
    · simp only [List.mem_map, List.mem_filter] at hy
      obtain ⟨d, ⟨-, hd⟩, rfl⟩ := hy
      have := Nat.le_of_ble_eq_true hd
      omega

/-- A cell after a store is an old one or one of the stored run. -/
theorem mem_store (m : List Host.Cell) (a : Nat) (bs : List Byte) (c : Host.Cell)
    (h : c ∈ Memory.store m a bs) : c ∈ m ∨ (a ≤ c.1 ∧ c.1 < a + bs.length) := by
  simp only [Memory.store, List.mem_append, List.mem_filter] at h
  rcases h with h | h | h
  · exact .inl h.1
  · right
    have hk : c.1 ∈ (cellsFrom a bs).map Prod.fst := List.mem_map_of_mem h
    rw [cellsFrom_keys] at hk
    simp only [List.mem_range'] at hk
    obtain ⟨i, hi, e⟩ := hk
    omega
  · exact .inl h.1

/-! ## Bytes and words of a state -/

/-- The byte at any offset after a store of words. -/
theorem byteAt_storeWords (s : State) (a : Nat) (vs : List Word) (x : Nat) :
    (s.storeWords a vs).byteAt x =
      if a ≤ x ∧ x < a + 8 * vs.length then ((wordsBytes vs)[x - a]?).getD 0 else s.byteAt x := by
  unfold State.byteAt
  simp only [State.storeWords, State.withMem, byte?_store, wordsBytes_length]
  by_cases h : a ≤ x ∧ x < a + 8 * vs.length
  · have : x - a < (wordsBytes vs).length := by rw [wordsBytes_length]; omega
    simp [h, List.getElem?_eq_getElem this]
  · simp [h]

/-- Outside the stored words every byte is kept. -/
theorem byteAt_storeWords_outside (s : State) (a : Nat) (vs : List Word) (x : Nat)
    (h : x < a ∨ a + 8 * vs.length ≤ x) : (s.storeWords a vs).byteAt x = s.byteAt x := by
  rw [byteAt_storeWords, if_neg (by omega)]

/-- Inside the stored words, word `i` is the one stored. -/
theorem wordAt_storeWords_inside (s : State) (a : Nat) (vs : List Word) (i : Nat) (h : i < vs.length) :
    (s.storeWords a vs).wordAt (a + 8 * i) = vs[i] := by
  have hb : (List.range 8).map (fun k => (s.storeWords a vs).byteAt (a + 8 * i + k)) = wordBytes vs[i] := by
    refine List.ext_getElem (by simp) fun k hk _ => ?_
    simp only [List.length_map, List.length_range] at hk
    simp only [List.getElem_map, List.getElem_range, byteAt_storeWords]
    rw [if_pos (by omega), show a + 8 * i + k - a = 8 * i + k by omega, wordsBytes_getElem? _ _ _ hk,
      List.getElem?_eq_getElem h]
    simp [hk]
  unfold State.wordAt
  rw [hb, wordBytes, leNat_leBytes]
  refine BitVec.eq_of_toNat_eq ?_
  rw [BitVec.toNat_ofNat]
  have := vs[i].isLt
  omega

/-- A word that no stored byte overlaps is kept. -/
theorem wordAt_storeWords_outside (s : State) (a : Nat) (vs : List Word) (x : Nat)
    (h : x + 8 ≤ a ∨ a + 8 * vs.length ≤ x) : (s.storeWords a vs).wordAt x = s.wordAt x := by
  unfold State.wordAt
  have hb : (List.range 8).map (fun k => (s.storeWords a vs).byteAt (x + k)) =
      (List.range 8).map fun k => s.byteAt (x + k) := by
    refine List.map_congr_left fun k hk => ?_
    simp only [List.mem_range] at hk
    exact byteAt_storeWords_outside s a vs (x + k) (by omega)
  rw [hb]

end Sys2Proof.Machine
end

