-- ==== Sys2Proof/Laws/Operands.lean ====
section
/-! SUPPORT. Whole-buffer reads and writes: what `storeC`, `storeR`, `storePeaks` and `drawWords` leave at every
entry and every byte, and the entries of what `loadC` and `loadR` read. -/

namespace Sys2Proof.Machine

/-! ## Reading -/

@[simp] theorem loadC_length (s : State) (b : CBuf) (n : Nat) : (s.loadC b n).length = n := by
  simp [State.loadC]

@[simp] theorem loadR_length (s : State) (b : RBuf) (n : Nat) : (s.loadR b n).length = n := by
  simp [State.loadR]

theorem loadC_getElem (s : State) (b : CBuf) (n i : Nat) (h : i < (s.loadC b n).length) :
    (s.loadC b n)[i] = s.cAt b i := by
  simp [State.loadC]

theorem nthC_loadC (s : State) (b : CBuf) (n i : Nat) (h : i < n) : nthC (s.loadC b n) i = s.cAt b i := by
  simp [nthC, State.loadC, h]

theorem nth_loadR (s : State) (b : RBuf) (n i : Nat) (h : i < n) : nth (s.loadR b n) i = s.rAt b i := by
  simp [nth, State.loadR, h]

/-- Two states with the same bytes in a complex buffer's first `n` entries load the same entries. -/
theorem loadC_congr (s s' : State) (b : CBuf) (n : Nat)
    (h : ∀ a, cAddr b 0 ≤ a → a < cAddr b n → s.byteAt a = s'.byteAt a) : s.loadC b n = s'.loadC b n := by
  unfold State.loadC
  refine List.map_congr_left fun i hi => ?_
  simp only [List.mem_range] at hi
  have hw : ∀ d, d < 16 → d % 8 = 0 → s.wordAt (cAddr b i + d) = s'.wordAt (cAddr b i + d) := by
    intro d hd hd8
    unfold State.wordAt
    congr 2
    refine List.map_congr_left fun k hk => ?_
    simp only [List.mem_range] at hk
    refine h _ ?_ ?_ <;> simp only [cAddr] at * <;> omega
  simp only [State.cAt]
  rw [hw 8 (by omega) (by omega), show s.wordAt (cAddr b i) = s'.wordAt (cAddr b i) from hw 0 (by omega) (by omega)]

/-- Two states with the same bytes in a real buffer's first `n` entries load the same entries. -/
theorem loadR_congr (s s' : State) (b : RBuf) (n : Nat)
    (h : ∀ a, rAddr b 0 ≤ a → a < rAddr b n → s.byteAt a = s'.byteAt a) : s.loadR b n = s'.loadR b n := by
  unfold State.loadR
  refine List.map_congr_left fun i hi => ?_
  simp only [List.mem_range] at hi
  simp only [State.rAt, State.wordAt]
  congr 2
  refine List.map_congr_left fun k hk => ?_
  simp only [List.mem_range] at hk
  refine h _ ?_ ?_ <;> simp only [rAddr] at * <;> omega

/-! ## Writing entries -/

@[simp] theorem cplxWords_length (xs : List Cplx) : (cplxWords xs).length = 2 * xs.length := by
  induction xs with
  | nil => rfl
  | cons x xs ih => simp only [cplxWords, List.length_cons, ih]; omega

theorem cplxWords_getElem? (xs : List Cplx) (i : Nat) :
    (cplxWords xs)[2 * i]? = (xs[i]?).map (·.re) ∧ (cplxWords xs)[2 * i + 1]? = (xs[i]?).map (·.im) := by
  induction xs generalizing i with
  | nil => simp [cplxWords]
  | cons x xs ih =>
    cases i with
    | zero => simp [cplxWords]
    | succ i =>
      have h : 2 * (i + 1) = 2 * i + 1 + 1 := by omega
      simp only [cplxWords, h, List.getElem?_cons_succ]
      exact ih i

theorem cAt_storeC_inside (s : State) (b : CBuf) (xs : List Cplx) (i : Nat) (h : i < xs.length) :
    (s.storeC b xs).cAt b i = xs[i] := by
  have hl : (cplxWords xs).length = 2 * xs.length := cplxWords_length xs
  have e := cplxWords_getElem? xs i
  have h0 : 2 * i < (cplxWords xs).length := by omega
  have h1 : 2 * i + 1 < (cplxWords xs).length := by omega
  rw [List.getElem?_eq_getElem h0, List.getElem?_eq_getElem h1, List.getElem?_eq_getElem h] at e
  simp only [Option.map_some, Option.some.injEq] at e
  simp only [State.cAt, State.storeC]
  rw [show cAddr b i = cAddr b 0 + 8 * (2 * i) by simp only [cAddr]; omega,
    show cAddr b 0 + 8 * (2 * i) + 8 = cAddr b 0 + 8 * (2 * i + 1) by omega,
    wordAt_storeWords_inside _ _ _ _ h0, wordAt_storeWords_inside _ _ _ _ h1, e.1, e.2]

theorem byteAt_storeC_outside (s : State) (b : CBuf) (xs : List Cplx) (a : Nat)
    (h : a < cAddr b 0 ∨ cAddr b xs.length ≤ a) : (s.storeC b xs).byteAt a = s.byteAt a := by
  refine byteAt_storeWords_outside _ _ _ _ ?_
  rw [cplxWords_length]
  simp only [cAddr] at *
  omega

theorem rAt_storeR_inside (s : State) (b : RBuf) (xs : List F64) (i : Nat) (h : i < xs.length) :
    (s.storeR b xs).rAt b i = xs[i] := by
  simp only [State.rAt, State.storeR]
  rw [show rAddr b i = rAddr b 0 + 8 * i by simp only [rAddr]; omega, wordAt_storeWords_inside _ _ _ _ h]

theorem byteAt_storeR_outside (s : State) (b : RBuf) (xs : List F64) (a : Nat)
    (h : a < rAddr b 0 ∨ rAddr b xs.length ≤ a) : (s.storeR b xs).byteAt a = s.byteAt a := by
  refine byteAt_storeWords_outside _ _ _ _ ?_
  simp only [rAddr] at *
  omega

theorem wordAt_storeR_outside (s : State) (b : RBuf) (xs : List F64) (a : Nat)
    (h : a + 8 ≤ rAddr b 0 ∨ rAddr b xs.length ≤ a) : (s.storeR b xs).wordAt a = s.wordAt a := by
  refine wordAt_storeWords_outside _ _ _ _ ?_
  simp only [rAddr] at *
  omega

/-! ## Writing peaks -/

theorem byteAt_storePeaks_outside (s : State) (j : Nat) (ps : List Peak) (a : Nat)
    (h : ∀ i, j ≤ i → i < j + ps.length → a < pAddr i ∨ pAddr i + 24 ≤ a) :
    (s.storePeaks j ps).byteAt a = s.byteAt a := by
  induction ps generalizing s j with
  | nil => rfl
  | cons p ps ih =>
    rw [State.storePeaks, ih _ _ fun i h1 h2 => h i (by omega) (by simp only [List.length_cons]; omega)]
    exact byteAt_storeWords_outside _ _ _ _ (h j (Nat.le_refl j) (by simp only [List.length_cons]; omega))

theorem wordAt_storePeaks_outside (s : State) (j : Nat) (ps : List Peak) (a : Nat)
    (h : ∀ i, j ≤ i → i < j + ps.length → a + 8 ≤ pAddr i ∨ pAddr i + 24 ≤ a) :
    (s.storePeaks j ps).wordAt a = s.wordAt a := by
  induction ps generalizing s j with
  | nil => rfl
  | cons p ps ih =>
    rw [State.storePeaks, ih _ _ fun i h1 h2 => h i (by omega) (by simp only [List.length_cons]; omega)]
    exact wordAt_storeWords_outside _ _ _ _ (h j (Nat.le_refl j) (by simp only [List.length_cons]; omega))

theorem wordAt_storePeaks_inside (s : State) (j : Nat) (ps : List Peak) (i : Nat) (h : i < ps.length) :
    (s.storePeaks j ps).wordAt (pAddr (j + i)) = BitVec.ofNat 64 ps[i].bin
      ∧ (s.storePeaks j ps).wordAt (pAddr (j + i) + 8) = ps[i].freq
      ∧ (s.storePeaks j ps).wordAt (pAddr (j + i) + 16) = ps[i].mag := by
  induction ps generalizing s j i with
  | nil => simp at h
  | cons p ps ih =>
    cases i with
    | zero =>
      have out : ∀ d, d ≤ 16 →
          (((s.storeWords (pAddr j) [BitVec.ofNat 64 p.bin, p.freq, p.mag]).storePeaks (j + 1) ps).wordAt
            (pAddr j + d)) =
          (s.storeWords (pAddr j) [BitVec.ofNat 64 p.bin, p.freq, p.mag]).wordAt (pAddr j + d) := fun d hd =>
        wordAt_storePeaks_outside _ _ _ _ fun i h1 _ => .inl (by simp only [pAddr]; omega)
      have w := fun k hk => wordAt_storeWords_inside s (pAddr j) [BitVec.ofNat 64 p.bin, p.freq, p.mag] k hk
      refine ⟨(out 0 (by omega)).trans (w 0 (by simp)), (out 8 (by omega)).trans (w 1 (by simp)),
        (out 16 (by omega)).trans (w 2 (by simp))⟩
    | succ i =>
      have := ih (s.storeWords (pAddr j) [BitVec.ofNat 64 p.bin, p.freq, p.mag]) (j + 1) i (by simpa using h)
      rw [show j + 1 + i = j + (i + 1) by omega] at this
      simpa [State.storePeaks] using this

/-- Only memory changes. -/
theorem storePeaks_eq (s : State) (j : Nat) (ps : List Peak) :
    s.storePeaks j ps = s.withMem (s.storePeaks j ps).mem := by
  induction ps generalizing s j with
  | nil => rfl
  | cons p ps ih => exact ih _ _

/-! ## Memory after writes -/

/-- Only memory and the count of drawn values change. -/
theorem foldl_drawWords_eq (s : State) (rs : List (Nat × Nat)) :
    rs.foldl State.drawWords s =
      { s with mem := (rs.foldl State.drawWords s).mem, draws := (rs.foldl State.drawWords s).draws } := by
  induction rs generalizing s with
  | nil => rfl
  | cons r rs ih => exact ih _

theorem storePeaks_mem_wf (s : State) (j : Nat) (ps : List Peak) (h : Memory.wf s.mem) :
    Memory.wf (s.storePeaks j ps).mem := by
  induction ps generalizing s j with
  | nil => exact h
  | cons p ps ih => exact ih _ _ (store_wf _ _ _ h)

theorem mem_storePeaks (s : State) (j : Nat) (ps : List Peak) (c : Host.Cell)
    (h : c ∈ (s.storePeaks j ps).mem) :
    c ∈ s.mem ∨ (pAddr j ≤ c.1 ∧ c.1 < pAddr (j + ps.length)) := by
  induction ps generalizing s j with
  | nil => exact .inl h
  | cons p ps ih =>
    rcases ih _ _ h with h | h
    · rcases mem_store _ _ _ _ h with h | h
      · exact .inl h
      · right
        simp only [wordsBytes_length, List.length_cons, List.length_nil, pAddr] at *
        omega
    · right
      simp only [List.length_cons, pAddr] at *
      omega

theorem foldl_drawWords_wf (s : State) (rs : List (Nat × Nat)) (h : Memory.wf s.mem) :
    Memory.wf (rs.foldl State.drawWords s).mem := by
  induction rs generalizing s with
  | nil => exact h
  | cons r rs ih => exact ih _ (store_wf _ _ _ h)

theorem mem_foldl_drawWords (s : State) (rs : List (Nat × Nat)) (c : Host.Cell)
    (h : c ∈ (rs.foldl State.drawWords s).mem) :
    c ∈ s.mem ∨ ∃ r ∈ rs, r.1 ≤ c.1 ∧ c.1 < r.1 + 8 * r.2 := by
  induction rs generalizing s with
  | nil => exact .inl h
  | cons r rs ih =>
    rcases ih _ h with h | ⟨r', hr, h⟩
    · rcases mem_store _ _ _ _ h with h | h
      · exact .inl h
      · exact .inr ⟨r, List.mem_cons_self, by simpa [wordsBytes_length] using h⟩
    · exact .inr ⟨r', List.mem_cons_of_mem _ hr, h⟩

theorem byteAt_foldl_drawWords_outside (s : State) (rs : List (Nat × Nat)) (a : Nat)
    (h : ∀ r ∈ rs, a < r.1 ∨ r.1 + 8 * r.2 ≤ a) : (rs.foldl State.drawWords s).byteAt a = s.byteAt a := by
  induction rs generalizing s with
  | nil => rfl
  | cons r rs ih =>
    rw [List.foldl_cons, ih _ fun r' hr => h r' (List.mem_cons_of_mem _ hr)]
    refine byteAt_storeWords_outside s r.1 ((List.range r.2).map fun t => Config.draw (s.draws + t)) a ?_
    simpa using h r List.mem_cons_self

end Sys2Proof.Machine
end

