-- ==== Sys2Proof/Laws/Step.lean ====
section
/-! SUPPORT. Inversion: what a meaning, a transaction and a step can answer, said once. -/

namespace Sys2Proof.Machine

/-- Every meaning answers a next state that differs from the old one in memory, the result registers and the
flags of completion alone. -/
theorem exec_next (i : Instr) (s : State) :
    ∃ t, exec i s = .next t ∧
      t = { s with
        mem := t.mem, pcount := t.pcount, fPeak := t.fPeak, pkBin := t.pkBin, fHps := t.fHps
        hpsBin := t.hpsBin, fAc := t.fAc, acLag := t.acLag, conf := t.conf, pending := none, done := true } := by
  cases i with
  | peaks b maxp =>
    refine ⟨_, rfl, ?_⟩
    rw [storePeaks_eq]
    rfl
  | nop | fft | mag | pitchpk | pitchhps | pitchac | conf | win => exact ⟨_, rfl, rfl⟩

/-- The engine's step: nothing to do, a meaning, or a pending command no check accepted. -/
theorem engineStep_cases (s : State) :
    (s.pending = none ∧ engineStep s = .next s)
    ∨ (∃ p i, s.pending = some p ∧ check s.params p.word p.len p.fs = .ok i ∧ engineStep s = exec i s)
    ∨ (∃ p e, s.pending = some p ∧ check s.params p.word p.len p.fs = .error e
        ∧ engineStep s = .fault .pendingNotAcceptable) := by
  unfold engineStep
  cases hp : s.pending with
  | none => exact .inl ⟨rfl, rfl⟩
  | some p =>
    cases hc : check s.params p.word p.len p.fs with
    | ok i => exact .inr (.inl ⟨p, i, rfl, hc, by simp [hc]⟩)
    | error e => exact .inr (.inr ⟨p, e, rfl, hc, by simp [hc]⟩)

/-- What a step can do. -/
theorem step_cases (s : State) :
    (s.turns = [] ∧ step s = engineStep s)
    ∨ (∃ rest, s.turns = .engine :: rest ∧ step s = engineStep { s with turns := rest })
    ∨ (∃ t rest, s.turns = .host t :: rest ∧ step s = .next (hostTxn t { s with turns := rest }))
    ∨ (∃ rest, s.turns = .powerOn :: rest ∧ step s = .next (powerOnReset { s with turns := rest })) := by
  unfold step
  cases h : s.turns with
  | nil => exact .inl ⟨rfl, rfl⟩
  | cons t rest =>
    cases t with
    | engine => exact .inr (.inl ⟨rest, rfl, rfl⟩)
    | host t => exact .inr (.inr (.inl ⟨t, rest, rfl, rfl⟩))
    | powerOn => exact .inr (.inr (.inr ⟨rest, rfl, rfl⟩))

/-- What a read can do: a bus error, a register, a drawn word with HAZ, or the word held. -/
theorem memRead_cases (off : Offset) (s : State) :
    (target s.params off = none ∧ memRead off s = s.answer (.read 0 .err))
    ∨ (∃ r, target s.params off = some (.reg r) ∧ memRead off s = s.answer (.read (s.readReg r) .ok))
    ∨ (∃ a, target s.params off = some (.buffer a) ∧ s.busy = true
        ∧ memRead off s =
          { s with haz := true, draws := s.draws + 1, reply := some (.read (Config.draw s.draws) .ok) })
    ∨ (∃ a, target s.params off = some (.buffer a) ∧ s.busy = false
        ∧ memRead off s = s.answer (.read (s.wordAt a) .ok)) := by
  unfold memRead
  cases h : target s.params off with
  | none => exact .inl ⟨rfl, rfl⟩
  | some t =>
    cases t with
    | reg r => exact .inr (.inl ⟨r, rfl, rfl⟩)
    | buffer a =>
      cases hb : s.busy with
      | true => exact .inr (.inr (.inl ⟨a, rfl, rfl, by simp [State.hazard, State.answer]⟩))
      | false => exact .inr (.inr (.inr ⟨a, rfl, rfl, by simp⟩))

/-- What a write can do: a bus error, a forbidden access with HAZ, a register write, or the word stored. -/
theorem memWrite_cases (off : Offset) (v : Word) (s : State) :
    (target s.params off = none ∧ memWrite off v s = s.answer (.write .err))
    ∨ (s.busy = true
        ∧ ((∃ r, target s.params off = some (.reg r) ∧ r.busyOwned = true) ∨ ∃ a, target s.params off = some (.buffer a))
        ∧ memWrite off v s = { s with haz := true, reply := some (.write .ok) })
    ∨ (∃ r, target s.params off = some (.reg r) ∧ (s.busy && r.busyOwned) = false
        ∧ memWrite off v s = (s.writeReg r v).answer (.write .ok))
    ∨ (∃ a, target s.params off = some (.buffer a) ∧ s.busy = false
        ∧ memWrite off v s = (s.storeWords a [v]).answer (.write .ok)) := by
  unfold memWrite
  cases h : target s.params off with
  | none => exact .inl ⟨rfl, rfl⟩
  | some t =>
    cases t with
    | reg r =>
      cases hb : s.busy && r.busyOwned with
      | true =>
        simp only [Bool.and_eq_true] at hb
        exact .inr (.inl ⟨hb.1, .inl ⟨r, rfl, hb.2⟩, by simp [hb, State.hazard, State.answer]⟩)
      | false => exact .inr (.inr (.inl ⟨r, rfl, hb, by simp [hb]⟩))
    | buffer a =>
      cases hb : s.busy with
      | true => exact .inr (.inl ⟨rfl, .inr ⟨a, rfl⟩, by simp [State.hazard, State.answer]⟩)
      | false => exact .inr (.inr (.inr ⟨a, rfl, rfl, by simp⟩))

end Sys2Proof.Machine
end

