-- ==== Sys2Proof/Laws/Bus.lean ====
section
/-! SUPPORT. The address map as ranges, the target of an offset, transactions by target, what they and the engine can
change, and where a meaning stores. -/

namespace Sys2Proof.Machine

/-- The largest NMAX (00_scope.md R7). -/
theorem nmax_le (p : Params) : p.nmax ≤ 65536 :=
  Nat.pow_le_pow_right (n := 2) (by decide) p.legal.1.2

/-- The smallest NMAX (00_scope.md R7). -/
theorem two_le_nmax (p : Params) : 2 ≤ p.nmax :=
  Nat.pow_le_pow_right (n := 2) (by decide) p.legal.1.1

theorem peakCap_le (p : Params) : p.peakCap ≤ 255 := p.legal.2.1.2

/-- The valid buffer bytes as ranges (20_memory.md R62). -/
theorem isBufferOffset_iff (p : Params) (a : Nat) :
    isBufferOffset p a = true ↔
      (0x100000 ≤ a ∧ a < 0x100000 + 16 * p.nmax) ∨ (0x200000 ≤ a ∧ a < 0x200000 + 16 * p.nmax)
        ∨ (0x300000 ≤ a ∧ a < 0x300000 + 8 * p.nmax) ∨ (0x380000 ≤ a ∧ a < 0x380000 + 8 * p.nmax)
        ∨ (0x400000 ≤ a ∧ a < 0x400000 + 32 * p.peakCap) := by
  simp only [isBufferOffset, cBase, rBase, pBase, cAddr, rAddr, pAddr, Bool.or_eq_true, Bool.and_eq_true,
    Nat.blt, Nat.ble_eq]
  omega

/-- The register offsets (10_state.md R23). -/
theorem reg_ofOffset_some (a : Nat) (r : Reg) (h : Reg.ofOffset a = some r) : a ≤ 0x78 ∧ a % 8 = 0 := by
  unfold Reg.ofOffset at h
  split at h <;> first | omega | cases h

theorem reg_ofOffset_exists (a : Nat) (h : a ≤ 0x78) (h8 : a % 8 = 0) : ∃ r, Reg.ofOffset a = some r := by
  have : a = 8 * (a / 8) := by omega
  have hk : a / 8 ≤ 15 := by omega
  generalize a / 8 = k at this hk
  subst this
  interval_cases k <;> exact ⟨_, rfl⟩

theorem target_reg_iff (p : Params) (off : Offset) (r : Reg) :
    target p off = some (.reg r) ↔ Reg.ofOffset off.toNat = some r := by
  unfold target
  by_cases h8 : off.toNat % 8 = 0
  · cases hb : isBufferOffset p off.toNat with
    | false => simp [h8, hb]
    | true =>
      simp only [h8, hb, ne_eq, not_true_eq_false, if_false, if_true]
      constructor
      · intro h; cases h
      · intro h
        have := (reg_ofOffset_some _ _ h).1
        rw [isBufferOffset_iff] at hb
        omega
  · simp only [h8, ne_eq, not_false_eq_true, if_true]
    constructor
    · intro h; cases h
    · intro h; exact absurd (reg_ofOffset_some _ _ h).2 h8

theorem target_buffer_iff (p : Params) (off : Offset) (a : Nat) :
    target p off = some (.buffer a) ↔ a = off.toNat ∧ off.toNat % 8 = 0 ∧ isBufferOffset p off.toNat = true := by
  unfold target
  by_cases h8 : off.toNat % 8 = 0
  · cases hb : isBufferOffset p off.toNat with
    | false => simp [h8, hb]
    | true => simp [h8, hb, eq_comm]
  · simp [h8]

theorem target_none_iff (p : Params) (off : Offset) :
    target p off = none ↔
      ¬(off.toNat % 8 = 0 ∧ (off.toNat ≤ 0x78 ∨ isBufferOffset p off.toNat = true)) := by
  cases h : target p off with
  | none =>
    simp only [true_iff]
    rintro ⟨h8, hr | hb⟩
    · obtain ⟨r, hr⟩ := reg_ofOffset_exists _ hr h8
      simp [(target_reg_iff _ off r).2 hr] at h
    · simp [(target_buffer_iff _ off _).2 ⟨rfl, h8, hb⟩] at h
  | some t =>
    simp only [reduceCtorEq, false_iff, not_not]
    cases t with
    | reg r => exact ⟨(reg_ofOffset_some _ _ ((target_reg_iff _ off r).1 h)).2,
        .inl (reg_ofOffset_some _ _ ((target_reg_iff _ off r).1 h)).1⟩
    | buffer a => exact ⟨((target_buffer_iff _ off a).1 h).2.1, .inr ((target_buffer_iff _ off a).1 h).2.2⟩

/-! ## Transactions by target -/

theorem writeCtrl_reset (v : Word) (s : State) (h : v.getLsbD 1 = true) : writeCtrl v s = softReset s := by
  unfold writeCtrl; rw [if_pos h]

theorem writeCtrl_keep (v : Word) (s : State) (h : v.getLsbD 1 = false) :
    writeCtrl v s = { s with ie := v.getLsbD 0 } := by
  unfold writeCtrl; rw [if_neg (by rw [h]; exact Bool.false_ne_true)]

/-- A read of a register answers its word and changes nothing else. -/
theorem read_reg (off : Offset) (r : Reg) (s : State) (h : Reg.ofOffset off.toNat = some r) :
    hostTxn (.read off) s = s.answer (.read (s.readReg r) .ok) := by
  simp [hostTxn, memRead, (target_reg_iff _ off r).2 h]

/-- A write of a register the engine does not own, or of any register while idle, is carried out. -/
theorem write_reg (off : Offset) (r : Reg) (v : Word) (s : State) (h : Reg.ofOffset off.toNat = some r)
    (ho : s.busy = false ∨ r.busyOwned = false) :
    hostTxn (.write off v) s = (s.writeReg r v).answer (.write .ok) := by
  rcases ho with ho | ho <;> simp [hostTxn, memWrite, (target_reg_iff _ off r).2 h, ho]

/-- A write of a register the engine owns while it is busy is ignored with a hazard. -/
theorem write_reg_busy (off : Offset) (r : Reg) (v : Word) (s : State) (h : Reg.ofOffset off.toNat = some r)
    (hb : s.busy = true) (ho : r.busyOwned = true) :
    hostTxn (.write off v) s = s.hazard.answer (.write .ok) := by
  simp [hostTxn, memWrite, (target_reg_iff _ off r).2 h, ho, hb]

theorem read_buffer (off : Offset) (s : State) (h8 : off.toNat % 8 = 0) (h : isBufferOffset s.params off.toNat = true)
    (hb : s.busy = false) : hostTxn (.read off) s = s.answer (.read (s.wordAt off.toNat) .ok) := by
  simp [hostTxn, memRead, (target_buffer_iff _ off _).2 ⟨rfl, h8, h⟩, hb]

theorem write_buffer (off : Offset) (v : Word) (s : State) (h8 : off.toNat % 8 = 0)
    (h : isBufferOffset s.params off.toNat = true) (hb : s.busy = false) :
    hostTxn (.write off v) s = (s.storeWords off.toNat [v]).answer (.write .ok) := by
  simp [hostTxn, memWrite, (target_buffer_iff _ off _).2 ⟨rfl, h8, h⟩, hb]

/-! ## What a transaction and the engine can do to the registers -/

theorem ofOffset_ctrl (n : Nat) (h : Reg.ofOffset n = some .ctrl) : n = 0x10 := by
  unfold Reg.ofOffset at h; split at h <;> first | rfl | cases h

theorem ofOffset_status (n : Nat) (h : Reg.ofOffset n = some .status) : n = 0x18 := by
  unfold Reg.ofOffset at h; split at h <;> first | rfl | cases h

theorem ofOffset_cmd (n : Nat) (h : Reg.ofOffset n = some .cmd) : n = 0x20 := by
  unfold Reg.ofOffset at h; split at h <;> first | rfl | cases h

/-- What a host transaction can do: no register changes but HAZ, which does not fall; a soft reset; a write of
IE; an acknowledgement; the issue of a word while idle; or a write of operands while idle. -/
theorem hostTxn_cases (tx : Txn) (s : State) :
    (∃ m h d r, hostTxn tx s = { s with mem := m, haz := h, draws := d, reply := r } ∧ (s.haz = true → h = true))
    ∨ (∃ v, tx = .write 0x10 v ∧ v.getLsbD 1 = true ∧ hostTxn tx s = (softReset s).answer (.write .ok))
    ∨ (∃ v, tx = .write 0x10 v ∧ v.getLsbD 1 = false ∧
        hostTxn tx s = { s with ie := v.getLsbD 0, reply := some (.write .ok) })
    ∨ (∃ v, tx = .write 0x18 v ∧ hostTxn tx s = (acknowledge v s).answer (.write .ok))
    ∨ (∃ v, tx = .write 0x20 v ∧ s.busy = false ∧ hostTxn tx s = (issue (v.setWidth 32) s).answer (.write .ok))
    ∨ (s.busy = false ∧ ∃ l f p a b c,
        hostTxn tx s =
          { s with len := l, fs := f, peakThr := p, fPeak := a, fHps := b, fAc := c, reply := some (.write .ok) }) := by
  cases tx with
  | read off =>
    simp only [hostTxn]
    rcases memRead_cases off s with h | ⟨r, h, e⟩ | ⟨a, h, _, e⟩ | ⟨a, h, _, e⟩
    · rw [h.2]; exact .inl ⟨s.mem, s.haz, s.draws, _, rfl, id⟩
    · rw [e]; exact .inl ⟨s.mem, s.haz, s.draws, _, rfl, id⟩
    · rw [e]; exact .inl ⟨s.mem, true, s.draws + 1, _, rfl, fun _ => rfl⟩
    · rw [e]; exact .inl ⟨s.mem, s.haz, s.draws, _, rfl, id⟩
  | write off v =>
    simp only [hostTxn]
    rcases memWrite_cases off v s with h | ⟨_, _, e⟩ | ⟨r, h, hb, e⟩ | ⟨a, h, _, e⟩
    · rw [h.2]; exact .inl ⟨s.mem, s.haz, s.draws, _, rfl, id⟩
    · rw [e]; exact .inl ⟨s.mem, true, s.draws, _, rfl, fun _ => rfl⟩
    · have ho := (target_reg_iff _ off r).1 h
      rw [e]
      cases r with
      | ctrl =>
        have : off = 0x10 := BitVec.eq_of_toNat_eq (ofOffset_ctrl _ ho)
        subst this
        cases hv : v.getLsbD 1 with
        | true => exact .inr (.inl ⟨v, rfl, hv, by rw [State.writeReg, writeCtrl_reset v s hv]⟩)
        | false => exact .inr (.inr (.inl ⟨v, rfl, hv, by rw [State.writeReg, writeCtrl_keep v s hv]; rfl⟩))
      | status =>
        have : off = 0x18 := BitVec.eq_of_toNat_eq (ofOffset_status _ ho)
        subst this
        exact .inr (.inr (.inr (.inl ⟨v, rfl, rfl⟩)))
      | cmd =>
        have : off = 0x20 := BitVec.eq_of_toNat_eq (ofOffset_cmd _ ho)
        subst this
        exact .inr (.inr (.inr (.inr (.inl ⟨v, rfl, by simpa [Reg.busyOwned] using hb, rfl⟩))))
      | len | fs | peakThr | fPeak | fHps | fAc =>
        exact .inr (.inr (.inr (.inr (.inr ⟨by simpa [Reg.busyOwned] using hb, _, _, _, _, _, _, rfl⟩))))
      | id | cfg | pcount | conf | pkBin | hpsBin | acLag => exact .inl ⟨s.mem, s.haz, s.draws, _, rfl, id⟩
    · rw [e]; exact .inl ⟨(s.storeWords a [v]).mem, s.haz, s.draws, _, rfl, id⟩

/-- What the engine's step can do to the registers that no command's result enters: nothing while idle, or the
pending command completes. -/
theorem engineStep_next (s t : State) (h : engineStep s = .next t) :
    (s.busy = false ∧ t = s)
      ∨ (t.params = s.params ∧ t.ie = s.ie ∧ t.haz = s.haz ∧ t.done = true
        ∧ t.pending = none ∧ t.turns = s.turns) := by
  rcases engineStep_cases s with ⟨hp, e⟩ | ⟨p, i, hp, hc, e⟩ | ⟨p, er, _, _, e⟩
  · rw [e] at h; cases h; exact .inl ⟨by simp [State.busy, hp], rfl⟩
  · rw [e] at h; obtain ⟨t', h', e'⟩ := exec_next i s
    rw [h] at h'; cases h'; right; rw [e']; exact ⟨rfl, rfl, rfl, rfl, rfl, rfl⟩
  · rw [e] at h; cases h

/-! ## Memory after a meaning -/

theorem storeC_mapped (s : State) (b : CBuf) (xs : List Cplx) (hm : Memory.wf s.mem)
    (ha : ∀ c ∈ s.mem, isBufferOffset s.params c.1 = true) (hx : xs.length ≤ s.params.nmax) :
    Memory.wf (s.storeC b xs).mem ∧ ∀ c ∈ (s.storeC b xs).mem, isBufferOffset s.params c.1 = true := by
  have := nmax_le s.params
  refine ⟨store_wf _ _ _ hm, fun c hc => ?_⟩
  rcases mem_store _ _ _ _ hc with h | h
  · exact ha c h
  · rw [wordsBytes_length, cplxWords_length] at h
    rw [isBufferOffset_iff]
    cases b <;> simp only [cAddr, cBase] at h <;> omega

theorem storeR_mapped (s : State) (b : RBuf) (xs : List F64) (hm : Memory.wf s.mem)
    (ha : ∀ c ∈ s.mem, isBufferOffset s.params c.1 = true) (hx : xs.length ≤ s.params.nmax) :
    Memory.wf (s.storeR b xs).mem ∧ ∀ c ∈ (s.storeR b xs).mem, isBufferOffset s.params c.1 = true := by
  have := nmax_le s.params
  refine ⟨store_wf _ _ _ hm, fun c hc => ?_⟩
  rcases mem_store _ _ _ _ hc with h | h
  · exact ha c h
  · rw [wordsBytes_length] at h
    rw [isBufferOffset_iff]
    cases b <;> simp only [rAddr, rBase] at h <;> omega

/-- A meaning whose length and operands pass the checks stores in mapped entries only and counts at most PEAK_CAP
peaks. -/
theorem exec_mapped (i : Instr) (s t : State) (hn : usesLen i = true → s.opLen ≤ s.params.nmax)
    (hw : i.wellFormed s.params = true) (hm : Memory.wf s.mem) (ha : ∀ c ∈ s.mem, isBufferOffset s.params c.1 = true)
    (hp : s.pcount.toNat ≤ s.params.peakCap) (h : exec i s = .next t) :
    (Memory.wf t.mem ∧ ∀ c ∈ t.mem, isBufferOffset s.params c.1 = true) ∧ t.pcount.toNat ≤ s.params.peakCap := by
  have hmag : ∀ b, usesLen i = true → (s.magnitudes b s.opLen).length ≤ s.params.nmax := fun b hu => by
    simpa [State.magnitudes] using hn hu
  cases i with
  | nop | conf | pitchpk => cases h; exact ⟨⟨hm, ha⟩, hp⟩
  | fft b dir =>
    cases h
    exact ⟨storeC_mapped s _ _ hm ha (by rw [fftCore_length _ _ _ _ (by simp)]; exact hn rfl), hp⟩
  | win b kind =>
    cases h
    exact ⟨storeC_mapped s _ _ hm ha (by rw [windowFrom_length]; simpa using hn rfl), hp⟩
  | pitchac d b =>
    cases h
    exact ⟨storeC_mapped s _ _ hm ha (by rw [autocorrelation_length _ _ _ (by simp)]; exact hn rfl), hp⟩
  | mag d b => cases h; exact ⟨storeR_mapped s _ _ hm ha (hmag b rfl), hp⟩
  | pitchhps b o =>
    cases h
    have h0 := storeR_mapped s .r0 _ hm ha (hmag b rfl)
    refine ⟨storeR_mapped _ .r1 _ h0.1 h0.2 ?_, hp⟩
    have hn := hn rfl
    have := two_le_nmax s.params
    show (hpsBuild o.toNat s.opLen (s.magnitudes b s.opLen)).length ≤ s.params.nmax
    rw [hpsBuild_length]
    omega
  | peaks b maxp =>
    cases h
    have hc : maxp.toNat ≤ s.params.peakCap := by
      have : (Instr.peaks b maxp).maxPeaksLegal s.params = true := ((Bool.and_eq_true _ _).mp hw).2
      exact Nat.le_of_ble_eq_true this
    have hl : (s.foundPeaks b maxp.toNat).length ≤ s.params.peakCap := Nat.le_trans (peakList_length_le _ _ _ _ _) hc
    refine ⟨⟨storePeaks_mem_wf _ _ _ hm, fun c hcm => ?_⟩, ?_⟩
    · rcases mem_storePeaks _ _ _ _ hcm with h | h
      · exact ha c h
      · rw [isBufferOffset_iff]
        simp only [pAddr, pBase] at h
        omega
    · show (BitVec.ofNat 8 _).toNat ≤ s.params.peakCap
      rw [BitVec.toNat_ofNat]
      omega

end Sys2Proof.Machine
end

