-- ==== Sys2Proof/Laws/PerInstr.lean ====
section
/-! SUPPORT. A fact about every command as syntax: its word has no reserved bit set. -/

namespace Sys2Proof.Laws.ReservedBits

/-- Bits 7, 11:10 and 31:24 of the word of a command are 0, whatever its operands (30_encoding.md R91, R99). -/
def Statement (i : Instr) : Prop := encode i &&& 0xFF000C80 = 0

theorem nop : Statement .nop := by unfold Statement; decide

theorem fft (b : CBuf) (dir : Dir) : Statement (.fft b dir) := by
  unfold Statement; cases b <;> cases dir <;> decide

theorem mag (d : RBuf) (b : CBuf) : Statement (.mag d b) := by
  unfold Statement; cases d <;> cases b <;> decide

theorem peaks (b : RBuf) (maxp : BitVec 8) : Statement (.peaks b maxp) := by
  unfold Statement; revert maxp; cases b <;> decide +kernel

theorem pitchpk (b : CBuf) : Statement (.pitchpk b) := by
  unfold Statement; cases b <;> decide

theorem pitchhps (b : CBuf) (h : BitVec 4) : Statement (.pitchhps b h) := by
  unfold Statement; revert h; cases b <;> decide +kernel

theorem pitchac (d b : CBuf) : Statement (.pitchac d b) := by
  unfold Statement; cases d <;> cases b <;> decide

theorem conf : Statement .conf := by unfold Statement; decide

theorem win (b : CBuf) (kind : WindowKind) : Statement (.win b kind) := by
  unfold Statement; cases b <;> cases kind <;> decide

end Sys2Proof.Laws.ReservedBits
end

