-- ==== Sys2Proof/Tests/Slice0.lean ====
section
/-! SUPPORT. Tests.  Expected values are the spec's: its encodings (30_encoding.md) and the vectors of
95_test_vectors.md.  The last part shows, for each statement with hypotheses, states and operands that meet
them. -/

namespace Sys2Proof.Tests

open Sys2Proof.Machine Sys2Proof.Spec

/-! ## Well-formedness: the check refuses an ill-formed term of each kind -/

theorem test_harmonics_zero_refused : (Instr.pitchhps .c0 0).harmonicsLegal = false := by decide
theorem test_maxp_above_cap_refused : (Instr.peaks .r1 65).maxPeaksLegal .reference = false := by decide
theorem test_ill_formed_refused :
    (Instr.pitchhps .c1 0).wellFormed .reference = false ∧ (Instr.peaks .r0 255).wellFormed .reference = false := by decide
theorem test_limits_well_formed :
    (Instr.pitchhps .c0 1).wellFormed .reference = true ∧ (Instr.pitchhps .c0 15).wellFormed .reference = true
      ∧ (Instr.peaks .r0 0).wellFormed .reference = true ∧ (Instr.peaks .r0 64).wellFormed .reference = true := by decide

/-! ## Decoding: words written out from the fields of 30_encoding.md R91
(MAXP 23:16, H 15:12, WK 9:8, DIR 6, D 5, S 4, OP 3:0) -/

theorem test_decode_nop : decode 0b00000000_00000000_00000000_00000000 = .ok .nop := by decide
theorem test_decode_fft : decode 0b00000000_00000000_00000000_01010001 = .ok (.fft .c1 .inverse) := by decide
theorem test_decode_mag : decode 0b00000000_00000000_00000000_00110010 = .ok (.mag .r1 .c1) := by decide
theorem test_decode_mag_fields :
    decode 0x00000022 = .ok (.mag .r1 .c0) ∧ decode 0x00000012 = .ok (.mag .r0 .c1) := by decide
theorem test_decode_peaks : decode 0b00000000_10100001_00000000_00010011 = .ok (.peaks .r1 0xA1) := by decide
theorem test_decode_pitchpk : decode 0b00000000_00000000_00000000_00010100 = .ok (.pitchpk .c1) := by decide
theorem test_decode_pitchhps : decode 0b00000000_00000000_10110000_00000101 = .ok (.pitchhps .c0 0xB) := by decide
theorem test_decode_pitchac : decode 0b00000000_00000000_00000000_00100110 = .ok (.pitchac .c1 .c0) := by decide
theorem test_decode_conf : decode 0b00000000_00000000_00000000_00000111 = .ok .conf := by decide
theorem test_decode_win : decode 0b00000000_00000000_00000001_00011000 = .ok (.win .c1 .hamming) := by decide
theorem test_decode_refusals :
    decode 0x0000000F = .error .reservedOpcode ∧ decode 0x00000308 = .error .reservedWindow
      ∧ decode 0x00000021 = .error .strayBits ∧ decode 0x00000010 = .error .strayBits
      ∧ decode 0x00000080 = .error .strayBits ∧ decode 0x01000007 = .error .strayBits := by decide
theorem test_decode_bytes :
    decodeBytes [0x03, 0x00, 0x08, 0x00, 0xFF] = .ok (.peaks .r0 8, [0xFF])
      ∧ decodeBytes [0x03, 0x00, 0x08] = .error .truncated := by decide

/-! ## One step from small states -/

/-- The value of `f` after a step that goes on. -/
def after {α : Type} (o : Host.Outcome State Fault Refusal) (f : State → α) : Option α :=
  match o with
  | .next t => some (f t)
  | .fault _ => none
  | .refused _ => none

/-- The reset state with word `w` pending under LEN and FS. -/
def pendingOf (w : CmdWord) (len fs : BitVec 32) : State :=
  { State.reset with cmd := w, len := len, fs := fs, pending := some ⟨w, len, fs⟩ }

/-- Complex entries with imaginary parts +0. -/
def realsOf (xs : List F64) : List Cplx := xs.map fun x => ⟨x, 0⟩

/-- R133's example: STATUS reads DONE and nothing else. -/
theorem test_nop_sets_done :
    after (step (pendingOf 0x00000000 0 0)) State.statusWord = some 2 := by decide +kernel

/-- V-FFT-3 -/
theorem test_fft_forward :
    after (step ((pendingOf 0x00000001 4 0).storeC .c0
      (realsOf [0x3FF0000000000000, 0x4000000000000000, 0x4008000000000000, 0x4010000000000000])))
      (fun t => t.loadC .c0 4) =
    some [⟨0x4024000000000000, 0x0000000000000000⟩, ⟨0xC000000000000000, 0x4000000000000000⟩, ⟨0xC000000000000000, 0x0000000000000000⟩, ⟨0xBFFFFFFFFFFFFFFF, 0xC000000000000000⟩] := by decide +kernel

/-- V-FFT-6 -/
theorem test_fft_inverse :
    after (step ((pendingOf 0x00000051 2 0).storeC .c1 (realsOf [0x3FF0000000000000, 0x4000000000000000])))
      (fun t => t.loadC .c1 2) = some [⟨0x3FF8000000000000, 0x0000000000000000⟩, ⟨0xBFE0000000000000, 0x0000000000000000⟩] := by decide +kernel

/-- V-MAG-1 -/
theorem test_mag :
    after (step ((pendingOf 0x00000022 4 0).storeC .c0
      [⟨0x4008000000000000, 0x4010000000000000⟩, ⟨0x0000000000000000, 0x0000000000000000⟩, ⟨0x3FF0000000000000, 0x3FF0000000000000⟩, ⟨0x8000000000000000, 0xC000000000000000⟩]))
      (fun t => t.loadR .r1 4) = some [0x4014000000000000, 0x0000000000000000, 0x3FF6A09E667F3BCD, 0x4000000000000000] := by decide +kernel

/-- V-MAG-2 -/
theorem test_mag_overflow :
    after (step ((pendingOf 0x00000002 1 0).storeC .c0 (realsOf [0x6974E718D7D7625A])))
      (fun t => t.rAt .r0 0) = some 0x7FF0000000000000 := by decide +kernel

/-- V-PEAKS-1 -/
theorem test_peaks_sorts :
    after (step ((pendingOf 0x00080003 16 1000).storeR .r0
      [0x3FF0000000000000, 0x3FC999999999999A, 0x3FE0000000000000, 0x3FD3333333333333, 0x3FE6666666666666, 0x3FA999999999999A, 0x3FA999999999999A, 0x3FECCCCCCCCCCCCD]))
      (fun t => (t.pcount, (List.range 3).map fun k => (t.wordAt (pAddr 0 + 8 * k), t.wordAt (pAddr 1 + 8 * k)))) =
    some (2, [(4, 2), (0x406F400000000000, 0x405F400000000000), (0x3FE6666666666666, 0x3FE0000000000000)]) := by decide +kernel

/-- V-PEAKS-2 -/
theorem test_peaks_cap_precedes_sort :
    after (step ((pendingOf 0x00010003 16 1000).storeR .r0
      [0x3FF0000000000000, 0x3FC999999999999A, 0x3FE0000000000000, 0x3FD3333333333333, 0x3FE6666666666666, 0x3FA999999999999A, 0x3FA999999999999A, 0x3FECCCCCCCCCCCCD]))
      (fun t => (t.pcount, t.wordAt (pAddr 0), t.wordAt (pAddr 0 + 16))) = some (1, 2, 0x3FE0000000000000) := by decide +kernel

/-- V-PK-1, in the entries its band and neighbours reach -/
theorem test_pitchpk_refines :
    after (step ((pendingOf 0x00000004 16 1000).storeC .c0
      (realsOf ([0x0000000000000000, 0x3FF0000000000000, 0x4008000000000000, 0x4000000000000000] ++ List.replicate 12 0))))
      (fun t => (t.pkBin, t.fPeak)) = some (2, 0x4060ED5555555555) := by decide +kernel

/-- V-PK-4 -/
theorem test_pitchpk_larger_neighbour :
    after (step ((pendingOf 0x00000004 16 1000).storeC .c0
      (realsOf ([0x4022000000000000, 0x3FF0000000000000, 0x3FE0000000000000] ++ List.replicate 13 0))))
      (fun t => (t.pkBin, t.fPeak)) = some (1, 0x40587AAAAAAAAAAB) := by decide +kernel

/-- V-HPS-1 -/
theorem test_pitchhps :
    after (step ((pendingOf 0x00002005 16 1000).storeC .c0
      (realsOf ([0x0000000000000000, 0x3FF0000000000000, 0x4000000000000000, 0x3FF0000000000000, 0x4004000000000000, 0x3FB999999999999A, 0x3FE0000000000000, 0x3FB999999999999A, 0x3FC999999999999A] ++ List.replicate 7 0))))
      (fun t => (t.hpsBin, t.fHps, t.loadR .r1 9)) =
    some (2, 0x405F400000000000, [0x0000000000000000, 0x4000000000000000, 0x4014000000000000, 0x3FE0000000000000, 0x3FE0000000000000, 0x3FB999999999999A, 0x3FE0000000000000, 0x3FB999999999999A, 0x3FC999999999999A]) := by decide +kernel

/-- V-HPS-4 -/
theorem test_pitchhps_empty_range :
    after (step ((pendingOf 0x0000F005 16 1000).storeC .c0
      (realsOf ([0x0000000000000000, 0x3FF0000000000000, 0x4000000000000000, 0x3FF0000000000000, 0x4004000000000000, 0x3FB999999999999A, 0x3FE0000000000000, 0x3FB999999999999A, 0x3FC999999999999A] ++ List.replicate 7 0))))
      (fun t => (t.hpsBin, t.fHps, t.loadR .r0 9)) =
    some (0, 0, [0x0000000000000000, 0x3FF0000000000000, 0x4000000000000000, 0x3FF0000000000000, 0x4004000000000000, 0x3FB999999999999A, 0x3FE0000000000000, 0x3FB999999999999A, 0x3FC999999999999A]) := by decide +kernel

/-- V-AC-3: the input is overwritten, with the residues -/
theorem test_pitchac :
    after (step ((pendingOf 0x00000006 4 1000).storeC .c0
      (realsOf [0x3FF0000000000000, 0x4000000000000000, 0x4008000000000000, 0x4010000000000000])))
      (fun t => (t.acLag, t.fAc, t.loadC .c0 4)) =
    some (1, 0x408F400000000000, [⟨0x403E000000000000, 0x0000000000000000⟩, ⟨0x4038000000000000, 0x3CB0000000000000⟩, ⟨0x4036000000000000, 0x0000000000000000⟩, ⟨0x4038000000000000, 0xBCB0000000000000⟩]) := by decide +kernel

/-- V-AC-4 -/
theorem test_pitchac_length_one :
    after (step ((pendingOf 0x00000026 1 400).storeC .c0 (realsOf [0x4014000000000000])))
      (fun t => (t.acLag, t.fAc, t.cAt .c1 0)) = some (0, 0, ⟨0x4039000000000000, 0⟩) := by decide +kernel

/-- V-CONF-1 -/
theorem test_conf :
    after (step
      { pendingOf 0x00000007 0 0 with fPeak := 0x407B800000000000, fHps := 0x407B900000000000, fAc := 0x407B700000000000 }) State.conf = some 0x3FEFF0D393E2EF29 := by decide +kernel

/-- V-CONF-7 -/
theorem test_conf_negative_mean :
    after (step
      { pendingOf 0x00000007 0 0 with fPeak := 0xBFF0000000000000, fHps := 0xBFF0000000000000, fAc := 0xBFF0000000000000 }) State.conf = some 0x3FF0000000000000 := by decide +kernel

/-- V-WIN-2 -/
theorem test_win_hamming :
    after (step ((pendingOf 0x00000108 4 0).storeC .c0
      [⟨0x3FF0000000000000, 0x3FF0000000000000⟩, ⟨0x4000000000000000, 0xC000000000000000⟩, ⟨0x4008000000000000, 0x0000000000000000⟩, ⟨0x4010000000000000, 0x4010000000000000⟩]))
      (fun t => t.loadC .c0 4) =
    some [⟨0x3FB47AE147AE147C, 0x3FB47AE147AE147C⟩, ⟨0x3FF8A3D70A3D70A3, 0xBFF8A3D70A3D70A3⟩,
      ⟨0x40027AE147AE147C, 0x0000000000000000⟩, ⟨0x3FD47AE147AE147C, 0x3FD47AE147AE147C⟩] := by decide +kernel

/-- V-WIN-3, its first two entries -/
theorem test_win_blackman :
    after (step ((pendingOf 0x00000208 4 0).storeC .c0
      [⟨0x3FF0000000000000, 0x3FF0000000000000⟩, ⟨0x4000000000000000, 0xC000000000000000⟩, ⟨0x4008000000000000, 0x0000000000000000⟩, ⟨0x4010000000000000, 0x4010000000000000⟩]))
      (fun t => t.loadC .c0 2) =
    some [⟨0xBC70000000000000, 0xBC70000000000000⟩, ⟨0x3FF428F5C28F5C28, 0xBFF428F5C28F5C28⟩] := by decide +kernel

/-! ## Twiddles and coefficients: the tables of 41_fft.md R163 and 44_window.md R245 -/

/-- R163, m = 2, 8 and 8192 -/
theorem test_twiddles :
    (twiddle .rounded 2 .forward, twiddle .rounded 8 .forward, twiddle .rounded 8192 .inverse) =
    (⟨0xBFF0000000000000, 0xBCA1A62633145C07⟩, ⟨0x3FE6A09E667F3BCD, 0xBFE6A09E667F3BCC⟩,
      ⟨0x3FEFFFFF62161A34, 0x3F4921FB2AECB360⟩) := by decide +kernel

/-! ## Errors, flags, bus -/

/-- Write CMD while idle under LEN and FS, then read STATUS. -/
def issueOf (len fs : BitVec 32) (v : Word) : Word :=
  (hostTxn (.write 0x20 v) { State.reset with len := len, fs := fs }).statusWord

/-- V-ERR-1 to V-ERR-5 -/
theorem test_errors_of_length_and_encoding :
    issueOf 100 44100 0x1 = 0x204 ∧ issueOf 0 0 0x4 = 0x204 ∧ issueOf 100 44100 0xF = 0x104
      ∧ issueOf 16384 44100 0x1 = 0x304 ∧ issueOf 16 44100 0x5 = 0x404 := by decide

/-- V-ERR-6 to V-ERR-10 -/
theorem test_errors_of_operands :
    issueOf 16 0 0x26 = 0x504 ∧ issueOf 16 44100 0x410003 = 0x404 ∧ issueOf 16 44100 0x21 = 0x104
      ∧ issueOf 16 44100 0x308 = 0x104 ∧ issueOf 16 44100 0x10 = 0x104 := by decide

/-- V-ERR-11 and V-ERR-12: accepted. -/
theorem test_accepted : issueOf 0 0 0x7 = 0x1 ∧ issueOf 8192 0 0x1 = 0x1 := by decide

/-- P-2: clearing ERR leaves ERRCODE. -/
theorem test_acknowledge_keeps_errcode :
    (hostTxn (.write 0x18 0x4) (hostTxn (.write 0x20 0x26) { State.reset with len := 6 })).statusWord = 0x200 := by
  decide

/-- R283: soft reset with IE = 1 written leaves IE 0, and a CTRL write while BUSY is honoured. -/
theorem test_soft_reset_clears_ie :
    (hostTxn (.write 0x10 0x3) { pendingOf 0x1 4 0 with ie := true }).ctrlWord = 0
      ∧ (hostTxn (.write 0x10 0x1) (pendingOf 0x1 4 0)).ctrlWord = 1 := by decide

/-- R62: the first and last word of regions, and the words after them. -/
theorem test_address_map :
    target .reference 0x000078 = some (.reg .acLag) ∧ target .reference 0x000080 = none ∧ target .reference 0x11FFF8 = some (.buffer 0x11FFF8)
      ∧ target .reference 0x120000 = none ∧ target .reference 0x38FFF8 = some (.buffer 0x38FFF8) ∧ target .reference 0x390000 = none
      ∧ target .reference 0x4007F8 = some (.buffer 0x4007F8) ∧ target .reference 0x400800 = none ∧ target .reference 0x100004 = none := by decide

/-- The canonical form refuses a repeated offset and a descent. -/
theorem test_memory_form :
    ¬Memory.wf [(8, 1), (8, 2)] ∧ ¬Memory.wf [(9, 1), (8, 2)] ∧ Memory.wf [(8, 1), (9, 2)] := by decide


/-! ## Hypotheses of the statements, met together -/

/-- `pendingOf w len fs` holds the command `w` decodes to. -/
theorem holds_pendingOf (w : CmdWord) (len fs : BitVec 32) (i : Instr) (h : check .reference w len fs = .ok i) :
    (pendingOf w len fs).holds i := ⟨⟨w, len, fs⟩, rfl, h⟩

theorem witness_decode_and_encode : decode 0x00000036 = .ok (.pitchac .c1 .c1) := by decide

theorem witness_illegal_words :
    State.reset.busy = false ∧ decode ((0xFFFFFFFF00000080 : Word).setWidth 32) = .error .strayBits := by decide

theorem witness_check_of_legal_and_illegal :
    (true = true ↔ ∃ op, IsCommand 0x00000208 op) ∧ (false = true ↔ ∃ op, IsCommand 0x00000308 op) := by
  refine ⟨⟨fun _ => ⟨8, (8, 0x00000008, 0xFFFFFCEF), by decide, rfl, by decide, by decide⟩, fun _ => rfl⟩, ?_⟩
  refine ⟨fun h => (Bool.false_ne_true h).elim, ?_⟩
  rintro ⟨op, row, hr, rfl, hm, hk⟩
  have h8 : ∀ row ∈ rows, (0x00000308 : CmdWord) &&& row.2.2 = row.2.1 → row.1 = 8 := by decide
  exact absurd rfl (hk (h8 row hr hm))

theorem witness_cmd_write_busy : (pendingOf 0x00000001 4 0).busy = true := by decide
theorem witness_cmd_write_rejected :
    State.reset.busy = false ∧ check .reference ((0x1 : Word).setWidth 32) State.reset.len State.reset.fs = .error .invalidSize := by
  decide
theorem witness_cmd_write_accepted :
    State.reset.busy = false ∧ check .reference ((0x7 : Word).setWidth 32) State.reset.len State.reset.fs = .ok .conf := by
  decide

theorem witness_step_runs_pending :
    (pendingOf 0x00000001 4 0).pending = some ⟨0x00000001, 4, 0⟩ ∧ decode 0x00000001 = .ok (.fft .c0 .forward)
      ∧ check .reference 0x00000001 4 0 = .ok (.fft .c0 .forward) ∧ (pendingOf 0x00000001 4 0).turns = []
      ∧ { pendingOf 0x00000001 4 0 with turns := [.engine, .powerOn] }.turns = .engine :: [.powerOn] := by decide

theorem witness_step_runs_host :
    { State.reset with turns := [.host (.read 0x18)] }.turns = .host (.read 0x18) :: [] := rfl

theorem witness_idle :
    State.reset.busy = false ∧ State.reset.turns = [] ∧ { State.reset with turns := [.engine] }.turns = .engine :: [] := by
  decide

theorem witness_fetch_word : (Instr.pitchhps .c0 15).wellFormed .reference = true ∧ (Instr.peaks .r1 64).wellFormed .reference = true := by
  decide

/-- A command of each kind is held, at the smallest and the largest length, count and order. -/
theorem witness_fft_held :
    (pendingOf 0x00000001 1 0).holds (.fft .c0 .forward) ∧ (pendingOf 0x00000051 8192 0).holds (.fft .c1 .inverse) :=
  ⟨holds_pendingOf _ _ _ _ (by decide), holds_pendingOf _ _ _ _ (by decide)⟩
theorem witness_mag_held :
    (pendingOf 0x00000002 1 0).holds (.mag .r0 .c0) ∧ (pendingOf 0x00000032 8192 0).holds (.mag .r1 .c1) :=
  ⟨holds_pendingOf _ _ _ _ (by decide), holds_pendingOf _ _ _ _ (by decide)⟩
theorem witness_peaks_held :
    (pendingOf 0x00000003 1 1).holds (.peaks .r0 0) ∧ (pendingOf 0x00400013 8192 44100).holds (.peaks .r1 64) :=
  ⟨holds_pendingOf _ _ _ _ (by decide), holds_pendingOf _ _ _ _ (by decide)⟩
theorem witness_pitchpk_held :
    (pendingOf 0x00000004 1 1).holds (.pitchpk .c0) ∧ (pendingOf 0x00000014 8192 0xFFFFFFFF).holds (.pitchpk .c1) :=
  ⟨holds_pendingOf _ _ _ _ (by decide), holds_pendingOf _ _ _ _ (by decide)⟩
theorem witness_pitchhps_held :
    (pendingOf 0x00001005 1 1).holds (.pitchhps .c0 1)
      ∧ (pendingOf 0x0000F015 8192 0xFFFFFFFF).holds (.pitchhps .c1 15) :=
  ⟨holds_pendingOf _ _ _ _ (by decide), holds_pendingOf _ _ _ _ (by decide)⟩
theorem witness_pitchac_held :
    (pendingOf 0x00000006 1 1).holds (.pitchac .c0 .c0) ∧ (pendingOf 0x00000026 8192 44100).holds (.pitchac .c1 .c0) :=
  ⟨holds_pendingOf _ _ _ _ (by decide), holds_pendingOf _ _ _ _ (by decide)⟩
theorem witness_win_held :
    (pendingOf 0x00000008 1 0).holds (.win .c0 .hann) ∧ (pendingOf 0x00000218 8192 0).holds (.win .c1 .blackman) :=
  ⟨holds_pendingOf _ _ _ _ (by decide), holds_pendingOf _ _ _ _ (by decide)⟩

theorem witness_commands_write_their_row :
    ∃ t, (pendingOf 0x00000014 1 1).holds (.pitchpk .c1) ∧ exec (.pitchpk .c1) (pendingOf 0x00000014 1 1) = .next t :=
  ⟨_, holds_pendingOf _ _ _ _ (by decide), rfl⟩

/-- Two states that agree on what CONF reads and nowhere else need to. -/
theorem witness_results_depend :
    ∃ t t',
      let s := pendingOf 0x00000007 4 5
      let s' := { pendingOf 0x00000007 4 5 with haz := true, peakThr := 7, pkBin := 9, epoch := 3 }
      s.holds .conf ∧ s'.holds .conf ∧ s.params = s'.params ∧ s.opLen = s'.opLen ∧ s.opFs = s'.opFs
        ∧ (∀ a, ReadsByte .conf s.opLen a → s.byteAt a = s'.byteAt a)
        ∧ (opcode .conf = 3 → s.peakThr = s'.peakThr)
        ∧ (opcode .conf = 7 → s.fPeak = s'.fPeak ∧ s.fHps = s'.fHps ∧ s.fAc = s'.fAc)
        ∧ exec .conf s = .next t ∧ exec .conf s' = .next t' :=
  ⟨_, _, ⟨_, rfl, by decide⟩, ⟨_, rfl, by decide⟩, rfl, rfl, rfl, fun _ h => h.elim, fun h => absurd h (by decide),
    fun _ => ⟨rfl, rfl, rfl⟩, rfl, rfl⟩

theorem witness_swap_loop : ([⟨1, 2⟩, ⟨3, 4⟩, ⟨5, 6⟩, ⟨7, 8⟩] : List Cplx).length = 2 ^ 2 ∧ 3 < 2 ^ 2 := by decide

theorem witness_power_spectrum :
    (isNaN one = false ∧ isFinite (fmul two three) = true) ∧ isInf (fmul 0x7FE0000000000000 two) = true
      ∧ isNaN 0x7FF0000000000001 = true ∧ isNaN 0xFFFFFFFFFFFFFFFF = true := by decide +kernel

theorem witness_magnitudes :
    isNaN 0x7FF8000000000000 = true ∧ isNaN plusZero = false ∧ isInf 0xFFF0000000000000 = true := by decide

theorem witness_length_one : (pendingOf 0x00000001 1 0).opLen = 1 := by decide

/-- The other end of the legal parameters of R7: the smallest buffers, the longest peak list, the other denominator. -/
def smallParams : Params :=
  { Params.reference with log2Nmax := 1, peakCap := 255, winDenom := .n, legal := by decide }

/-- Under other parameters the checks, the map and CFG follow them (R7, R28, R62, R262, R266). -/
theorem test_other_parameters :
    check smallParams 0x00000001 4 0 = .error .sizeRange ∧ check smallParams 0x00FF0003 2 1 = .ok (.peaks .r0 255)
      ∧ target smallParams 0x100018 = some (.buffer 0x100018) ∧ target smallParams 0x100020 = none
      ∧ target smallParams 0x401FD8 = some (.buffer 0x401FD8) ∧ target smallParams 0x401FE0 = none
      ∧ cfgWord smallParams = 0xFF01 := by decide

/-- R244 with the denominator N: the second Hann coefficient of length 2 is at half the period. -/
theorem test_periodic_window : winCoef smallParams .hann 1 2 = 0x3FF0000000000000 := by decide +kernel

theorem witness_window_lengths :
    (Params.reference.winCoef = .default ∧ Params.reference.trig = .rounded ∧ Params.reference.winDenom = .nMinusOne)
      ∧ 2 ≤ 2 ∧ 2 ≤ smallParams.nmax ∧ 2 ≤ 8192 ∧ 8192 ≤ Params.reference.nmax := by decide

theorem witness_window_formulas :
    (if smallParams.winDenom = .n then 2 else 2 - 1) ≠ 0
      ∧ (if Params.reference.winDenom = .n then 1 else 1 - 1) = 0 := by decide

theorem witness_confidence :
    isNaN 0x7FF8000000000000 = true ∧ isZero 0x8000000000000000 = true ∧ isZero plusZero = true := by decide

theorem witness_confidence_infinite :
    isInf 0x7FF0000000000000 = true ∧ isInf 0xFFF0000000000000 = true ∧ isNaN 0xFFF0000000000000 = false := by decide

/-- One value for each clause on comparisons: a NaN, finite ones, and, no NaNs, the infinities and both zeros. -/
theorem witness_comparisons :
    isNaN 0x7FF8000000000000 = true ∧ isFinite 0x3FF0000000000000 = true ∧ isFinite 0x8000000000000000 = true
      ∧ isNaN plusInf = false ∧ isNaN (negated plusInf) = false ∧ isNaN plusZero = false := by
  decide

theorem witness_float_operands :
    isFinite 0x7FEFFFFFFFFFFFFF = true ∧ isFinite 0x0000000000000001 = true ∧ isZero 0x0000000000000001 = false := by
  decide

theorem witness_float_root : isFinite plusZero = true ∧ 0 ≤ real plusZero := by
  refine ⟨by decide, ?_⟩
  have : toRat plusZero = 0 := by
    have : exactInt plusZero = 0 := by decide
    simp [toRat, this]
  simp [real, this]

/-- +0 and -0 denote 0, so the zero-sum and zero-difference cases occur for both signs. -/
theorem witness_zero_sums :
    real 0x8000000000000000 + real 0x8000000000000000 = 0 ∧ real 0x8000000000000000 = real plusZero := by
  have h1 : real 0x8000000000000000 = 0 := by
    have : exactInt 0x8000000000000000 = 0 := by decide
    unfold real toRat; rw [this]; simp
  have h2 : real plusZero = 0 := by
    have : exactInt plusZero = 0 := by decide
    unfold real toRat; rw [this]; simp
  exact ⟨by rw [h1]; simp, by rw [h1, h2]⟩

theorem witness_special_operands :
    (isFinite one = true ∧ isZero one = false ∧ isZero 0x8000000000000000 = true)
      ∧ (isInf plusInf = true ∧ signOf plusInf = signOf plusInf)
      ∧ (isZero (negated one) = false ∧ signOf (negated one) = true)
      ∧ isNaN 0xFFF0000000000001 = true := by decide

theorem witness_signs_and_infinities :
    isNaN (fmul plusZero (negated one)) = false ∧ isNaN (fdiv one plusInf) = false
      ∧ isNaN (fsqrt 0x8000000000000000) = false
      ∧ (isInf (negated plusInf) = true ∧ isFinite one = true ∧ isNaN one = false) := by decide +kernel

theorem witness_integers : (9007199254740991 < 2 ^ 53 ∧ 0 < 2 ^ 53)
    ∧ (65535 < 2 ^ 16 ∧ 16 ≤ 16 ∧ 0xFFFFFFFF < 2 ^ 32) := by decide

/-- A misaligned, an unmapped and a mapped offset. -/
theorem witness_bus_offsets :
    ¬((0x000004 : Offset).toNat % 8 = 0 ∧ Mapped .reference (0x000004 : Offset).toNat)
      ∧ ¬((0x400800 : Offset).toNat % 8 = 0 ∧ Mapped .reference (0x400800 : Offset).toNat)
      ∧ ((0x4007F8 : Offset).toNat % 8 = 0 ∧ Mapped .reference (0x4007F8 : Offset).toNat) := by
  unfold Mapped; decide

/-- A busy state, and offsets under each clause of the busy rule: the first and last buffer word, every kind of
register. -/
theorem witness_busy_rule :
    (pendingOf 0x00000001 4 0).busy = true
      ∧ BufferWord .reference (0x100000 : Offset).toNat ∧ BufferWord .reference (0x4007F8 : Offset).toNat
      ∧ (0x58 : Offset).toNat ∈ [0x20, 0x28, 0x30, 0x38, 0x48, 0x50, 0x58]
      ∧ (0x78 : Offset).toNat ∈ [0x00, 0x08, 0x40, 0x60, 0x68, 0x70, 0x78] ∧ (0x18 : Offset).toNat = 0x18
      ∧ ((0x10 : Offset).toNat = 0x10 ∧ (0x1 : Word).getLsbD 1 = false ∧ (0x2 : Word).getLsbD 1 = true)
      ∧ (0x00 : Offset).toNat ≤ 0x78 ∧ (0x00 : Offset).toNat % 8 = 0 := by
  unfold BufferWord Mapped; decide

theorem witness_register_writes :
    State.reset.busy = false ∧ (0x1 : Word).getLsbD 1 = false
      ∧ (0x60 : Offset).toNat ∈ [0x00, 0x08, 0x40, 0x60, 0x68, 0x70, 0x78] := by decide

theorem witness_buffer_words :
    State.reset.busy = false ∧ BufferWord .reference (0x100000 : Offset).toNat ∧ BufferWord .reference (0x100008 : Offset).toNat
      ∧ (0x100008 : Offset) ≠ 0x100000 := by
  unfold BufferWord Mapped; decide

theorem witness_hazard :
    ∃ t, let s := { pendingOf 0x00000001 4 0 with turns := [.host (.read 0x100000)] }
      step s = .next t ∧ s.haz = false ∧ t.haz = true := ⟨_, rfl, rfl, by decide⟩

theorem witness_irq_clauses :
    check .reference ((0xF : Word).setWidth 32) State.reset.len State.reset.fs = .error .illegalCmd
      ∧ ((0x6 : Word).getLsbD 1 = true ∧ (0x6 : Word).getLsbD 2 = true)
      ∧ ((0x1 : Word).getLsbD 0 = true ∧ (0x1 : Word).getLsbD 1 = false) := by decide

/-- R100's first example, a line that names nothing, and the moves of `wait`. -/
theorem test_assembler :
    (assemble "FFT" [.cbuf .c1, .word "inv"]).map encode = some 0x00000051
      ∧ assemble "FFT" [.rbuf .r1, .word "inv"] = none ∧ assemble "PITCHHPS" [.cbuf .c0, .number 16] = none := by
  decide

theorem witness_wait :
    ({ pendingOf 0x00000007 0 0 with turns := (HostLine.wait 1).turns ++ [] } : State).holds .conf
      ∧ (HostLine.wait 1).turns ++ [] = [.host (.read 0x18), .engine, .host (.read 0x18)] :=
  ⟨⟨_, rfl, by decide⟩, by decide⟩

/-- A pending command that passes its check, in the reset state otherwise, meets the invariant. -/
theorem inv_pendingOf (w : CmdWord) (len fs : BitVec 32) (i : Instr) (h : check .reference w len fs = .ok i) :
    Inv (pendingOf w len fs) where
  memWf := List.Pairwise.nil
  memMapped := by intro c hc; cases hc
  pendingAccepted := by rintro p hp; cases hp; exact ⟨rfl, rfl, rfl, i, h⟩
  busyFlags := fun _ => ⟨rfl, rfl, rfl⟩
  doneFlags := fun h => absurd h Bool.false_ne_true
  errFlags := fun h => absurd h Bool.false_ne_true
  pcountBound := Nat.zero_le _

theorem witness_soft_reset :
    Inv (pendingOf 0x00400003 16 1000) ∧ (0x2 : Word).getLsbD 1 = true
      ∧ (pendingOf 0x00400003 16 1000).holds (.peaks .r0 64)
      ∧ 0x400000 % 8 = 0 ∧ LosesByte (.peaks .r0 64) (pendingOf 0x00400003 16 1000).opLen 0x400000
      ∧ LosesByte (.peaks .r0 64) (pendingOf 0x00400003 16 1000).opLen 0x4007F0 :=
  ⟨inv_pendingOf _ _ _ (.peaks .r0 64) (by decide), by decide, holds_pendingOf _ _ _ _ (by decide), by decide,
    ⟨0, by decide, by decide⟩, ⟨63, by decide, by decide⟩⟩

theorem witness_invariant_step :
    ∃ t, Inv (pendingOf 0x00000001 1 0) ∧ step (pendingOf 0x00000001 1 0) = .next t :=
  ⟨_, inv_pendingOf _ _ _ (.fft .c0 .forward) (by decide), rfl⟩

theorem witness_stays_pending :
    ∃ t, let s := { pendingOf 0x00000001 4 0 with turns := [.host (.write 0x28 8)] }
      s.pending = some ⟨0x00000001, 4, 0⟩ ∧ step s = .next t ∧ t.pending = some ⟨0x00000001, 4, 0⟩ :=
  ⟨_, rfl, rfl, by decide⟩

theorem witness_completes : Inv (pendingOf 0x00000007 0 0) ∧ (pendingOf 0x00000007 0 0).busy = true :=
  ⟨inv_pendingOf _ _ _ .conf (by decide), by decide⟩

theorem witness_power_on :
    ∃ t, let s := { pendingOf 0x00000001 4 0 with turns := [.powerOn, .engine] }
      s.turns = .powerOn :: [.engine] ∧ step s = .next t ∧ s.busy = true ∧ t.busy = false :=
  ⟨_, rfl, rfl, by decide, by decide⟩

theorem witness_falls_at_soft_reset :
    ∃ t, let s := { pendingOf 0x00000007 0 0 with turns := [.host (.write 0x10 2)], haz := true }
      step s = .next t ∧ s.busy = true ∧ t.busy = false ∧ s.haz = true ∧ t.haz = false :=
  ⟨_, rfl, by decide, by decide, by decide, by decide⟩

theorem witness_haz_falls_at_status_write :
    ∃ t, let s := { State.reset with turns := [.host (.write 0x18 8)], haz := true }
      step s = .next t ∧ s.haz = true ∧ t.haz = false := ⟨_, rfl, by decide, by decide⟩

/-- `irq` falls at each of the host's four ways to drop it. -/
theorem witness_irq_falls :
    ∀ tx ∈ [Txn.write 0x18 0x2, .write 0x10 0, .write 0x10 3, .write 0x20 7],
      ∃ t, let s := { State.reset with turns := [.host tx], ie := true, done := true }
        step s = .next t ∧ s.irq = true ∧ t.irq = false := by
  intro tx h
  simp only [List.mem_cons, List.not_mem_nil, or_false] at h
  rcases h with rfl | rfl | rfl | rfl <;> exact ⟨_, rfl, by decide, by decide⟩

theorem witness_becomes_busy :
    ∃ t, let s := { State.reset with turns := [.host (.write 0x20 0)] }
      step s = .next t ∧ s.busy = false ∧ t.busy = true := ⟨_, rfl, by decide, by decide⟩

/-- The sentinel's hypotheses, for the empty ranges of length 1. -/
theorem witness_nothing_found_pitchpk :
    ∃ t, let s := pendingOf 0x00000004 1 1
      s.holds (.pitchpk .c0) ∧ exec (.pitchpk .c0) s = .next t
        ∧ ∀ i, s.params.pkFmin * s.opLen / s.opFs ≤ i → i ≤ min (s.params.pkFmax * s.opLen / s.opFs) (s.opLen / 2) →
          fgt (magnitude (s.cAt .c0 i)) plusZero = false := by
  refine ⟨_, holds_pendingOf _ _ _ _ (by decide), rfl, fun i h1 h2 => ?_⟩
  have h1 : 80 ≤ i := h1
  have h2 : i ≤ 0 := h2
  omega

theorem witness_nothing_found_pitchhps :
    ∃ t, let s := pendingOf 0x0000F005 1 1
      s.holds (.pitchhps .c0 15) ∧ exec (.pitchhps .c0 15) s = .next t
        ∧ ∀ i, s.params.hpsFmin * s.opLen / s.opFs ≤ i →
          i ≤ min (s.params.hpsFmax * s.opLen / s.opFs) (s.opLen / (2 * (15 : BitVec 4).toNat)) →
          fgt (t.rAt .r1 i) plusZero = false := by
  refine ⟨_, holds_pendingOf _ _ _ _ (by decide), rfl, fun i h1 h2 => ?_⟩
  have h1 : 80 ≤ i := h1
  have h2 : i ≤ 0 := h2
  omega

theorem witness_nothing_found_pitchac :
    ∃ t, let s := pendingOf 0x00000026 1 1
      s.holds (.pitchac .c1 .c0) ∧ exec (.pitchac .c1 .c0) s = .next t
        ∧ ∀ i, max 1 (s.opFs / s.params.acFmax) ≤ i → i ≤ min (s.opFs / s.params.acFmin) (s.opLen / 2) →
          fgt (t.cAt .c1 i).re plusZero = false := by
  refine ⟨_, holds_pendingOf _ _ _ _ (by decide), rfl, fun i h1 h2 => ?_⟩
  have h1 : 1 ≤ i := h1
  have h2 : i ≤ 0 := h2
  omega

end Sys2Proof.Tests
end

section
namespace Sys2Proof.Machine

open Sys2Proof.Spec

/-! ## Sign and magnitude of a pattern -/

theorem signOf_eq_msb (x : F64) : signOf x = x.msb := by
  rw [BitVec.msb_eq_decide, signOf, Bool.eq_iff_iff, Nat.ble_eq, decide_eq_true_iff]

theorem negated_eq_fneg (x : F64) : negated x = fneg x := rfl

@[simp] theorem fneg_fneg (x : F64) : fneg (fneg x) = x := by simp [fneg]

@[simp] theorem magBits_fneg (x : F64) : magBits (fneg x) = magBits x := by
  rw [magBits, fneg, BitVec.toNat_xor, Nat.xor_mod_two_pow]
  exact Nat.xor_zero _

@[simp] theorem signOf_fneg (x : F64) : signOf (fneg x) = !signOf x := by
  have h : (0x8000000000000000 : F64).msb = true := by decide
  simp only [signOf_eq_msb, fneg, BitVec.msb_xor, h, Bool.xor_true]

@[simp] theorem isFinite_fneg (x : F64) : isFinite (fneg x) = isFinite x := by simp [isFinite]

@[simp] theorem unitsOf_fneg (x : F64) : unitsOf (fneg x) = unitsOf x := by simp [unitsOf]

@[simp] theorem fabs_fneg (x : F64) : fabs (fneg x) = fabs x := by simp [fabs]

/-! ## The laws of COS64 and SIN64 (00_scope.md R7) -/

@[simp] theorem cos64_fneg (trig : Trig) (x : F64) : cos64 trig (fneg x) = cos64 trig x := by
  cases trig <;> simp [cos64]

@[simp] theorem sinMagnitude_fneg (trig : Trig) (x : F64) :
    sinMagnitude trig (fneg x) = sinMagnitude trig x := by
  cases trig <;> simp [sinMagnitude]

@[simp] theorem sin64_fneg (trig : Trig) (x : F64) : sin64 trig (fneg x) = fneg (sin64 trig x) := by
  cases h : signOf x <;> simp [sin64, h]

/-- Settles O26: only the magnitude of an angle enters its cosine, and its sign is put on the sine of the
magnitude; the FORWARD angle is the INVERSE one with its sign flipped. -/
theorem inverseTwiddleIsTheConjugate : Obligations.InverseTwiddleIsTheConjugate := by
  unfold Obligations.InverseTwiddleIsTheConjugate
  refine ⟨fun trig x => ⟨cos64_fneg trig x, sin64_fneg trig x⟩, fun trig m => ?_⟩
  simp [twiddle, negated_eq_fneg]

/-! ## Parameters -/

@[simp] theorem issue_params (w : CmdWord) (s : State) : (issue w s).params = s.params := by
  obtain ⟨_, _, h⟩ | ⟨_, _, _, h⟩ := issue_cases w s <;> rw [h]

theorem hostTxn_params (tx : Txn) (s : State) : (hostTxn tx s).params = s.params := by
  obtain ⟨_, _, _, _, e, -⟩ | ⟨_, -, -, e⟩ | ⟨_, -, -, e⟩ | ⟨_, -, e⟩ | ⟨v, -, -, e⟩
    | ⟨-, _, _, _, _, _, _, e⟩ :=
    hostTxn_cases tx s <;> rw [e]
  case inr.inr.inr.inr.inl => exact issue_params (v.setWidth 32) s
  all_goals rfl

theorem engineStep_params (s t : State) (h : engineStep s = .next t) : t.params = s.params := by
  obtain ⟨-, rfl⟩ | ⟨hp, -⟩ := engineStep_next s t h
  · rfl
  · exact hp

/-- Settles O52: the engine, a host transaction (a soft reset among them) and a power-on reset each keep the
parameters. -/
theorem stepsKeepTheParameters : Obligations.StepsKeepTheParameters := by
  unfold Obligations.StepsKeepTheParameters
  intro s t h
  obtain ⟨-, e⟩ | ⟨rest, -, e⟩ | ⟨tx, rest, -, e⟩ | ⟨rest, -, e⟩ := step_cases s <;> rw [e] at h
  · exact engineStep_params s t h
  · exact engineStep_params { s with turns := rest } t h
  · cases h; exact hostTxn_params tx _
  · cases h; rfl

/-! ## Window coefficients (44_window.md R244) -/

theorem winCoef_default (p : Params) (kind : WindowKind) (i n : Nat) (h : p.winCoef = .default) :
    winCoef p kind i n = defaultWinCoef p.trig p.winDenom kind i n := by simp [winCoef, h]

theorem winDenom_eq (d : WinDenom) (n : Nat) : winDenom d n = if d = .n then n else n - 1 := by
  cases d <;> rfl

/-- Settles O33: the coefficient is the default one, split on whether its denominator is 0. -/
theorem windowCoefficientsAreTheDefaultFormulas : Obligations.WindowCoefficientsAreTheDefaultFormulas := by
  unfold Obligations.WindowCoefficientsAreTheDefaultFormulas
  intro p i n hp
  simp only [winCoef_default p _ i n hp, ← winDenom_eq]
  refine ⟨fun h0 kind => ?_, fun h0 => ⟨?_, ?_, ?_⟩⟩
  · exact if_pos h0
  all_goals exact if_neg h0

end Sys2Proof.Machine
end

section
namespace Sys2Proof.Machine

open Sys2Proof.Spec

/-! ## The base-2 logarithm and the square root -/

theorem log2Below_eq_log (k n : Nat) (h : n < 2 ^ 2 ^ k) : log2Below k n = Nat.log 2 n := by
  induction k generalizing n with
  | zero =>
    have : n < 2 := h
    exact (Nat.log_of_lt this).symm
  | succ k ih =>
    rw [log2Below]
    split
    case isTrue hlt => exact ih n hlt
    case isFalse hge =>
      have hpow : 2 ^ 2 ^ (k + 1) = 2 ^ 2 ^ k * 2 ^ 2 ^ k := by rw [pow_succ 2 k, mul_two, pow_add]
      rw [ih _ (Nat.div_lt_of_lt_mul (hpow ▸ h)), Nat.log_div_base_pow]
      have : 2 ^ k ≤ Nat.log 2 n := Nat.le_log_of_pow_le one_lt_two (not_lt.1 hge)
      omega

theorem floorLog2_eq_log (n : Nat) (h : n < 2 ^ 4096) : floorLog2 n = Nat.log 2 n :=
  log2Below_eq_log 12 n (h.trans_eq (congrArg (2 ^ ·) (by decide : 4096 = 2 ^ 12)))

/-- Newton's step never falls below the root. -/
theorem sqrt_le_newton (n x : Nat) (hx : 0 < x) : Nat.sqrt n ≤ (x + n / x) / 2 := by
  have hr := Nat.sqrt_le n
  have : 2 * Nat.sqrt n - x ≤ n / x := by
    rw [Nat.le_div_iff_mul_le hx]
    refine le_trans ?_ hr
    rcases le_total x (2 * Nat.sqrt n) with h | h
    · zify [h]; nlinarith [sq_nonneg ((Nat.sqrt n : ℤ) - x)]
    · simp [Nat.sub_eq_zero_of_le h]
  omega

/-- Above the root Newton's step at least halves the distance to it. -/
theorem newton_le_midpoint (n x : Nat) (h : Nat.sqrt n < x) : (x + n / x) / 2 ≤ (x + Nat.sqrt n) / 2 := by
  have : n / x < Nat.sqrt n + 1 :=
    Nat.div_lt_of_lt_mul (lt_of_lt_of_le (Nat.lt_succ_sqrt n) (Nat.mul_le_mul_right _ h))
  omega

theorem sqrtLoop_eq_sqrt (k n x : Nat) (hpos : 0 < n) (hle : Nat.sqrt n ≤ x) (hlt : x < Nat.sqrt n + 2 ^ k) :
    sqrtLoop k n x = Nat.sqrt n := by
  induction k generalizing x with
  | zero => rw [sqrtLoop]; omega
  | succ k ih =>
    have hroot := Nat.sqrt_pos.2 hpos
    have hlow := sqrt_le_newton n x (by omega)
    rw [sqrtLoop]
    split
    case isTrue hfall =>
      have hhalf := newton_le_midpoint n x (by omega)
      exact ih _ hlow (by omega)
    case isFalse hstay =>
      by_contra hne
      have := newton_le_midpoint n x (by omega)
      omega

theorem floorSqrt_eq_sqrt (n : Nat) (h : n < 2 ^ 4096) : floorSqrt n = Nat.sqrt n := by
  rw [floorSqrt, floorLog2_eq_log n h]
  split
  case isTrue h0 => simp [h0]
  case isFalse h0 =>
    have hstart : Nat.sqrt n < 2 ^ (Nat.log 2 n / 2 + 1) := by
      rw [Nat.sqrt_lt, ← pow_add]
      exact lt_of_lt_of_le (Nat.lt_pow_succ_log_self one_lt_two n) (Nat.pow_le_pow_right two_pos (by omega))
    have hfuel : 2 ^ (Nat.log 2 n / 2 + 1) < 2 ^ (Nat.log 2 n + 2) :=
      Nat.pow_lt_pow_right one_lt_two (by omega)
    exact sqrtLoop_eq_sqrt _ n _ (by omega) hstart.le (by omega)

/-! ## Magnitudes as multiples of the unit -/

/-- `unitsOf` as a function of the magnitude bits, carried on past the infinity. -/
def magUnits (m : Nat) : Nat :=
  if m / 2 ^ 52 = 0 then m % 2 ^ 52 else (2 ^ 52 + m % 2 ^ 52) * 2 ^ (m / 2 ^ 52 - 1)

theorem unitsOf_eq_magUnits (x : F64) : unitsOf x = magUnits (magBits x) := rfl

/-- A significand of up to 53 bits at scale `s`; the carry into the next binade is covered. -/
theorem magUnits_scaled (s k : Nat) (hk : k ≤ 2 ^ 53) (hs : s = 0 ∨ 2 ^ 52 ≤ k) :
    magUnits (s * 2 ^ 52 + k) = k * 2 ^ s := by
  unfold magUnits
  rcases lt_or_ge k (2 ^ 52) with hsub | hnorm
  · obtain rfl : s = 0 := by omega
    rw [if_pos (by omega)]
    simp only [pow_zero]
    omega
  · rcases eq_or_lt_of_le hk with hcarry | hk
    · rw [if_neg (by omega), show (s * 2 ^ 52 + k) / 2 ^ 52 - 1 = s + 1 by omega, pow_succ 2 s,
        show 2 ^ 52 + (s * 2 ^ 52 + k) % 2 ^ 52 = 2 ^ 52 by omega, hcarry]
      ring
    · rw [if_neg (by omega), show (s * 2 ^ 52 + k) / 2 ^ 52 - 1 = s by omega,
        show 2 ^ 52 + (s * 2 ^ 52 + k) % 2 ^ 52 = k by omega]

theorem exists_scaled (m : Nat) : ∃ s k, m = s * 2 ^ 52 + k ∧ k < 2 ^ 53 ∧ (s = 0 ∨ 2 ^ 52 ≤ k) := by
  rcases lt_or_ge m (2 ^ 52) with h | h
  · exact ⟨0, m, by omega, by omega, .inl rfl⟩
  · exact ⟨m / 2 ^ 52 - 1, 2 ^ 52 + m % 2 ^ 52, by omega, by omega, .inr (by omega)⟩

theorem magUnits_strictMono : StrictMono magUnits := by
  refine strictMono_nat_of_lt_succ fun m => ?_
  obtain ⟨s, k, rfl, hk, hs⟩ := exists_scaled m
  rw [add_assoc, magUnits_scaled s k hk.le hs, magUnits_scaled s (k + 1) hk (by omega)]
  exact Nat.mul_lt_mul_of_pos_right (Nat.lt_succ_self k) (by positivity)

@[simp] theorem magUnits_zero : magUnits 0 = 0 := rfl

theorem magUnits_cast_le {i j : Nat} (h : i ≤ j) : (magUnits i : ℝ) ≤ magUnits j :=
  Nat.cast_le.2 (magUnits_strictMono.monotone h)

theorem magUnits_cast_ne {i j : Nat} (h : i ≠ j) : (magUnits i : ℝ) ≠ magUnits j :=
  Nat.cast_injective.ne (magUnits_strictMono.injective.ne h)

theorem magUnits_inf : magUnits infBits = 2 ^ 2098 := by
  rw [show infBits = 2046 * 2 ^ 52 + 2 ^ 52 by decide, magUnits_scaled _ _ (by decide) (by decide), ← pow_add]

theorem magUnits_largest : magUnits (infBits - 1) = (2 ^ 53 - 1) * 2 ^ 2045 := by
  rw [show infBits - 1 = 2045 * 2 ^ 52 + (2 ^ 53 - 1) by decide, magUnits_scaled _ _ (by decide) (by decide)]

/-! ## Rounding to nearest -/

/-- `N` has the value nearest to `X`, in units, among all magnitude bits, and is even on a tie. -/
def NearestMag (X : ℝ) (N : Nat) : Prop :=
  ∀ m, |(magUnits N : ℝ) - X| ≤ |(magUnits m : ℝ) - X|
    ∧ (m ≠ N → |(magUnits N : ℝ) - X| = |(magUnits m : ℝ) - X| → N % 2 = 0)

/-- No value lies strictly between two neighbours, so the lower one, where `X` is nearer to it, is the nearest of
all. -/
theorem nearestMag_lower {X : ℝ} {N : Nat} (hlo : (magUnits N : ℝ) ≤ X) (hhi : X < magUnits (N + 1))
    (hc : 2 * X < magUnits N + magUnits (N + 1) ∨ 2 * X = magUnits N + magUnits (N + 1) ∧ N % 2 = 0) :
    NearestMag X N := by
  intro m
  rw [abs_of_nonpos (by linarith)]
  rcases Nat.lt_or_ge N m with hm | hm
  · have hge := magUnits_cast_le hm
    rw [abs_of_nonneg (by linarith)]
    refine ⟨by rcases hc with hc | ⟨hc, -⟩ <;> linarith, fun _ htie => ?_⟩
    rcases hc with hc | ⟨-, heven⟩
    · linarith
    · exact heven
  · have hle := magUnits_cast_le hm
    rw [abs_of_nonpos (by linarith)]
    exact ⟨by linarith, fun hne htie => absurd (by linarith) (magUnits_cast_ne hne)⟩

/-- The upper neighbour, where `X` is nearer to it. -/
theorem nearestMag_upper {X : ℝ} {N : Nat} (hlo : (magUnits N : ℝ) ≤ X) (hhi : X < magUnits (N + 1))
    (hc : magUnits N + magUnits (N + 1) < 2 * X ∨ magUnits N + magUnits (N + 1) = 2 * X ∧ N % 2 = 1) :
    NearestMag X (N + 1) := by
  intro m
  rw [abs_of_nonneg (by linarith)]
  rcases Nat.lt_or_ge N m with hm | hm
  · have hge := magUnits_cast_le hm
    rw [abs_of_nonneg (by linarith)]
    exact ⟨by linarith, fun hne htie => absurd (by linarith) (magUnits_cast_ne hne)⟩
  · have hle := magUnits_cast_le hm
    rw [abs_of_nonpos (by linarith)]
    refine ⟨by rcases hc with hc | ⟨hc, -⟩ <;> linarith, fun _ htie => ?_⟩
    rcases hc with hc | ⟨-, hodd⟩
    · linarith
    · omega

/-- `X` lies at scale `s` between the significands `q` and `q + 1`, and `q + up` is the one it rounds to. -/
structure Rounded (X : ℝ) (s q up : Nat) : Prop where
  lower : (q : ℝ) * 2 ^ s ≤ X
  upper : X < (q + 1) * 2 ^ s
  width : q < 2 ^ 53
  normal : s = 0 ∨ 2 ^ 52 ≤ q
  choice : (up = 0 ∧ (2 * X < (2 * q + 1) * 2 ^ s ∨ 2 * X = (2 * q + 1) * 2 ^ s ∧ q % 2 = 0))
    ∨ (up = 1 ∧ ((2 * q + 1) * 2 ^ s < 2 * X ∨ (2 * q + 1) * 2 ^ s = 2 * X ∧ q % 2 = 1))

theorem Rounded.nearest {X : ℝ} {s q up : Nat} (h : Rounded X s q up) :
    NearestMag X (s * 2 ^ 52 + (q + up)) := by
  obtain ⟨hlo, hhi, hw, hn, hc⟩ := h
  have ha : (magUnits (s * 2 ^ 52 + q) : ℝ) = q * 2 ^ s := by
    rw [magUnits_scaled s q hw.le hn]; push_cast; rfl
  have hb : (magUnits (s * 2 ^ 52 + q + 1) : ℝ) = (q + 1) * 2 ^ s := by
    rw [add_assoc, magUnits_scaled s (q + 1) hw (by omega)]; push_cast; rfl
  have hmid : (2 * q + 1) * 2 ^ s = (magUnits (s * 2 ^ 52 + q) + magUnits (s * 2 ^ 52 + q + 1) : ℝ) := by
    rw [ha, hb]; ring
  have hparity : (s * 2 ^ 52 + q) % 2 = q % 2 := by omega
  rw [hmid, ← hparity] at hc
  rw [← ha] at hlo
  rw [← hb] at hhi
  rw [← add_assoc]
  obtain ⟨rfl, hc⟩ | ⟨rfl, hc⟩ := hc
  · rw [add_zero]
    exact nearestMag_lower hlo hhi hc
  · exact nearestMag_upper hlo hhi hc

/-- The scale `roundBits` picks leaves a significand of at most 53 bits, and of exactly 53 unless it is 0. -/
theorem scaled_significand (v : Nat) :
    v / 2 ^ (Nat.log 2 v - 52) < 2 ^ 53 ∧ (Nat.log 2 v - 52 = 0 ∨ 2 ^ 52 ≤ v / 2 ^ (Nat.log 2 v - 52)) := by
  have hupper := Nat.lt_pow_succ_log_self one_lt_two v
  rcases le_or_gt (Nat.log 2 v) 52 with h | h
  · rw [Nat.sub_eq_zero_of_le h, pow_zero, Nat.div_one]
    exact ⟨hupper.trans_le (Nat.pow_le_pow_right two_pos (by omega)), .inl rfl⟩
  · have hlower := Nat.pow_log_le_self 2 (x := v) (by rintro rfl; simp at h)
    refine ⟨Nat.div_lt_of_lt_mul ?_, .inr ((Nat.le_div_iff_mul_le (by positivity)).2 ?_)⟩
    · rw [← pow_add]
      exact hupper.trans_le (Nat.pow_le_pow_right two_pos (by omega))
    · rw [← pow_add]
      exact (Nat.pow_le_pow_right two_pos (by omega)).trans hlower

/-- `Rounded` of a quotient of naturals, with the denominator multiplied out. -/
theorem Rounded.of_quotient {num den s q up : Nat} (hden : 0 < den) (hw : q < 2 ^ 53) (hn : s = 0 ∨ 2 ^ 52 ≤ q)
    (hlo : q * (den * 2 ^ s) ≤ num) (hhi : num < (q + 1) * (den * 2 ^ s))
    (hc : (up = 0 ∧ (2 * num < (2 * q + 1) * (den * 2 ^ s) ∨ 2 * num = (2 * q + 1) * (den * 2 ^ s) ∧ q % 2 = 0))
      ∨ (up = 1
        ∧ ((2 * q + 1) * (den * 2 ^ s) < 2 * num ∨ (2 * q + 1) * (den * 2 ^ s) = 2 * num ∧ q % 2 = 1))) :
    Rounded ((num : ℝ) / den) s q up := by
  have hpos : (0 : ℝ) < den := Nat.cast_pos.2 hden
  have hnum : (num : ℝ) = num / den * den := by field_simp
  rify at hlo hhi hc
  rw [hnum] at hlo hhi hc
  generalize (num : ℝ) / den = X at *
  simp only [mul_comm (den : ℝ), ← mul_assoc, mul_le_mul_iff_left₀ hpos, mul_lt_mul_iff_left₀ hpos,
    mul_left_inj' hpos.ne'] at hlo hhi hc
  exact ⟨hlo, hhi, hw, hn, by exact_mod_cast hc⟩

theorem roundBits_rounded (num den : Nat) (hden : 0 < den) (hlt : num / den < 2 ^ 4096) :
    ∃ s q up, roundBits num den = min (s * 2 ^ 52 + (q + up)) infBits ∧ Rounded ((num : ℝ) / den) s q up := by
  refine ⟨_, _, _, rfl, ?_⟩
  rw [floorLog2_eq_log _ hlt]
  obtain ⟨hw, hn⟩ := scaled_significand (num / den)
  rw [Nat.div_div_eq_div_mul] at hw hn
  generalize Nat.log 2 (num / den) - 52 = s at *
  have hr := Nat.mod_lt num (show 0 < den * 2 ^ s by positivity)
  have hq := Nat.div_add_mod' num (den * 2 ^ s)
  have hsucc : ∀ k, (k + 1) * (den * 2 ^ s) = k * (den * 2 ^ s) + den * 2 ^ s := fun k => Nat.succ_mul _ _
  refine .of_quotient hden hw hn (by omega) (by rw [hsucc]; omega) ?_
  rw [hsucc, mul_assoc]
  split <;> omega

/-- Where the significand has 53 bits with some to spare, the half above an integer rounds as every value between
that integer and the next: each midpoint is itself an integer. -/
theorem Rounded.of_half {X Y : ℝ} {r s q up : Nat} (h : Rounded Y s q up) (hY : 2 * Y = (2 * r + 1 : Nat))
    (hr : 2 ^ 53 ≤ r) (hlo : (r : ℝ) < X) (hhi : X < r + 1) : Rounded X s q up := by
  obtain ⟨hl, hu, hw, hn, hc⟩ := h
  rw [hY] at hc
  push_cast at hY
  have hl : q * 2 ^ s ≤ r := by
    have : 2 * (q * 2 ^ s) ≤ 2 * r + 1 := by rify; linarith
    omega
  have hu : r + 1 ≤ (q + 1) * 2 ^ s := by
    have : 2 * r + 1 < 2 * ((q + 1) * 2 ^ s) := by rify; linarith
    omega
  obtain ⟨t, rfl⟩ : ∃ t, s = t + 1 := Nat.exists_eq_succ_of_ne_zero (by rintro rfl; omega)
  have hmid : (2 * q + 1) * 2 ^ (t + 1) = 2 * ((2 * q + 1) * 2 ^ t) := by ring
  have hmid' : (2 * q + 1 : ℝ) * 2 ^ (t + 1) = 2 * ((2 * q + 1) * 2 ^ t : Nat) := by push_cast; ring
  generalize (2 * q + 1) * 2 ^ t = mid at *
  rw [hmid'] at hc
  norm_cast at hc
  rify at hl hu
  refine ⟨by linarith, by linarith, hw, hn, ?_⟩
  rw [hmid']
  obtain ⟨rfl, hc⟩ | ⟨rfl, hc⟩ := hc
  · have : r + 1 ≤ mid := by omega
    rify at this
    exact .inl ⟨rfl, .inl (by linarith)⟩
  · have : mid ≤ r := by omega
    rify at this
    exact .inr ⟨rfl, .inl (by linarith)⟩

/-- Overflow starts at the midpoint between the largest finite value and the next binade. -/
theorem NearestMag.lt_inf_iff {X : ℝ} {N : Nat} (h : NearestMag X N) :
    N < infBits ↔ X < (2 ^ 54 - 1) * 2 ^ 2044 := by
  have hinf : (magUnits infBits : ℝ) = 2 ^ 54 * 2 ^ 2044 := by
    rw [magUnits_inf, Nat.cast_pow, Nat.cast_ofNat, ← pow_add]
  have hmax : (magUnits (infBits - 1) : ℝ) = (2 ^ 53 - 1 : Nat) * (2 * 2 ^ 2044) := by
    rw [magUnits_largest, Nat.cast_mul, Nat.cast_pow, Nat.cast_ofNat, ← pow_succ']
  push_cast at hmax
  have hc : (0 : ℝ) < 2 ^ 2044 := by positivity
  generalize (2 : ℝ) ^ 2044 = c at *
  constructor
  · intro hN
    by_contra! hX
    have hle := magUnits_cast_le (show N ≤ infBits - 1 by omega)
    obtain ⟨hnear, htie⟩ := h infBits
    rw [abs_of_nonpos (by linarith)] at hnear htie
    rcases le_total X (magUnits infBits) with hXi | hXi
    · rw [abs_of_nonneg (by linarith)] at hnear htie
      have hmaxN : magUnits N = magUnits (infBits - 1) := by
        rify; linarith
      have hN' := magUnits_strictMono.injective hmaxN
      have heven := htie (by omega) (by rw [hmaxN]; linarith)
      rw [hN'] at heven
      exact absurd heven (by decide)
    · rw [abs_of_nonpos (by linarith)] at hnear
      linarith
  · intro hX
    by_contra! hN
    have hge := magUnits_cast_le hN
    have hnear := (h (infBits - 1)).1
    rw [abs_of_nonneg (by linarith)] at hnear
    rcases abs_cases ((magUnits (infBits - 1) : ℝ) - X) with ⟨e, -⟩ | ⟨e, -⟩ <;> linarith

end Sys2Proof.Machine
end

section
namespace Sys2Proof.Machine

open Sys2Proof.Spec

/-! ## Packed patterns and the numbers they denote -/

theorem packBits_toNat (neg : Bool) (m : Nat) (h : m < 2 ^ 63) :
    (packBits neg m).toNat = if neg then 2 ^ 63 + m else m := by
  rw [packBits, BitVec.toNat_ofNat, Nat.mod_eq_of_lt]
  split <;> omega

theorem signOf_packBits (neg : Bool) (m : Nat) (h : m < 2 ^ 63) : signOf (packBits neg m) = neg := by
  rw [signOf, packBits_toNat neg m h, Bool.eq_iff_iff, Nat.ble_eq]
  cases neg <;> simp
  omega

theorem magBits_packBits (neg : Bool) (m : Nat) (h : m < 2 ^ 63) : magBits (packBits neg m) = m := by
  rw [magBits, packBits_toNat neg m h]
  cases neg <;> simp <;> omega

theorem infBits_lt : infBits < 2 ^ 63 := by decide

theorem isFinite_iff (x : F64) : isFinite x = true ↔ magBits x < infBits := by rw [isFinite, Nat.blt_eq]

theorem isFinite_packBits (neg : Bool) (m : Nat) (h : m < infBits) : isFinite (packBits neg m) = true := by
  rw [isFinite_iff, magBits_packBits neg m (h.trans infBits_lt)]; exact h

theorem isNaN_of_isFinite {x : F64} (h : isFinite x = true) : isNaN x = false := by
  rw [isFinite_iff] at h
  rw [isNaN, ← Bool.not_eq_true, Nat.blt_eq]
  omega

theorem isInf_of_isFinite {x : F64} (h : isFinite x = true) : isInf x = false := by
  rw [isFinite_iff] at h
  rw [isInf, ← Bool.not_eq_true, Nat.beq_eq]
  omega

theorem magUnits_eq_zero (m : Nat) : magUnits m = 0 ↔ m = 0 :=
  magUnits_strictMono.injective.eq_iff' magUnits_zero

theorem isZero_iff (x : F64) : isZero x = true ↔ unitsOf x = 0 := by
  rw [isZero, Nat.beq_eq, unitsOf_eq_magUnits, magUnits_eq_zero]

theorem magUnits_lt {m : Nat} (h : m < infBits) : magUnits m < 2 ^ 2098 := by
  rw [← magUnits_inf]
  exact magUnits_strictMono h

theorem unitsOf_lt {x : F64} (h : isFinite x = true) : unitsOf x < 2 ^ 2098 :=
  magUnits_lt ((isFinite_iff x).1 h)

/-- The number of a sign and a magnitude. -/
def signed (neg : Bool) (x : ℝ) : ℝ := if neg then -x else x

@[simp] theorem signed_false (x : ℝ) : signed false x = x := rfl

@[simp] theorem signed_true (x : ℝ) : signed true x = -x := rfl

theorem real_eq_signed (x : F64) : real x = signed (signOf x) (unitsOf x / 2 ^ 1074) := by
  have hU : (((2 ^ 1074 : ℚ)) : ℝ) = 2 ^ 1074 := by rw [Rat.cast_pow, Rat.cast_ofNat]
  rw [real, toRat, Rat.cast_div, hU, Rat.cast_intCast, exactInt, signed]
  cases signOf x
  · rfl
  · rw [if_pos rfl, if_pos rfl, Int.cast_neg, neg_div, Int.cast_natCast]

theorem real_packBits (neg : Bool) (m : Nat) (h : m < 2 ^ 63) :
    real (packBits neg m) = signed neg (magUnits m / 2 ^ 1074) := by
  rw [real_eq_signed, signOf_packBits neg m h, unitsOf_eq_magUnits, magBits_packBits neg m h]

@[simp] theorem signed_zero (neg : Bool) : signed neg 0 = 0 := by cases neg <;> simp

theorem abs_signed (neg : Bool) (x : ℝ) : |signed neg x| = |x| := by
  cases neg
  · rfl
  · exact abs_neg x

theorem signed_sub_same (neg : Bool) (x y : ℝ) : |signed neg x - signed neg y| = |x - y| := by
  cases neg
  · rfl
  · rw [signed_true, signed_true, neg_sub_neg, abs_sub_comm]

theorem abs_sub_signed_opposite {m n : Bool} (hne : m ≠ n) {x y : ℝ} (hx : 0 ≤ x) (hy : 0 ≤ y) :
    |signed m x - signed n y| = x + y := by
  cases m <;> cases n
  case false.false | true.true => exact absurd rfl hne
  case false.true => rw [signed_false, signed_true, sub_neg_eq_add, abs_of_nonneg (by linarith)]
  case true.false => rw [signed_false, signed_true, ← neg_add', abs_neg, abs_of_nonneg (by linarith)]

theorem signed_mul (m n : Bool) (x y : ℝ) : signed m x * signed n y = signed (m != n) (x * y) := by
  cases m <;> cases n <;> simp

theorem signed_div (m n : Bool) (x y : ℝ) : signed m x / signed n y = signed (m != n) (x / y) := by
  cases m <;> cases n <;> simp [neg_div, div_neg]

/-! ## From the nearest magnitude to `RoundsTo` (40_command.md R125) -/

/-- The nearest pattern to a signed number has the sign of the number and the nearest magnitude. -/
theorem NearestMag.signed_nearest {X : ℝ} {N : Nat} (h : NearestMag X N) (hX : 0 ≤ X) (neg : Bool) (y : F64) :
    |signed neg (magUnits N / 2 ^ 1074) - signed neg (X / 2 ^ 1074)| ≤ |real y - signed neg (X / 2 ^ 1074)|
      ∧ (real y ≠ signed neg (magUnits N / 2 ^ 1074) →
        |signed neg (magUnits N / 2 ^ 1074) - signed neg (X / 2 ^ 1074)| = |real y - signed neg (X / 2 ^ 1074)| →
        N % 2 = 0) := by
  have hU : (0 : ℝ) < 2 ^ 1074 := by positivity
  obtain ⟨hnear, htie⟩ := h (magBits y)
  rw [real_eq_signed, unitsOf_eq_magUnits]
  generalize (2 : ℝ) ^ 1074 = U at *
  rw [signed_sub_same, ← sub_div, abs_div, abs_of_pos hU]
  rcases eq_or_ne (signOf y) neg with hs | hs
  · rw [hs, signed_sub_same, ← sub_div, abs_div, abs_of_pos hU, div_le_div_iff_of_pos_right hU,
      div_left_inj' hU.ne']
    exact ⟨hnear, fun hne => htie fun e => hne (by rw [e])⟩
  · rw [abs_sub_signed_opposite hs (by positivity) (by positivity), ← add_div, div_le_div_iff_of_pos_right hU,
      div_left_inj' hU.ne']
    have hu : (0 : ℝ) ≤ magUnits (magBits y) := Nat.cast_nonneg _
    have habs : |(magUnits (magBits y) : ℝ) - X| ≤ magUnits (magBits y) + X :=
      abs_le.2 ⟨by linarith, by linarith⟩
    refine ⟨hnear.trans habs, fun hne he => htie (fun hN => hne ?_) (le_antisymm hnear (he ▸ habs))⟩
    have hzero := (h 0).1
    rw [he, magUnits_zero, Nat.cast_zero, zero_sub, abs_neg, abs_of_nonneg hX] at hzero
    have : (magUnits (magBits y) : ℝ) = 0 := by linarith
    rw [← hN, this, zero_div, signed_zero, signed_zero]

theorem packBits_toNat_mod_two (neg : Bool) (m : Nat) (h : m < 2 ^ 63) : (packBits neg m).toNat % 2 = m % 2 := by
  rw [packBits_toNat neg m h]
  split <;> omega

theorem NearestMag.roundsTo {X : ℝ} {N : Nat} (h : NearestMag X N) (hX : 0 ≤ X) (neg : Bool) :
    RoundsTo (signed neg (X / 2 ^ 1074)) (packBits neg (min N infBits)) := by
  have hU : (0 : ℝ) < 2 ^ 1074 := by positivity
  have hthreshold : |signed neg (X / 2 ^ 1074)| < (2 ^ 54 - 1) * 2 ^ 970 ↔ N < infBits := by
    rw [h.lt_inf_iff, abs_signed, abs_of_nonneg (by positivity), div_lt_iff₀ hU, mul_assoc, ← pow_add]
  rw [RoundsTo]
  split
  case isTrue hlt =>
    have hN := hthreshold.1 hlt
    have hN63 := hN.trans infBits_lt
    rw [min_eq_left hN.le, real_packBits neg N hN63, packBits_toNat_mod_two neg N hN63]
    exact ⟨isFinite_packBits neg N hN, fun y _ => (h.signed_nearest hX neg y).1,
      fun y _ => (h.signed_nearest hX neg y).2⟩
  case isFalse hge =>
    have hN := not_lt.1 (mt hthreshold.2 hge)
    have hlarge := not_lt.1 hge
    rw [abs_signed, abs_of_nonneg (div_nonneg hX hU.le)] at hlarge
    have hpos : 0 < X / 2 ^ 1074 := (mul_pos (by norm_num) (by positivity)).trans_le hlarge
    rw [min_eq_right hN, signOf_packBits neg _ infBits_lt]
    refine ⟨by cases neg <;> rfl, ?_⟩
    cases neg
    · simp [hpos.le]
    · simp [hpos]

theorem roundBits_roundsTo (neg : Bool) (num den : Nat) (hden : 0 < den) (hlt : num / den < 2 ^ 4096) :
    RoundsTo (signed neg (num / den / 2 ^ 1074)) (packBits neg (roundBits num den)) := by
  obtain ⟨s, q, up, e, h⟩ := roundBits_rounded num den hden hlt
  rw [e]
  exact h.nearest.roundsTo (div_nonneg num.cast_nonneg den.cast_nonneg) neg

end Sys2Proof.Machine
end

section
namespace Sys2Proof.Machine

open Sys2Proof.Spec

/-! ## The operations on finite operands (40_command.md R125) -/

theorem real_eq_exactInt (x : F64) : real x = exactInt x / 2 ^ 1074 := by
  rw [real, toRat, Rat.cast_div, Rat.cast_intCast, Rat.cast_pow, Rat.cast_ofNat]

theorem natAbs_exactInt (x : F64) : (exactInt x).natAbs = unitsOf x := by
  rw [exactInt]
  split
  · rw [Int.natAbs_neg, Int.natAbs_natCast]
  · exact Int.natAbs_natCast _

theorem isZero_iff_magBits (x : F64) : isZero x = true ↔ magBits x = 0 := by rw [isZero, Nat.beq_eq]

theorem real_of_isZero {x : F64} (h : isZero x = true) : real x = 0 := by
  rw [real_eq_signed, (isZero_iff x).1 h, Nat.cast_zero, zero_div, signed_zero]

theorem packBits_signOf_magBits (x : F64) : packBits (signOf x) (magBits x) = x := by
  have hx := x.isLt
  refine BitVec.eq_of_toNat_eq ?_
  rw [packBits_toNat _ (magBits x) (Nat.mod_lt _ (by decide)), magBits, signOf]
  split
  case isTrue h => rw [Nat.ble_eq] at h; omega
  case isFalse h => rw [Nat.ble_eq] at h; omega

theorem real_fneg (x : F64) : real (fneg x) = -real x := by
  rw [real_eq_signed, real_eq_signed, signOf_fneg, unitsOf_fneg]
  cases signOf x <;> simp

theorem intCast_eq_signed (z : ℤ) : (z : ℝ) = signed (decide (z < 0)) z.natAbs := by
  rw [signed, Nat.cast_natAbs]
  rcases lt_or_ge z 0 with h | h
  · rw [if_pos (by simpa using h), abs_of_neg h, Int.cast_neg, neg_neg]
  · rw [if_neg (by simpa using h), abs_of_nonneg h]

theorem signed_div_right (neg : Bool) (x y : ℝ) : signed neg (x / y) = signed neg x / y := by
  cases neg
  · rfl
  · exact (neg_div y x).symm

theorem roundsTo_zero (neg : Bool) : RoundsTo 0 (packBits neg 0) := by
  have h : NearestMag 0 0 := fun m => ⟨by simp, fun _ _ => rfl⟩
  simpa using h.roundsTo le_rfl neg

/-! Bounds of exact values, with the exponents as variables. -/

theorem add_lt_two_pow {x y i k : Nat} (hx : x < 2 ^ i) (hy : y < 2 ^ i) (h : i + 1 ≤ k) : x + y < 2 ^ k := by
  have := Nat.pow_le_pow_right two_pos h
  rw [pow_succ] at this
  omega

theorem mul_lt_two_pow {x y i j k : Nat} (hx : x < 2 ^ i) (hy : y ≤ 2 ^ j) (h : i + j ≤ k) : x * y < 2 ^ k :=
  calc x * y < 2 ^ i * 2 ^ j := Nat.mul_lt_mul_of_lt_of_le hx hy (by positivity)
    _ = 2 ^ (i + j) := (pow_add 2 i j).symm
    _ ≤ 2 ^ k := Nat.pow_le_pow_right two_pos h

theorem mul_div_lt_two_pow {x y i j k l : Nat} (hx : x < 2 ^ i) (hy : y ≤ 2 ^ j) (h : i + j ≤ k + l) :
    x * y / 2 ^ k < 2 ^ l :=
  Nat.div_lt_of_lt_mul (pow_add 2 k l ▸ mul_lt_two_pow hx hy h)

theorem roundedSum_roundsTo (nan : F64) {a b : F64} (ha : isFinite a = true) (hb : isFinite b = true) :
    RoundsTo (real a + real b) (roundedSum nan a b) := by
  have hfinite : roundedSum nan a b =
      if exactInt a + exactInt b = 0 then packBits (signOf a && signOf b) 0
      else packBits (decide (exactInt a + exactInt b < 0)) (roundBits (exactInt a + exactInt b).natAbs 1) := by
    simp [roundedSum, isNaN_of_isFinite ha, isNaN_of_isFinite hb, isInf_of_isFinite ha, isInf_of_isFinite hb]
  have hbound : (exactInt a + exactInt b).natAbs < 2 ^ 4096 := by
    have hsum := Int.natAbs_add_le (exactInt a) (exactInt b)
    rw [natAbs_exactInt, natAbs_exactInt] at hsum
    exact hsum.trans_lt (add_lt_two_pow (unitsOf_lt ha) (unitsOf_lt hb) (by decide))
  rw [hfinite, real_eq_exactInt, real_eq_exactInt, ← add_div, ← Int.cast_add]
  generalize exactInt a + exactInt b = z at *
  split
  case isTrue hz => rw [hz, Int.cast_zero, zero_div]; exact roundsTo_zero _
  case isFalse hz =>
    have := roundBits_roundsTo (decide (z < 0)) z.natAbs 1 one_pos (by rwa [Nat.div_one])
    rwa [Nat.cast_one, div_one, signed_div_right, ← intCast_eq_signed] at this

theorem fadd_roundsTo {a b : F64} (ha : isFinite a = true) (hb : isFinite b = true) :
    RoundsTo (real a + real b) (fadd a b) := roundedSum_roundsTo _ ha hb

theorem fsub_roundsTo {a b : F64} (ha : isFinite a = true) (hb : isFinite b = true) :
    RoundsTo (real a - real b) (fsub a b) := by
  rw [sub_eq_add_neg, ← real_fneg]
  exact roundedSum_roundsTo _ ha ((isFinite_fneg b).trans hb)

theorem fmul_of_isFinite {a b : F64} (ha : isFinite a = true) (hb : isFinite b = true) :
    fmul a b = packBits (signOf a != signOf b) (roundBits (unitsOf a * unitsOf b) (2 ^ 1074)) := by
  simp only [fmul, isNaN_of_isFinite ha, isNaN_of_isFinite hb, isInf_of_isFinite ha, isInf_of_isFinite hb,
    Bool.or_self, Bool.false_eq_true, if_false]

theorem fmul_roundsTo {a b : F64} (ha : isFinite a = true) (hb : isFinite b = true) :
    RoundsTo (real a * real b) (fmul a b) := by
  have hbound : unitsOf a * unitsOf b / 2 ^ 1074 < 2 ^ 4096 :=
    mul_div_lt_two_pow (unitsOf_lt ha) (unitsOf_lt hb).le (by decide)
  have h := roundBits_roundsTo (signOf a != signOf b) _ _ (by positivity) hbound
  rw [fmul_of_isFinite ha hb, real_eq_signed, real_eq_signed, signed_mul]
  convert h using 2
  rw [Nat.cast_mul, Nat.cast_pow, Nat.cast_ofNat]
  generalize (2 : ℝ) ^ 1074 = U
  ring

theorem fdiv_of_isFinite {a b : F64} (ha : isFinite a = true) (hb : isFinite b = true) (hz : isZero b = false) :
    fdiv a b = packBits (signOf a != signOf b) (roundBits (unitsOf a * 2 ^ 1074) (unitsOf b)) := by
  simp only [fdiv, isNaN_of_isFinite ha, isNaN_of_isFinite hb, isInf_of_isFinite ha, isInf_of_isFinite hb, hz,
    Bool.or_self, Bool.false_eq_true, if_false]

theorem unitsOf_mul_lt {a : F64} (ha : isFinite a = true) : unitsOf a * 2 ^ 1074 < 2 ^ 4096 :=
  mul_lt_two_pow (unitsOf_lt ha) le_rfl (by decide)

theorem unitsOf_pos {x : F64} (h : isZero x = false) : 0 < unitsOf x :=
  Nat.pos_of_ne_zero fun h0 => by rw [(isZero_iff x).2 h0] at h; cases h

theorem fdiv_roundsTo {a b : F64} (ha : isFinite a = true) (hb : isFinite b = true) (hz : isZero b = false) :
    RoundsTo (real a / real b) (fdiv a b) := by
  have h := roundBits_roundsTo (signOf a != signOf b) _ _ (unitsOf_pos hz)
    ((Nat.div_le_self _ _).trans_lt (unitsOf_mul_lt ha))
  rw [fdiv_of_isFinite ha hb hz, real_eq_signed, real_eq_signed, signed_div]
  convert h using 2
  rw [Nat.cast_mul, Nat.cast_pow, Nat.cast_ofNat]
  field_simp

/-- The root of a multiple of the unit, rounded from its floor and whether it is exact. -/
theorem sqrt_rounded (n : Nat) (hn : n < 2 ^ 4096) (hlarge : (2 ^ 53) ^ 2 ≤ n) :
    ∃ s q up, roundBits (2 * n.sqrt + (if n.sqrt * n.sqrt = n then 0 else 1)) 2 = min (s * 2 ^ 52 + (q + up)) infBits
      ∧ Rounded (√(n : ℝ)) s q up := by
  have hroot : 2 ^ 53 ≤ n.sqrt := Nat.le_sqrt'.2 hlarge
  have hself := Nat.sqrt_le_self n
  obtain ⟨s, q, up, e, h⟩ := roundBits_rounded (2 * n.sqrt + (if n.sqrt * n.sqrt = n then 0 else 1)) 2 two_pos
    (by split <;> omega)
  refine ⟨s, q, up, e, ?_⟩
  split at h
  case isTrue hsq =>
    have : √(n : ℝ) = n.sqrt := by
      rw [Real.sqrt_eq_iff_mul_self_eq (Nat.cast_nonneg _) (Nat.cast_nonneg _)]; exact_mod_cast hsq.symm
    rw [this]
    simpa using h
  case isFalse hsq =>
    refine h.of_half (by push_cast; ring) hroot ?_ ?_
    · exact Real.lt_sqrt_of_sq_lt (by exact_mod_cast lt_of_le_of_ne (Nat.sqrt_le' n) (by rwa [sq]))
    · rw [Real.sqrt_lt' (Nat.cast_add_one_pos _)]
      exact_mod_cast Nat.lt_succ_sqrt' n

theorem fsqrt_of_pos {a : F64} (ha : isFinite a = true) (hz : isZero a = false) (hs : signOf a = false) :
    fsqrt a = packBits false (roundBits (2 * (unitsOf a * 2 ^ 1074).sqrt
      + (if (unitsOf a * 2 ^ 1074).sqrt * (unitsOf a * 2 ^ 1074).sqrt = unitsOf a * 2 ^ 1074 then 0 else 1)) 2) := by
  simp only [fsqrt, isNaN_of_isFinite ha, isInf_of_isFinite ha, hz, hs, Bool.false_eq_true, if_false,
    floorSqrt_eq_sqrt _ (unitsOf_mul_lt ha)]

theorem signOf_of_real_nonneg {a : F64} (hz : isZero a = false) (h : 0 ≤ real a) : signOf a = false := by
  by_contra hs
  rw [Bool.not_eq_false] at hs
  have hu : (0 : ℝ) < unitsOf a := Nat.cast_pos.2 (unitsOf_pos hz)
  rw [real_eq_signed, hs, signed_true, neg_nonneg] at h
  exact h.not_gt (by positivity)

theorem fsqrt_roundsTo {a : F64} (ha : isFinite a = true) (hpos : 0 ≤ real a) :
    RoundsTo (√(real a)) (fsqrt a) := by
  cases hz : isZero a with
  | true =>
    have hfix : fsqrt a = a := by simp [fsqrt, isNaN_of_isFinite ha, hz]
    have hzero := roundsTo_zero (signOf a)
    rw [← (isZero_iff_magBits a).1 hz, packBits_signOf_magBits] at hzero
    rwa [hfix, real_of_isZero hz, Real.sqrt_zero]
  | false =>
    have hu := unitsOf_pos hz
    have hs := signOf_of_real_nonneg hz hpos
    have hlarge : (2 ^ 53) ^ 2 ≤ unitsOf a * 2 ^ 1074 := by
      have hscale := Nat.le_mul_of_pos_left (2 ^ 1074) hu
      have hpow : 2 ^ (53 * 2) ≤ 2 ^ 1074 := pow_le_pow_right₀ one_le_two (by decide)
      rw [← pow_mul]
      exact hpow.trans hscale
    obtain ⟨s, q, up, e, h⟩ := sqrt_rounded _ (unitsOf_mul_lt ha) hlarge
    rw [fsqrt_of_pos ha hz hs, e]
    convert h.nearest.roundsTo (Real.sqrt_nonneg _) false using 1
    have hU : (0 : ℝ) < 2 ^ 1074 := by positivity
    rw [real_eq_signed, hs, Nat.cast_mul, Nat.cast_pow, Nat.cast_ofNat]
    generalize (2 : ℝ) ^ 1074 = U at *
    have hsq : (unitsOf a : ℝ) / U = unitsOf a * U / U ^ 2 := by field_simp
    rw [signed_false, signed_false, hsq, Real.sqrt_div' _ (sq_nonneg U),
      Real.sqrt_sq hU.le]

/-- Settles O35: every operation rounds its exact result once (`roundBits_roundsTo`); the root rounds from its
floor (`Rounded.of_half`). -/
theorem floatOperationsRoundToNearestEven : Obligations.FloatOperationsRoundToNearestEven := by
  unfold Obligations.FloatOperationsRoundToNearestEven
  exact fun a b ha hb => ⟨fadd_roundsTo ha hb, fsub_roundsTo ha hb, fmul_roundsTo ha hb, fdiv_roundsTo ha hb,
    fsqrt_roundsTo ha⟩

/-! ## Exact results (00_scope.md R9) -/

/-- Every 53-bit significand at a scale of the range is the value of some finite magnitude. -/
theorem exists_magUnits_eq (k t : Nat) (hk : k < 2 ^ 53) (ht : t ≤ 2045) :
    ∃ m < infBits, magUnits m = k * 2 ^ t := by
  have hinf : infBits = 2047 * 2 ^ 52 := rfl
  induction t generalizing k with
  | zero => exact ⟨0 * 2 ^ 52 + k, by omega, magUnits_scaled 0 k hk.le (.inl rfl)⟩
  | succ t ih =>
    rcases lt_or_ge k (2 ^ 52) with h | h
    · obtain ⟨m, hm, e⟩ := ih (k * 2) (by omega) (by omega)
      exact ⟨m, hm, by rw [e, pow_succ', mul_assoc]⟩
    · exact ⟨(t + 1) * 2 ^ 52 + k, by omega, magUnits_scaled (t + 1) k hk.le (.inr h)⟩

/-- A quotient that is the value of a finite magnitude rounds to that magnitude. -/
theorem roundBits_exact (num den m : Nat) (hden : 0 < den) (hm : m < infBits) (h : num = magUnits m * den) :
    roundBits num den = m := by
  have hval : num / den = magUnits m := by rw [h, Nat.mul_div_cancel _ hden]
  have hlt := (magUnits_lt hm).trans_le (pow_le_pow_right₀ one_le_two (show 2098 ≤ 4096 by decide))
  obtain ⟨s, q, up, e, hr⟩ := roundBits_rounded num den hden (hval ▸ hlt)
  have hexact : (num : ℝ) / den = magUnits m := by
    rw [h, Nat.cast_mul, mul_div_cancel_right₀ _ (Nat.cast_ne_zero.2 hden.ne')]
  have hnear := (hr.nearest m).1
  rw [hexact, sub_self, abs_zero, abs_nonpos_iff, sub_eq_zero, Nat.cast_inj] at hnear
  rw [e, magUnits_strictMono.injective hnear, min_eq_left hm.le]

/-- Settles O39: an integer below `2^53` is the value of a finite magnitude, so it rounds to itself. -/
theorem integerConversionIsExact : Obligations.IntegerConversionIsExact := by
  unfold Obligations.IntegerConversionIsExact
  intro n hn
  obtain ⟨m, hm, e⟩ := exists_magUnits_eq n 1074 hn (by decide)
  have hi2f : i2f n = packBits false m := by
    rw [i2f, roundBits_exact (n * 2 ^ 1074) 1 m one_pos hm (by rw [e, mul_one])]
  have hm63 := hm.trans infBits_lt
  rw [hi2f, signOf_packBits false m hm63, real_packBits false m hm63, e]
  refine ⟨isFinite_packBits false m hm, rfl, ?_⟩
  rw [signed_false, Nat.cast_mul, Nat.cast_pow, Nat.cast_ofNat,
    mul_div_cancel_right₀ _ (by positivity)]

end Sys2Proof.Machine
end

section
namespace Sys2Proof.Machine

open Sys2Proof.Spec

/-! ## The invariant (Safety.lean) under each update of the state -/

theorem busy_eq_false_iff (s : State) : s.busy = false ↔ s.pending = none := by
  simp [State.busy]

theorem not_pending_of_idle {s : State} (h : s.busy = false) (p : Pending) : s.pending ≠ some p := by
  rw [(busy_eq_false_iff s).1 h]; exact nofun

/-- The invariant speaks of none of these fields. -/
theorem Inv.with_unconstrained {s : State} (h : Inv s) (ie haz : Bool) (thr a b c : F64) (draws : Nat)
    (turns : List Turn) (reply : Option Reply) :
    Inv { s with
      ie := ie, haz := haz, peakThr := thr, fPeak := a, fHps := b, fAc := c, draws := draws, turns := turns
      reply := reply } :=
  ⟨h.memWf, h.memMapped, h.pendingAccepted, h.busyFlags, h.doneFlags, h.errFlags, h.pcountBound⟩

theorem Inv.answer {s : State} (h : Inv s) (r : Reply) : Inv (s.answer r) :=
  h.with_unconstrained s.ie s.haz s.peakThr s.fPeak s.fHps s.fAc s.draws s.turns (some r)

theorem Inv.with_turns {s : State} (h : Inv s) (turns : List Turn) : Inv { s with turns := turns } :=
  h.with_unconstrained s.ie s.haz s.peakThr s.fPeak s.fHps s.fAc s.draws turns s.reply

/-- LEN and FS are free while no command is pending. -/
theorem Inv.with_operands {s : State} (h : Inv s) (hb : s.busy = false) (len fs : BitVec 32) :
    Inv { s with len := len, fs := fs } :=
  ⟨h.memWf, h.memMapped, fun p hp => absurd hp (not_pending_of_idle hb p), h.busyFlags, h.doneFlags, h.errFlags,
    h.pcountBound⟩

/-- Clearing flags at the host's wish keeps them consistent (60_exceptions.md R273). -/
theorem Inv.acknowledge {s : State} (h : Inv s) (v : Word) : Inv (acknowledge v s) where
  memWf := h.memWf
  memMapped := h.memMapped
  pendingAccepted := h.pendingAccepted
  busyFlags hb := by
    obtain ⟨hd, he, hc⟩ := h.busyFlags hb
    simp [hd, he, hc]
  doneFlags hd := by
    obtain ⟨he, hc⟩ := h.doneFlags (Bool.and_eq_true_iff.1 hd).1
    simp [he, hc]
  errFlags he := h.errFlags (Bool.and_eq_true_iff.1 he).1
  pcountBound := h.pcountBound

/-- Issuing a word while idle leaves an accepted command with clear flags, or an error with its code. -/
theorem Inv.issue {s : State} (h : Inv s) (hb : s.busy = false) (w : CmdWord) : Inv (issue w s) := by
  obtain ⟨i, hc, e⟩ | ⟨c, hne, -, e⟩ := issue_cases w s <;> rw [e]
  · exact
      { memWf := h.memWf
        memMapped := h.memMapped
        pendingAccepted := by rintro p ⟨⟩; exact ⟨rfl, rfl, rfl, i, hc⟩
        busyFlags := fun _ => ⟨rfl, rfl, rfl⟩
        doneFlags := nofun
        errFlags := nofun
        pcountBound := h.pcountBound }
  · exact
      { memWf := h.memWf
        memMapped := h.memMapped
        pendingAccepted := fun p hp => absurd hp (not_pending_of_idle hb p)
        busyFlags := fun hb' => absurd (hb.symm.trans hb') nofun
        doneFlags := nofun
        errFlags := fun _ => hne
        pcountBound := h.pcountBound }

/-- The host stores into valid buffer words alone (20_memory.md R62). -/
theorem Inv.storeWord {s : State} (h : Inv s) {off : Offset} {a : Nat}
    (ht : target s.params off = some (.buffer a)) (v : Word) : Inv (s.storeWords a [v]) := by
  obtain ⟨rfl, h8, hoff⟩ := (target_buffer_iff _ off a).1 ht
  refine ⟨store_wf _ _ _ h.memWf, fun c hc => ?_, h.pendingAccepted, h.busyFlags, h.doneFlags, h.errFlags,
    h.pcountBound⟩
  obtain hc | hc := mem_store _ _ _ _ hc
  · exact h.memMapped c hc
  · have hl : (wordsBytes [v]).length = 8 := wordsBytes_length [v]
    rw [isBufferOffset_iff] at hoff
    show isBufferOffset s.params c.1 = true
    rw [isBufferOffset_iff]
    omega

/-! ## Resets -/

/-- The write set of an accepted command lies in valid buffer entries (70_reset_and_hazards.md R292). -/
theorem writeSet_mapped (p : Params) (i : Instr) (n a : Nat) (hn : usesLen i = true → n ≤ p.nmax)
    (hw : i.wellFormed p = true) (r : Nat × Nat) (hr : r ∈ writeSet i n) (hlo : r.1 ≤ a)
    (hhi : a < r.1 + 8 * r.2) : isBufferOffset p a = true := by
  rw [isBufferOffset_iff]
  cases i with
  | nop | conf | pitchpk => cases hr
  | fft b | win b | pitchac b =>
    have := hn rfl
    obtain rfl := List.mem_singleton.1 hr
    cases b <;> simp only [cAddr, cBase] at hlo hhi <;> omega
  | mag d =>
    have := hn rfl
    obtain rfl := List.mem_singleton.1 hr
    cases d <;> simp only [rAddr, rBase] at hlo hhi <;> omega
  | pitchhps =>
    have := hn rfl
    have := two_le_nmax p
    obtain rfl | hr := List.mem_cons.1 hr
    · simp only [rAddr, rBase] at hlo hhi
      omega
    · obtain rfl := List.mem_singleton.1 hr
      simp only [rAddr, rBase] at hlo hhi
      omega
  | peaks b maxp =>
    have hcap : maxp.toNat ≤ p.peakCap := Nat.le_of_ble_eq_true (Bool.and_eq_true_iff.1 hw).2
    obtain ⟨j, hj, rfl⟩ := List.mem_map.1 hr
    have := List.mem_range.1 hj
    simp only [pAddr, pBase] at hlo hhi
    omega

/-- What the checks of its acceptance say of a pending command's length and operands. -/
theorem Inv.pending_bounds {s : State} (h : Inv s) {p : Pending} (hp : s.pending = some p) {i : Instr}
    (hd : decode p.word = .ok i) :
    (usesLen i = true → p.len.toNat ≤ s.params.nmax) ∧ i.wellFormed s.params = true := by
  obtain ⟨-, -, -, j, hc⟩ := h.pendingAccepted p hp
  obtain ⟨hd', hc⟩ := (check_ok_iff _ _ _ _ _).1 hc
  obtain rfl : i = j := Except.ok.inj (hd.symm.trans hd')
  obtain ⟨hl, hw, -⟩ := checkInstr_none _ _ _ _ hc
  exact ⟨fun hu => (hl hu).2, hw⟩

theorem Inv.scramble_mem {s : State} (h : Inv s) :
    Memory.wf s.scramble.mem ∧ ∀ c ∈ s.scramble.mem, isBufferOffset s.params c.1 = true := by
  unfold State.scramble
  split
  · exact ⟨h.memWf, h.memMapped⟩
  · next p hp =>
    split
    · next i hd =>
      obtain ⟨hn, hw⟩ := h.pending_bounds hp hd
      refine ⟨foldl_drawWords_wf s _ h.memWf, fun c hc => ?_⟩
      obtain hc | ⟨r, hr, hlo, hhi⟩ := mem_foldl_drawWords s _ c hc
      · exact h.memMapped c hc
      · exact writeSet_mapped s.params i _ c.1 hn hw r hr hlo hhi
    · exact ⟨h.memWf, h.memMapped⟩

/-- A state with the registers of reset meets the invariant as soon as its memory does. -/
theorem Inv.of_reset (params : Params) (mem : List Host.Cell) (epoch draws : Nat) (turns : List Turn)
    (reply : Option Reply) (hwf : Memory.wf mem) (hm : ∀ c ∈ mem, isBufferOffset params c.1 = true) :
    Inv { State.reset with
      params := params, mem := mem, epoch := epoch, draws := draws, turns := turns, reply := reply } where
  memWf := hwf
  memMapped := hm
  pendingAccepted := nofun
  busyFlags := nofun
  doneFlags := nofun
  errFlags := nofun
  pcountBound := Nat.zero_le _

theorem Inv.softReset {s : State} (h : Inv s) : Inv (softReset s) :=
  .of_reset _ _ _ _ _ _ h.scramble_mem.1 h.scramble_mem.2

theorem powerOnReset_inv (s : State) : Inv (powerOnReset s) :=
  .of_reset _ _ _ _ _ _ List.Pairwise.nil nofun

/-- Settles O54: the reset state has no stored byte, no pending command and no flag set. -/
theorem resetMeetsTheInvariant : Obligations.ResetMeetsTheInvariant :=
  .of_reset _ _ _ _ _ _ List.Pairwise.nil nofun

/-! ## Steps -/

theorem Inv.writeReg {s : State} (h : Inv s) (r : Reg) (v : Word) (hb : (s.busy && r.busyOwned) = false) :
    Inv (s.writeReg r v) := by
  have idle (ho : r.busyOwned = true) : s.busy = false := by simpa [ho] using hb
  cases r with
  | ctrl =>
    cases hv : v.getLsbD 1 with
    | true => rw [State.writeReg, writeCtrl_reset v s hv]; exact h.softReset
    | false =>
      rw [State.writeReg, writeCtrl_keep v s hv]
      exact h.with_unconstrained _ _ _ _ _ _ _ _ _
  | status => exact h.acknowledge v
  | cmd => exact h.issue (idle rfl) _
  | len => exact h.with_operands (idle rfl) _ s.fs
  | fs => exact h.with_operands (idle rfl) s.len _
  | peakThr | fPeak | fHps | fAc => exact h.with_unconstrained _ _ _ _ _ _ _ _ _
  | id | cfg | pcount | conf | pkBin | hpsBin | acLag => exact h

theorem Inv.hostTxn {s : State} (h : Inv s) (tx : Txn) : Inv (hostTxn tx s) := by
  cases tx with
  | read off =>
    change Inv (memRead off s)
    obtain ⟨-, e⟩ | ⟨r, -, e⟩ | ⟨a, -, -, e⟩ | ⟨a, -, -, e⟩ := memRead_cases off s <;> rw [e]
    · exact h.answer _
    · exact h.answer _
    · exact h.with_unconstrained _ _ _ _ _ _ _ _ _
    · exact h.answer _
  | write off v =>
    change Inv (memWrite off v s)
    obtain ⟨-, e⟩ | ⟨-, -, e⟩ | ⟨r, -, hb, e⟩ | ⟨a, ht, -, e⟩ := memWrite_cases off v s <;> rw [e]
    · exact h.answer _
    · exact h.with_unconstrained _ _ _ _ _ _ _ _ _
    · exact (h.writeReg r v hb).answer _
    · exact (h.storeWord ht v).answer _

/-- A command that completes had DONE and ERR clear, so it raises DONE alone. -/
theorem Inv.exec {s t : State} (h : Inv s) {p : Pending} (hp : s.pending = some p) {i : Instr}
    (hc : check s.params p.word p.len p.fs = .ok i) (ht : exec i s = .next t) : Inv t := by
  obtain ⟨hd, -⟩ := (check_ok_iff _ _ _ _ _).1 hc
  obtain ⟨hn, hw⟩ := h.pending_bounds hp hd
  have hlen : s.opLen = p.len.toNat := by simp [State.opLen, hp]
  obtain ⟨⟨hwf, hm⟩, hcount⟩ := exec_mapped i s t (hlen ▸ hn) hw h.memWf h.memMapped h.pcountBound ht
  obtain ⟨-, herr, hcode⟩ := h.busyFlags (by simp [State.busy, hp])
  obtain ⟨t', ht', e⟩ := exec_next i s
  obtain rfl : t' = t := by rw [ht] at ht'; exact (Host.Outcome.next.inj ht').symm
  rw [e]
  exact
    { memWf := hwf
      memMapped := hm
      pendingAccepted := nofun
      busyFlags := nofun
      doneFlags := fun _ => ⟨herr, hcode⟩
      errFlags := h.errFlags
      pcountBound := hcount }

theorem Inv.engineStep {s t : State} (h : Inv s) (ht : engineStep s = .next t) : Inv t := by
  obtain ⟨-, e⟩ | ⟨p, i, hp, hc, e⟩ | ⟨p, er, -, -, e⟩ := engineStep_cases s <;> rw [e] at ht
  · cases ht; exact h
  · exact h.exec hp hc ht
  · cases ht

/-- Settles O55: each kind of move keeps the invariant; the engine by the bounds its acceptance checked, the host by
the access types and the busy rule, the resets because they clear every register. -/
theorem stepKeepsTheInvariant : Obligations.StepKeepsTheInvariant := by
  unfold Obligations.StepKeepsTheInvariant
  intro s t h ht
  obtain ⟨-, e⟩ | ⟨rest, -, e⟩ | ⟨tx, rest, -, e⟩ | ⟨rest, -, e⟩ := step_cases s <;> rw [e] at ht
  · exact h.engineStep ht
  · exact (h.with_turns rest).engineStep ht
  · cases ht; exact (h.with_turns rest).hostTxn tx
  · cases ht; exact powerOnReset_inv _

end Sys2Proof.Machine
end

section
namespace Sys2Proof.Machine

open Sys2Proof.Spec

/-! ## BUSY, HAZ and the operands over a step -/

theorem busy_eq_true_iff (s : State) : s.busy = true ↔ ∃ p, s.pending = some p := by
  rw [State.busy, Option.isSome_iff_exists]

@[simp] theorem issue_haz (w : CmdWord) (s : State) : (issue w s).haz = s.haz := by
  obtain ⟨_, _, e⟩ | ⟨_, _, _, e⟩ := issue_cases w s <;> rw [e]

/-- Settles O47: the engine keeps HAZ, and of the host's transactions an acknowledgement that names it and a soft
reset alone lower it. -/
theorem hazFallsOnlyWhenCleared : Obligations.HazFallsOnlyWhenCleared := by
  unfold Obligations.HazFallsOnlyWhenCleared
  intro s t ht hs hclear
  have engine (u : State) (hu : u.haz = true) (h : engineStep u = .next t) : False := by
    obtain ⟨-, rfl⟩ | ⟨-, -, hkeep, -⟩ := engineStep_next u t h
    · exact absurd (hu.symm.trans hclear) nofun
    · exact absurd ((hkeep.trans hu).symm.trans hclear) nofun
  obtain ⟨-, e⟩ | ⟨rest, -, e⟩ | ⟨tx, rest, hturns, e⟩ | ⟨rest, hturns, -⟩ := step_cases s
  · exact (engine s hs (e.symm.trans ht)).elim
  · exact (engine { s with turns := rest } hs (e.symm.trans ht)).elim
  · obtain rfl := Host.Outcome.next.inj (e.symm.trans ht)
    refine ⟨rest, .inr ?_⟩
    obtain ⟨_, _, _, _, e', hkeep⟩ | ⟨v, rfl, hv, -⟩ | ⟨_, -, -, e'⟩ | ⟨v, rfl, e'⟩ | ⟨v, -, -, e'⟩
      | ⟨-, _, _, _, _, _, _, e'⟩ := hostTxn_cases tx { s with turns := rest }
    · rw [e', hkeep hs] at hclear; cases hclear
    · exact .inr ⟨v, hturns, hv⟩
    · rw [e'] at hclear; exact absurd (hs.symm.trans hclear) nofun
    · rw [e', answer_haz, acknowledge_haz] at hclear
      exact .inl ⟨v, hturns, by simpa [hs] using hclear⟩
    · rw [e', answer_haz, issue_haz] at hclear; exact absurd (hs.symm.trans hclear) nofun
    · rw [e'] at hclear; exact absurd (hs.symm.trans hclear) nofun
  · exact ⟨rest, .inl hturns⟩

/-- Every transaction keeps the pending command but a soft reset and the acceptance of a word while idle. -/
theorem hostTxn_pending (tx : Txn) (s : State) :
    (hostTxn tx s).pending = s.pending
    ∨ (∃ v, tx = .write 0x10 v ∧ v.getLsbD 1 = true ∧ (hostTxn tx s).pending = none)
    ∨ (∃ v i, tx = .write 0x20 v ∧ s.busy = false ∧ check s.params (v.setWidth 32) s.len s.fs = .ok i
        ∧ (hostTxn tx s).pending = some ⟨v.setWidth 32, s.len, s.fs⟩) := by
  obtain ⟨_, _, _, _, e, -⟩ | ⟨v, htx, hv, e⟩ | ⟨_, -, -, e⟩ | ⟨_, -, e⟩ | ⟨v, htx, hidle, e⟩
    | ⟨-, _, _, _, _, _, _, e⟩ := hostTxn_cases tx s <;> rw [e]
  case inr.inl => exact .inr (.inl ⟨v, htx, hv, rfl⟩)
  case inr.inr.inr.inr.inl =>
    obtain ⟨i, hc, e'⟩ | ⟨_, -, -, e'⟩ := issue_cases (v.setWidth 32) s <;> rw [e']
    · exact .inr (.inr ⟨v, i, htx, hidle, hc, rfl⟩)
    · exact .inl rfl
  all_goals exact .inl rfl

/-- The engine leaves nothing pending. -/
theorem engineStep_pending (s t : State) (h : engineStep s = .next t) : t.pending = none := by
  obtain ⟨hidle, rfl⟩ | ⟨-, -, -, -, hp, -⟩ := engineStep_next s t h
  · exact (busy_eq_false_iff t).1 hidle
  · exact hp

/-- Settles O60: after the engine's move or a power-on reset nothing is pending, and the host changes what is pending
in two ways alone. -/
theorem busyChangesOnlyAtItsEvents : Obligations.BusyChangesOnlyAtItsEvents := by
  unfold Obligations.BusyChangesOnlyAtItsEvents
  intro s t ht
  have noRise {P : Prop} (h : t.pending = none) (hb : t.busy = true) : P :=
    absurd (((busy_eq_false_iff t).2 h).symm.trans hb) nofun
  obtain ⟨hturns, e⟩ | ⟨rest, hturns, e⟩ | ⟨tx, rest, hturns, e⟩ | ⟨rest, hturns, e⟩ := step_cases s
  · have hp := engineStep_pending _ t (e.symm.trans ht)
    exact ⟨fun _ => noRise hp, fun _ _ => .inl hturns⟩
  · have hp := engineStep_pending _ t (e.symm.trans ht)
    exact ⟨fun _ => noRise hp, fun _ _ => .inr ⟨rest, .inl hturns⟩⟩
  · obtain rfl := Host.Outcome.next.inj (e.symm.trans ht)
    obtain hp | ⟨v, rfl, hv, hp⟩ | ⟨v, i, rfl, hidle, hc, hp⟩ := hostTxn_pending tx { s with turns := rest }
    · have hsame : (hostTxn tx { s with turns := rest }).busy = s.busy := congrArg Option.isSome hp
      rw [hsame]
      exact ⟨fun h0 h1 => absurd (h0.symm.trans h1) nofun, fun h1 h0 => absurd (h0.symm.trans h1) nofun⟩
    · exact ⟨fun _ => noRise hp, fun _ _ => .inr ⟨rest, .inr (.inr ⟨v, hturns, hv⟩)⟩⟩
    · exact ⟨fun _ _ => ⟨v, i, rest, hturns, hc, hp⟩, fun hbusy => absurd (hidle.symm.trans hbusy) nofun⟩
  · obtain rfl := Host.Outcome.next.inj (e.symm.trans ht)
    exact ⟨fun _ => noRise rfl, fun _ _ => .inr ⟨rest, .inr (.inl hturns)⟩⟩

/-- What the busy rule leaves the host while a command is pending (70_reset_and_hazards.md R301): IE, the flags, a
drawn value, or a soft reset. -/
theorem hostTxn_of_busy (tx : Txn) (s : State) (hb : s.busy = true) :
    (∃ ie done err haz draws reply,
      hostTxn tx s =
        { s with ie := ie, done := done, err := err, haz := haz, draws := draws, reply := reply })
    ∨ hostTxn tx s = (softReset s).answer (.write .ok) := by
  cases tx with
  | read off =>
    obtain ⟨-, e⟩ | ⟨_, -, e⟩ | ⟨_, -, -, e⟩ | ⟨_, -, -, e⟩ := memRead_cases off s <;>
      exact .inl ⟨_, _, _, _, _, _, e⟩
  | write off v =>
    obtain ⟨-, e⟩ | ⟨-, -, e⟩ | ⟨r, -, hown, e⟩ | ⟨_, -, hidle, -⟩ := memWrite_cases off v s
    · exact .inl ⟨_, _, _, _, _, _, e⟩
    · exact .inl ⟨_, _, _, _, _, _, e⟩
    · have howned : r.busyOwned = false := by simpa [hb] using hown
      cases r with
      | ctrl =>
        cases hv : v.getLsbD 1 with
        | true => rw [State.writeReg, writeCtrl_reset v s hv] at e; exact .inr e
        | false => rw [State.writeReg, writeCtrl_keep v s hv] at e; exact .inl ⟨_, _, _, _, _, _, e⟩
      | cmd | len | fs | peakThr | fPeak | fHps | fAc => cases howned
      | status | id | cfg | pcount | conf | pkBin | hpsBin | acLag => exact .inl ⟨_, _, _, _, _, _, e⟩
    · exact absurd (hidle.symm.trans hb) nofun

/-- Settles O57: a command stays pending over a host transaction alone, and the busy rule keeps those from operands
and buffers. -/
theorem operandsAreStableWhilePending : Obligations.OperandsAreStableWhilePending := by
  unfold Obligations.OperandsAreStableWhilePending
  intro s t p p' hp ht hp'
  have completed {P : Prop} (h : t.pending = none) : P := absurd (h.symm.trans hp') nofun
  obtain ⟨-, e⟩ | ⟨rest, -, e⟩ | ⟨tx, rest, -, e⟩ | ⟨rest, -, e⟩ := step_cases s
  · exact completed (engineStep_pending _ t (e.symm.trans ht))
  · exact completed (engineStep_pending _ t (e.symm.trans ht))
  · obtain rfl := Host.Outcome.next.inj (e.symm.trans ht)
    obtain ⟨_, _, _, _, _, _, e'⟩ | e' :=
      hostTxn_of_busy tx { s with turns := rest } ((busy_eq_true_iff s).2 ⟨p, hp⟩)
    · rw [e'] at hp' ⊢
      exact ⟨Option.some.inj (hp'.symm.trans hp), rfl, rfl, rfl, rfl, rfl, rfl, rfl, fun _ => rfl⟩
    · exact completed (e' ▸ rfl)
  · obtain rfl := Host.Outcome.next.inj (e.symm.trans ht)
    exact completed rfl

end Sys2Proof.Machine
end

section
namespace Sys2Proof.Machine

open Sys2Proof.Spec

/-! ## Reading and writing registers -/

/-- A buffer word of R62 is an aligned valid buffer offset. -/
theorem bufferWord_mapped {p : Params} {a : Nat} (h : BufferWord p a) : a % 8 = 0 ∧ isBufferOffset p a = true := by
  obtain ⟨hm, hlo, h8⟩ := h
  refine ⟨h8, (isBufferOffset_iff p a).2 ?_⟩
  unfold Mapped at hm
  omega

theorem ofOffset_owned {n : Nat} (h : n ∈ [0x20, 0x28, 0x30, 0x38, 0x48, 0x50, 0x58]) :
    ∃ r, Reg.ofOffset n = some r ∧ r.busyOwned = true := by
  simp only [List.mem_cons, List.not_mem_nil, or_false] at h
  obtain rfl | rfl | rfl | rfl | rfl | rfl | rfl := h <;> exact ⟨_, rfl, rfl⟩

/-- A write of a read-only register is ignored, BUSY or not (10_state.md R26). -/
theorem write_readOnly (off : Offset) (v : Word) (s : State)
    (h : off.toNat ∈ [0x00, 0x08, 0x40, 0x60, 0x68, 0x70, 0x78]) :
    hostTxn (.write off v) s = s.answer (.write .ok) := by
  obtain ⟨r, hr, hown, hkeep⟩ :
      ∃ r, Reg.ofOffset off.toNat = some r ∧ r.busyOwned = false ∧ s.writeReg r v = s := by
    simp only [List.mem_cons, List.not_mem_nil, or_false] at h
    obtain e | e | e | e | e | e | e := h <;> rw [e] <;> exact ⟨_, rfl, rfl, rfl⟩
  rw [write_reg off r v s hr (.inr hown), hkeep]

theorem write_status (off : Offset) (v : Word) (s : State) (h : off.toNat = 0x18) :
    hostTxn (.write off v) s = (acknowledge v s).answer (.write .ok) :=
  write_reg off .status v s (by rw [h]; rfl) (.inr rfl)

theorem write_ctrl (off : Offset) (v : Word) (s : State) (h : off.toNat = 0x10) :
    hostTxn (.write off v) s = (writeCtrl v s).answer (.write .ok) :=
  write_reg off .ctrl v s (by rw [h]; rfl) (.inr rfl)

/-- A write of a buffer word while busy is ignored with a hazard. -/
theorem write_buffer_busy (off : Offset) (v : Word) (s : State)
    (h : off.toNat % 8 = 0 ∧ isBufferOffset s.params off.toNat = true) (hb : s.busy = true) :
    hostTxn (.write off v) s = s.hazard.answer (.write .ok) := by
  simp [hostTxn, memWrite, (target_buffer_iff _ off _).2 ⟨rfl, h⟩, hb]

/-- A read of a buffer word while busy draws its answer, with a hazard. -/
theorem read_buffer_busy (off : Offset) (s : State)
    (h : off.toNat % 8 = 0 ∧ isBufferOffset s.params off.toNat = true) (hb : s.busy = true) :
    hostTxn (.read off) s =
      { s.hazard with draws := s.draws + 1 }.answer (.read (Config.draw s.draws) .ok) := by
  simp [hostTxn, memRead, (target_buffer_iff _ off _).2 ⟨rfl, h⟩, hb]

/-- Settles O42: each offset reaches its register or buffer word, and the busy rule says which of them the engine
owns. -/
theorem busyRule : Obligations.BusyRule := by
  unfold Obligations.BusyRule
  intro s off v hb
  refine ⟨?_, fun h => ?_, write_readOnly off v s, write_status off v s, fun h hv => ?_, fun h hv => ?_,
    fun h h8 => ?_⟩
  · rintro (h | h)
    · obtain ⟨r, hr, hown⟩ := ofOffset_owned h
      exact write_reg_busy off r v s hr hb hown
    · exact write_buffer_busy off v s (bufferWord_mapped h) hb
  · exact read_buffer_busy off s (bufferWord_mapped h) hb
  · rw [write_ctrl off v s h, writeCtrl_keep v s hv]; rfl
  · rw [write_ctrl off v s h, writeCtrl_reset v s hv]; rfl
  · obtain ⟨r, hr⟩ := reg_ofOffset_exists _ h h8
    exact ⟨r, hr, read_reg off r s hr⟩

/-- Settles O44: an idle write reaches the register of its offset, which keeps the bits its access type lets it. -/
theorem registerWritesFollowTheAccessType : Obligations.RegisterWritesFollowTheAccessType := by
  unfold Obligations.RegisterWritesFollowTheAccessType
  intro s v hb
  refine ⟨write_reg 0x28 .len v s rfl (.inl hb), write_reg 0x30 .fs v s rfl (.inl hb),
    write_reg 0x38 .peakThr v s rfl (.inl hb), write_reg 0x48 .fPeak v s rfl (.inl hb),
    write_reg 0x50 .fHps v s rfl (.inl hb), write_reg 0x58 .fAc v s rfl (.inl hb), fun hv => ?_,
    write_status 0x18 v s rfl, fun off h => write_readOnly off v s h⟩
  rw [write_ctrl 0x10 v s rfl, writeCtrl_keep v s hv]
  rfl

theorem cfgWord_toNat (p : Params) : (cfgWord p).toNat = p.log2Nmax + 256 * p.peakCap := by
  obtain ⟨⟨-, hlog⟩, ⟨-, hcap⟩, -⟩ := p.legal
  rw [cfgWord, BitVec.toNat_ofNat]
  omega

theorem cfgWord_reference : cfgWord .reference = 0x000000000000400D := by decide

/-- The fields of CFG (10_state.md R28). -/
theorem cfgWord_fields (p : Params) :
    ((cfgWord p).extractLsb' 0 5).toNat = p.log2Nmax ∧ (cfgWord p).extractLsb' 5 3 = 0
      ∧ ((cfgWord p).extractLsb' 8 8).toNat = p.peakCap ∧ (cfgWord p).extractLsb' 16 48 = 0 := by
  obtain ⟨⟨-, hlog⟩, ⟨-, hcap⟩, -⟩ := p.legal
  refine ⟨?_, BitVec.eq_of_toNat_eq (?_ : _ = 0), ?_, BitVec.eq_of_toNat_eq (?_ : _ = 0)⟩ <;>
    simp only [BitVec.extractLsb'_toNat, cfgWord_toNat, Nat.shiftRight_eq_div_pow] <;> omega

/-- The fields of STATUS (10_state.md R30). -/
theorem statusWord_fields (s : State) :
    s.statusWord.getLsbD 0 = s.busy ∧ s.statusWord.getLsbD 1 = s.done ∧ s.statusWord.getLsbD 2 = s.err
      ∧ s.statusWord.getLsbD 3 = s.haz ∧ s.statusWord.extractLsb' 4 4 = 0
      ∧ s.statusWord.extractLsb' 8 8 = s.errcode.code ∧ s.statusWord.extractLsb' 16 48 = 0 := by
  unfold State.statusWord
  generalize s.busy = b, s.done = d, s.err = e, s.haz = h
  cases s.errcode <;> revert b d e h <;> decide

theorem ctrlWord_eq (s : State) : s.ctrlWord = if s.ie then 1 else 0 := by
  cases h : s.ie <;> simp [State.ctrlWord, flagBit, h]

/-- Settles O43: a read of a register offset answers the register's word; CFG and STATUS are read field by field. -/
theorem registerReadsReturnTheFields : Obligations.RegisterReadsReturnTheFields := by
  unfold Obligations.RegisterReadsReturnTheFields
  intro s reads
  have read (off : Offset) (r : Reg) (h : Reg.ofOffset off.toNat = some r) : reads off (s.readReg r) :=
    read_reg off r s h
  refine ⟨read 0x00 .id rfl, ⟨_, read 0x08 .cfg rfl, cfgWord_fields s.params⟩, fun hp => ?_, ?_,
    ⟨_, read 0x18 .status rfl, statusWord_fields s⟩, read 0x20 .cmd rfl, read 0x28 .len rfl, read 0x30 .fs rfl,
    read 0x38 .peakThr rfl, read 0x40 .pcount rfl, read 0x48 .fPeak rfl, read 0x50 .fHps rfl, read 0x58 .fAc rfl,
    read 0x60 .conf rfl, read 0x68 .pkBin rfl, read 0x70 .hpsBin rfl, read 0x78 .acLag rfl⟩
  · rw [← cfgWord_reference, ← hp]
    exact read 0x08 .cfg rfl
  · exact ctrlWord_eq s ▸ read 0x10 .ctrl rfl

/-! ## The registers after a reset -/

/-- A reset of any kind leaves the registers of the reset state. -/
theorem reset_registers (s t : State)
    (h : t = State.reset ∨ (∃ rest, s.turns = .powerOn :: rest ∧ step s = .next t) ∨ t = powerOnReset s
      ∨ t = softReset s) :
    ∃ params mem epoch draws turns reply, t = { State.reset with
      params := params, mem := mem, epoch := epoch, draws := draws, turns := turns, reply := reply } := by
  obtain rfl | ⟨rest, hturns, ht⟩ | rfl | rfl := h
  · exact ⟨_, _, _, _, _, _, rfl⟩
  · rw [step, hturns] at ht
    cases ht
    exact ⟨_, _, _, _, _, _, rfl⟩
  · exact ⟨_, _, _, _, _, _, rfl⟩
  · exact ⟨_, _, _, _, _, _, rfl⟩

/-- Settles O50: whatever the kind of reset, each register is read in the reset state; CFG follows the parameters. -/
theorem resetValuesOfTheRegisters : Obligations.ResetValuesOfTheRegisters := by
  unfold Obligations.ResetValuesOfTheRegisters
  intro s t h
  obtain ⟨params, _, _, _, _, _, rfl⟩ := reset_registers s t h
  refine ⟨rfl, cfgWord_toNat params, ?_, rfl, rfl, rfl, rfl, rfl, rfl, rfl, rfl, rfl, rfl, rfl, rfl, rfl, rfl, rfl, rfl⟩
  rintro ⟨⟩
  exact cfgWord_reference

/-- Settles O51: a power-on move empties memory and counts the reset, so every byte reads as this reset's free one. -/
theorem powerOnLeavesFreshContents : Obligations.PowerOnLeavesFreshContents := by
  unfold Obligations.PowerOnLeavesFreshContents
  intro s rest hturns
  exact ⟨powerOnReset { s with turns := rest }, by rw [step, hturns], rfl, fun _ => rfl⟩

end Sys2Proof.Machine
end

section
namespace Sys2Proof.Machine

open Sys2Proof.Spec

/-! ## What a command's results depend on (40_command.md R124) -/

/-- A store makes two states alike at the bytes it writes, and leaves alike those that were. -/
theorem byteAt_storeWords_congr (s s' : State) (a : Nat) (vs : List Word) (x : Nat)
    (h : ¬(a ≤ x ∧ x < a + 8 * vs.length) → s.byteAt x = s'.byteAt x) :
    (s.storeWords a vs).byteAt x = (s'.storeWords a vs).byteAt x := by
  rw [byteAt_storeWords, byteAt_storeWords]
  split
  · rfl
  · exact h ‹_›

theorem byteAt_storeC_congr (s s' : State) (b : CBuf) (xs : List Cplx) (x : Nat) (h : InC b xs.length x) :
    (s.storeC b xs).byteAt x = (s'.storeC b xs).byteAt x := by
  refine byteAt_storeWords_congr s s' _ _ x fun hout => absurd ?_ hout
  rw [cplxWords_length]
  simp only [InC, cAddr] at h ⊢
  omega

theorem byteAt_storeR_congr (s s' : State) (b : RBuf) (xs : List F64) (x : Nat)
    (h : ¬InR b xs.length x → s.byteAt x = s'.byteAt x) :
    (s.storeR b xs).byteAt x = (s'.storeR b xs).byteAt x := by
  refine byteAt_storeWords_congr s s' _ _ x fun hout => h fun hin => hout ?_
  simp only [InR, rAddr] at hin ⊢
  omega

theorem byteAt_storePeaks_congr (s s' : State) (j : Nat) (ps : List Peak) (x : Nat)
    (h : (∀ i, j ≤ i → i < j + ps.length → ¬(pAddr i ≤ x ∧ x < pAddr i + 24)) → s.byteAt x = s'.byteAt x) :
    (s.storePeaks j ps).byteAt x = (s'.storePeaks j ps).byteAt x := by
  induction ps generalizing s s' j with
  | nil => exact h fun i h1 h2 => absurd (h1.trans_lt h2) (lt_irrefl _)
  | cons p ps ih =>
    refine ih _ _ (j + 1) fun hlater => byteAt_storeWords_congr s s' _ _ x fun hfirst => h fun i h1 h2 => ?_
    obtain rfl | h1 := h1.eq_or_lt
    · exact hfirst
    · exact hlater i h1 (by rw [List.length_cons] at h2; omega)

/-- Two states between which command `i` can see no difference: N, fs, the parameters and all that its row of R124
reads are the same. -/
structure SameInputs (i : Instr) (s s' : State) : Prop where
  params : s.params = s'.params
  opLen : s.opLen = s'.opLen
  opFs : s.opFs = s'.opFs
  bytes : ∀ a, ReadsByte i s.opLen a → s.byteAt a = s'.byteAt a
  threshold : opcode i = 3 → s.peakThr = s'.peakThr
  estimates : opcode i = 7 → s.fPeak = s'.fPeak ∧ s.fHps = s'.fHps ∧ s.fAc = s'.fAc

theorem SameInputs.loadC {i : Instr} {s s' : State} (h : SameInputs i s s') {b : CBuf}
    (hreads : ∀ a, InC b s.opLen a → ReadsByte i s.opLen a) : s.loadC b s.opLen = s'.loadC b s.opLen :=
  loadC_congr s s' b s.opLen fun a hlo hhi => h.bytes a (hreads a ⟨hlo, hhi⟩)

theorem SameInputs.magnitudes {i : Instr} {s s' : State} (h : SameInputs i s s') {b : CBuf}
    (hreads : ∀ a, InC b s.opLen a → ReadsByte i s.opLen a) :
    s.magnitudes b s.opLen = s'.magnitudes b s.opLen :=
  congrArg (List.map magf) (h.loadC hreads)

theorem SameInputs.foundPeaks {s s' : State} {b : RBuf} {maxp : BitVec 8}
    (h : SameInputs (.peaks b maxp) s s') : s.foundPeaks b maxp.toNat = s'.foundPeaks b maxp.toNat := by
  have hload : s.loadR b (s.opLen / 2) = s'.loadR b (s.opLen / 2) :=
    loadR_congr s s' b _ fun a hlo hhi => h.bytes a ⟨hlo, hhi⟩
  rw [State.foundPeaks, State.foundPeaks, hload, h.threshold rfl, h.opLen, h.opFs]

/-- Settles O23: what a command stores and sets is a function of its inputs, and a store of the same words at the same
offsets leaves the same bytes there. -/
theorem resultsDependOnlyOnWhatIsRead : Obligations.ResultsDependOnlyOnWhatIsRead := by
  unfold Obligations.ResultsDependOnlyOnWhatIsRead
  intro i s s' t t' _ _ hparams hlen hfs hbytes hthr hest ht ht'
  have h : SameInputs i s s' := ⟨hparams, hlen, hfs, hbytes, hthr, hest⟩
  cases i with
  | nop => exact ⟨nofun, nofun, nofun, nofun, nofun, nofun⟩
  | fft b dir =>
    have hload := h.loadC (b := b) fun _ => id
    cases ht; cases ht'
    refine ⟨fun a ha => ?_, nofun, nofun, nofun, nofun, nofun⟩
    rw [complete_byteAt, complete_byteAt, ← hparams, ← hlen, ← hload]
    refine byteAt_storeC_congr s s' b _ a ?_
    rwa [fftCore_length _ _ _ _ (loadC_length s b s.opLen)]
  | win b kind =>
    have hload := h.loadC (b := b) fun _ => id
    cases ht; cases ht'
    refine ⟨fun a ha => ?_, nofun, nofun, nofun, nofun, nofun⟩
    rw [complete_byteAt, complete_byteAt, ← hparams, ← hlen, ← hload]
    refine byteAt_storeC_congr s s' b _ a ?_
    rwa [windowFrom_length, loadC_length]
  | mag d b =>
    have hmag := h.magnitudes (b := b) fun _ => id
    cases ht; cases ht'
    refine ⟨fun a ha => ?_, nofun, nofun, nofun, nofun, nofun⟩
    rw [complete_byteAt, complete_byteAt, ← hlen, ← hmag]
    refine byteAt_storeR_congr s s' d _ a fun hout => absurd ?_ hout
    rwa [State.magnitudes, List.length_map, loadC_length]
  | peaks b maxp =>
    have hps := h.foundPeaks
    cases ht; cases ht'
    rw [← hps]
    refine ⟨fun a ⟨j, hj, hin⟩ => ?_, fun _ => rfl, nofun, nofun, nofun, nofun⟩
    have hlt : j < (s.foundPeaks b maxp.toNat).length := hj.trans_le (Nat.mod_le _ _)
    exact byteAt_storePeaks_congr s s' 0 _ a fun hout => absurd hin (hout j (Nat.zero_le j) (by omega))
  | pitchpk b =>
    have hmag := h.magnitudes (b := b) fun _ => id
    cases ht; cases ht'
    rw [← hparams, ← hlen, ← hfs, ← hmag]
    exact ⟨nofun, nofun, fun _ => ⟨rfl, rfl⟩, nofun, nofun, nofun⟩
  | pitchhps b o =>
    have hmag := h.magnitudes (b := b) fun _ => id
    cases ht; cases ht'
    rw [← hparams, ← hlen, ← hfs, ← hmag]
    refine ⟨fun a ha => ?_, nofun, nofun, fun _ => ⟨rfl, rfl⟩, nofun, nofun⟩
    refine byteAt_storeR_congr _ _ .r1 _ a fun hout1 => byteAt_storeR_congr s s' .r0 _ a fun hout0 => ?_
    rw [hpsBuild_length] at hout1
    rw [State.magnitudes, List.length_map, loadC_length] at hout0
    exact (ha.elim hout0 hout1).elim
  | pitchac d b =>
    have hload := h.loadC (b := b) fun _ => id
    cases ht; cases ht'
    rw [← hparams, ← hlen, ← hfs, ← hload]
    refine ⟨fun a ha => ?_, nofun, nofun, nofun, fun _ => ⟨rfl, rfl⟩, nofun⟩
    refine byteAt_storeC_congr s s' d _ a ?_
    rwa [autocorrelation_length _ _ _ (loadC_length s b s.opLen)]
  | conf =>
    obtain ⟨hpk, hhps, hac⟩ := h.estimates rfl
    cases ht; cases ht'
    rw [hpk, hhps, hac]
    exact ⟨nofun, nofun, nofun, nofun, nofun, fun _ => rfl⟩

end Sys2Proof.Machine
end

section
namespace Sys2Proof.Machine

open Sys2Proof.Spec

/-! ## Bus errors, and the words the host stores (20_memory.md R60 to R64, R71) -/

/-- R62's map is the registers and the valid buffer bytes: each buffer ends within its region. -/
theorem mapped_iff (p : Params) (a : Nat) : Mapped p a ↔ a ≤ 0x78 ∨ isBufferOffset p a = true := by
  have hn := nmax_le p
  have hc := peakCap_le p
  rw [isBufferOffset_iff]
  unfold Mapped
  omega

/-- An offset has no target exactly when R62's map leaves it out or it is misaligned (20_memory.md R63, R64). -/
theorem target_none_iff_not_mapped (p : Params) (off : Offset) :
    target p off = none ↔ ¬(off.toNat % 8 = 0 ∧ Mapped p off.toNat) := by
  rw [target_none_iff, mapped_iff]

theorem read_no_target (off : Offset) (s : State) (h : target s.params off = none) :
    hostTxn (.read off) s = s.answer (.read 0 .err) := by
  simp [hostTxn, memRead, h]

theorem write_no_target (off : Offset) (v : Word) (s : State) (h : target s.params off = none) :
    hostTxn (.write off v) s = s.answer (.write .err) := by
  simp [hostTxn, memWrite, h]

/-- A read that has a target is answered OK, BUSY or not. -/
theorem read_reply_ok (off : Offset) (s : State) (h : target s.params off ≠ none) :
    ∃ d, (hostTxn (.read off) s).reply = some (.read d .ok) := by
  obtain ⟨hnone, -⟩ | ⟨_, -, e⟩ | ⟨_, -, -, e⟩ | ⟨_, -, -, e⟩ := memRead_cases off s
  · exact absurd hnone h
  all_goals exact ⟨_, congrArg State.reply e⟩

/-- A write that has a target is answered OK, even one the busy rule ignores. -/
theorem write_reply_ok (off : Offset) (v : Word) (s : State) (h : target s.params off ≠ none) :
    (hostTxn (.write off v) s).reply = some (.write .ok) := by
  obtain ⟨hnone, -⟩ | ⟨-, -, e⟩ | ⟨_, -, -, e⟩ | ⟨_, -, -, e⟩ := memWrite_cases off v s
  · exact absurd hnone h
  all_goals exact congrArg State.reply e

/-- Settles O41: R62's map names the offsets that have a target; without one the access is answered ERR, with one
OK. -/
theorem busErrorsChangeNothing : Obligations.BusErrorsChangeNothing := by
  unfold Obligations.BusErrorsChangeNothing
  intro s off v
  refine ⟨fun h => ?_, fun h8 hm => ?_⟩
  · have hnone := (target_none_iff_not_mapped s.params off).2 h
    exact ⟨read_no_target off s hnone, write_no_target off v s hnone⟩
  · have htarget : target s.params off ≠ none := fun e =>
      (target_none_iff_not_mapped s.params off).1 e ⟨h8, hm⟩
    exact ⟨read_reply_ok off s htarget, write_reply_ok off v s htarget⟩

/-- Two aligned offsets that differ are the offsets of words with no byte in common. -/
theorem aligned_words_disjoint {off off' : Offset} (h8 : off.toNat % 8 = 0) (h8' : off'.toNat % 8 = 0)
    (hne : off' ≠ off) : off'.toNat + 8 ≤ off.toNat ∨ off.toNat + 8 ≤ off'.toNat := by
  have hne' : off'.toNat ≠ off.toNat := fun e => hne (BitVec.eq_of_toNat_eq e)
  omega

/-- After an idle store a read answers the word memory now holds at its offset. -/
theorem read_buffer_storeWords (off : Offset) (s : State) (a : Nat) (vs : List Word) (r : Reply)
    (h : off.toNat % 8 = 0 ∧ isBufferOffset s.params off.toNat = true) (hb : s.busy = false) :
    hostTxn (.read off) ((s.storeWords a vs).answer r) =
      (s.storeWords a vs).answer (.read ((s.storeWords a vs).wordAt off.toNat) .ok) :=
  read_buffer off ((s.storeWords a vs).answer r) h.1 h.2 hb

/-- Settles O45: an idle write stores its word at its offset, whose bytes no other aligned word shares. -/
theorem bufferWordsHoldTheLastStore : Obligations.BufferWordsHoldTheLastStore := by
  unfold Obligations.BufferWordsHoldTheLastStore
  intro s off v hb hw
  obtain ⟨h8, hoff⟩ := bufferWord_mapped hw
  refine ⟨_, write_buffer off v s h8 hoff hb, rfl, ?_, fun off' hw' hne => ?_,
    byteAt_storeWords_outside s off.toNat [v]⟩
  · have hstored : (s.storeWords off.toNat [v]).wordAt off.toNat = v :=
      wordAt_storeWords_inside s off.toNat [v] 0 Nat.one_pos
    rw [read_buffer_storeWords off s _ _ _ ⟨h8, hoff⟩ hb, hstored]
    rfl
  · obtain ⟨h8', hoff'⟩ := bufferWord_mapped hw'
    have hkept : (s.storeWords off.toNat [v]).wordAt off'.toNat = s.wordAt off'.toNat :=
      wordAt_storeWords_outside s off.toNat [v] off'.toNat (aligned_words_disjoint h8 h8' hne)
    refine ⟨_, read_buffer off' s h8' hoff' hb, ?_⟩
    rw [read_buffer_storeWords off' s _ _ _ ⟨h8', hoff'⟩ hb, hkept]
    rfl

/-- Settles O10: the next move is the host's, and `step` carries out its transaction. -/
theorem stepRunsTheHostTransaction : Obligations.StepRunsTheHostTransaction := by
  unfold Obligations.StepRunsTheHostTransaction
  intro s t rest hturns
  rw [step, hturns]

end Sys2Proof.Machine
end

section
namespace Sys2Proof.Machine

open Sys2Proof.Spec

/-! ## Fields in their places in a command word (30_encoding.md R91) -/

/-- A one-bit field in its place is that bit of the word. -/
theorem bit_shift (w : CmdWord) (k : Nat) (bit : Bool → CmdWord) (h0 : bit false = 0) (h1 : bit true = 1) :
    bit (w.getLsbD k) <<< k = w &&& BitVec.twoPow 32 k := by
  rw [BitVec.and_twoPow]
  cases w.getLsbD k with
  | true => rw [h1]; rfl
  | false => rw [h0]; exact BitVec.zero_shiftLeft k

theorem cbufBit_shift (w : CmdWord) (k : Nat) :
    (CBuf.ofBit (w.getLsbD k)).bit <<< k = w &&& BitVec.twoPow 32 k :=
  bit_shift w k (fun b => (CBuf.ofBit b).bit) rfl rfl

theorem rbufBit_shift (w : CmdWord) (k : Nat) :
    (RBuf.ofBit (w.getLsbD k)).bit <<< k = w &&& BitVec.twoPow 32 k :=
  bit_shift w k (fun b => (RBuf.ofBit b).bit) rfl rfl

theorem dirBit_shift (w : CmdWord) (k : Nat) :
    (Dir.ofBit (w.getLsbD k)).bit <<< k = w &&& BitVec.twoPow 32 k :=
  bit_shift w k (fun b => (Dir.ofBit b).bit) rfl rfl

/-- A field in its place is those bits of the word. -/
theorem field_shift (w : CmdWord) (k n : Nat) :
    (w.extractLsb' k n).setWidth 32 <<< k = w &&& (BitVec.allOnes n).setWidth 32 <<< k := by
  ext i hi
  by_cases h : i < k
  · simp [h]
  · have hpos : k + (i - k) = i := by omega
    simp [h, hpos, BitVec.getLsbD_eq_getElem hi, Bool.and_comm]

/-- A field that is not used is no bit of the word. -/
theorem unused_shift (w : CmdWord) (k : Nat) : (0 : CmdWord) <<< k = w &&& 0 :=
  (BitVec.zero_shiftLeft k).trans BitVec.and_zero.symm

theorem ofField_eq_some {f : BitVec 2} {k : WindowKind} (h : WindowKind.ofField f = some k) :
    k.field = f.setWidth 32 ∧ f ≠ 3 := by
  revert f k; decide

theorem ofField_eq_none {f : BitVec 2} (h : WindowKind.ofField f = none) : f = 3 := by
  revert f; decide

/-- A word is built of the bits its row fixes and the bits of its fields, if those are all its bits. -/
theorem buildWord_eq {w mask op s d dir wk h maxp sBits dBits dirBits wkBits hBits maxpBits : CmdWord}
    (hop : w &&& mask = op) (hs : s <<< 4 = w &&& sBits) (hd : d <<< 5 = w &&& dBits)
    (hdir : dir <<< 6 = w &&& dirBits) (hwk : wk <<< 8 = w &&& wkBits) (hh : h <<< 12 = w &&& hBits)
    (hmaxp : maxp <<< 16 = w &&& maxpBits)
    (hall : mask ||| sBits ||| dBits ||| dirBits ||| wkBits ||| hBits ||| maxpBits = BitVec.allOnes 32) :
    buildWord op s d dir wk h maxp = w := by
  simp only [buildWord, ← hop, hs, hd, hdir, hwk, hh, hmaxp, ← BitVec.and_or_distrib_left, hall,
    BitVec.and_allOnes]

/-! ## The opcode rows (30_encoding.md R93) -/

/-- A row fixes OP and every bit its opcode does not use. -/
theorem rows_eq : ∀ row ∈ rows,
    row.1 < 9 ∧ row.2.1 = BitVec.ofNat 32 row.1 ∧ row.2.2 = 0xF ||| ~~~usedBits row.1 := by
  decide

/-- Every opcode below 9 has a row. -/
theorem exists_row : ∀ op < 9, ∃ row ∈ rows, row.1 = op := by
  decide

/-- An opcode lies in OP, whose bits every opcode uses. -/
theorem opcode_and : ∀ op < 9, BitVec.ofNat 32 op &&& 0xF = BitVec.ofNat 32 op
    ∧ BitVec.ofNat 32 op &&& ~~~usedBits op = 0 := by
  decide

theorem and_opMask_eq_iff (w : CmdWord) {op : Nat} (h : op < 9) :
    w &&& 0xF = BitVec.ofNat 32 op ↔ (w.extractLsb' 0 4).toNat = op := by
  have hmod : w.toNat &&& 15 = w.toNat % 16 := Nat.and_two_pow_sub_one_eq_mod w.toNat 4
  have hop : op % 4294967296 = op := Nat.mod_eq_of_lt (by omega)
  simp [← BitVec.toNat_inj, hmod, hop]

/-- A comparison under two masks is one under each, where the value lies under the first alone. -/
theorem and_or_eq_iff {n : Nat} {w a b c : BitVec n} (ha : c &&& a = c) (hb : c &&& b = 0#n) :
    w &&& (a ||| b) = c ↔ w &&& a = c ∧ w &&& b = 0#n := by
  constructor
  · rintro rfl
    have habsorb : (w &&& (a ||| b)) &&& a = w &&& a := by ext i; grind
    have habsorb' : (w &&& (a ||| b)) &&& b = w &&& b := by ext i; grind
    exact ⟨habsorb ▸ ha, habsorb' ▸ hb⟩
  · rintro ⟨h, h'⟩
    rw [BitVec.and_or_distrib_left, h, h', BitVec.or_zero]

theorem matches_row_iff (w : CmdWord) {row : Nat × CmdWord × CmdWord} (hrow : row ∈ rows) :
    w &&& row.2.2 = row.2.1 ↔ (w.extractLsb' 0 4).toNat = row.1 ∧ w &&& ~~~usedBits row.1 = 0 := by
  obtain ⟨hlt, hmatch, hmask⟩ := rows_eq row hrow
  obtain ⟨hin, hout⟩ := opcode_and row.1 hlt
  rw [hmatch, hmask, and_or_eq_iff hin hout, and_opMask_eq_iff w hlt]
  rfl

/-- A word is a command of the opcode in OP, if that has a row and no bit is set that it does not use. -/
theorem isCommand_iff (w : CmdWord) (op : Nat) :
    IsCommand w op ↔ (w.extractLsb' 0 4).toNat = op ∧ op < 9 ∧ w &&& ~~~usedBits op = 0
      ∧ (op = 8 → w.extractLsb' 8 2 ≠ 3) := by
  constructor
  · rintro ⟨row, hrow, rfl, hm, hwk⟩
    obtain ⟨hop, hunused⟩ := (matches_row_iff w hrow).1 hm
    exact ⟨hop, (rows_eq row hrow).1, hunused, hwk⟩
  · rintro ⟨hop, hlt, hunused, hwk⟩
    obtain ⟨row, hrow, rfl⟩ := exists_row op hlt
    exact ⟨row, hrow, rfl, (matches_row_iff w hrow).2 ⟨hop, hunused⟩, hwk⟩

/-- A word is a command of one opcode at most. -/
theorem isCommand_unique {w : CmdWord} {op op' : Nat} (h : IsCommand w op) (h' : IsCommand w op') : op = op' :=
  ((isCommand_iff w op).1 h).1.symm.trans ((isCommand_iff w op').1 h').1

/-! ## What the decoder can answer (30_encoding.md R93, R99) -/

/-- An answer for word `w` that is right: the command of its row, made of its bits, or an error for no command. -/
def Decodes (w : CmdWord) : Except DecodeError Instr → Prop
  | .ok i => IsCommand w (opcode i) ∧ encode i = w
  | .error _ => ∀ op, ¬IsCommand w op

/-- A command of a row other than WIN's. -/
theorem decodes_row {w m mask : CmdWord} {i : Instr} (op : Nat) (h : w &&& mask = m) (hop : opcode i = op)
    (hrow : (op, m, mask) ∈ rows) (hne : op ≠ 8) (hword : encode i = w) : Decodes w (.ok i) :=
  ⟨⟨_, hrow, hop.symm, h, fun h8 => absurd (hop.symm.trans h8) hne⟩, hword⟩

theorem winRow_mem : (8, 0x00000008, 0xFFFFFCEF) ∈ rows := by decide

/-- WIN's row with a window kind. -/
theorem decodes_win {w : CmdWord} {k : WindowKind} (h : w &&& 0xFFFFFCEF = 0x00000008)
    (hk : WindowKind.ofField (wkField w) = some k) : Decodes w (.ok (.win (.ofBit (sField w)) k)) := by
  obtain ⟨hfield, hne⟩ := ofField_eq_some hk
  exact ⟨⟨_, winRow_mem, rfl, h, fun _ => hne⟩, buildWord_eq h (cbufBit_shift w 4) (unused_shift w _)
    (unused_shift w _) (hfield ▸ field_shift w 8 2) (unused_shift w _) (unused_shift w _) rfl⟩

/-- WIN's row with WK = 3 is no command: OP admits no other opcode. -/
theorem decodes_reservedWindow {w : CmdWord} (h : w &&& 0xFFFFFCEF = 0x00000008)
    (hk : WindowKind.ofField (wkField w) = none) : Decodes w (.error .reservedWindow) := by
  intro op hc
  obtain ⟨hop, -, -, hwk⟩ := (isCommand_iff w op).1 hc
  have h8 := ((matches_row_iff w winRow_mem).1 h).1
  exact hwk (hop.symm.trans h8) (ofField_eq_none hk)

/-- The decoder's answer is right: one case for each row, in the order of its tests. -/
theorem decodes_decode (w : CmdWord) : Decodes w (decode w) := by
  have unused := unused_shift w
  have cbuf := cbufBit_shift w
  have rbuf := rbufBit_shift w
  have field := field_shift w
  unfold decode
  refine iteInduction (fun h => decodes_row 0 h rfl (by decide) nofun ?_) fun h0 => ?_
  · exact buildWord_eq h (unused _) (unused _) (unused _) (unused _) (unused _) (unused _) rfl
  refine iteInduction (fun h => decodes_row 1 h rfl (by decide) nofun ?_) fun h1 => ?_
  · exact buildWord_eq h (cbuf 4) (unused _) (dirBit_shift w 6) (unused _) (unused _) (unused _) rfl
  refine iteInduction (fun h => decodes_row 2 h rfl (by decide) nofun ?_) fun h2 => ?_
  · exact buildWord_eq h (cbuf 4) (rbuf 5) (unused _) (unused _) (unused _) (unused _) rfl
  refine iteInduction (fun h => decodes_row 3 h rfl (by decide) nofun ?_) fun h3 => ?_
  · exact buildWord_eq h (rbuf 4) (unused _) (unused _) (unused _) (unused _) (field 16 8) rfl
  refine iteInduction (fun h => decodes_row 4 h rfl (by decide) nofun ?_) fun h4 => ?_
  · exact buildWord_eq h (cbuf 4) (unused _) (unused _) (unused _) (unused _) (unused _) rfl
  refine iteInduction (fun h => decodes_row 5 h rfl (by decide) nofun ?_) fun h5 => ?_
  · exact buildWord_eq h (cbuf 4) (unused _) (unused _) (unused _) (field 12 4) (unused _) rfl
  refine iteInduction (fun h => decodes_row 6 h rfl (by decide) nofun ?_) fun h6 => ?_
  · exact buildWord_eq h (cbuf 4) (cbuf 5) (unused _) (unused _) (unused _) (unused _) rfl
  refine iteInduction (fun h => decodes_row 7 h rfl (by decide) nofun ?_) fun h7 => ?_
  · exact buildWord_eq h (unused _) (unused _) (unused _) (unused _) (unused _) (unused _) rfl
  refine iteInduction (fun h => ?_) fun h8 => ?_
  · cases hk : WindowKind.ofField (wkField w) with
    | some k => exact decodes_win h hk
    | none => exact decodes_reservedWindow h hk
  have hnone : ∀ op, ¬IsCommand w op := by
    rintro op ⟨row, hrow, -, hm, -⟩
    simp only [rows, List.mem_cons, List.not_mem_nil, or_false] at hrow
    obtain rfl | rfl | rfl | rfl | rfl | rfl | rfl | rfl | rfl := hrow
    exacts [h0 hm, h1 hm, h2 hm, h3 hm, h4 hm, h5 hm, h6 hm, h7 hm, h8 hm]
  exact iteInduction (fun _ => hnone) fun _ => hnone

/-- A decoded word is a command of its row, and the word of that command. -/
theorem decode_ok {w : CmdWord} {i : Instr} (h : decode w = .ok i) : IsCommand w (opcode i) ∧ encode i = w := by
  have hd := decodes_decode w
  rwa [h] at hd

/-- A refused word is no command. -/
theorem decode_error {w : CmdWord} {e : DecodeError} (h : decode w = .error e) (op : Nat) : ¬IsCommand w op := by
  have hd := decodes_decode w
  rw [h] at hd
  exact hd op

theorem decode_of_isCommand {w : CmdWord} {op : Nat} (h : IsCommand w op) :
    ∃ i, decode w = .ok i ∧ opcode i = op := by
  cases hd : decode w with
  | ok i => exact ⟨i, rfl, isCommand_unique (decode_ok hd).1 h⟩
  | error e => exact absurd h (decode_error hd op)

/-- Settles O2: an answer of the decoder is right, and a word has one opcode. -/
theorem decodeFollowsTheOpcodeRows : Obligations.DecodeFollowsTheOpcodeRows := by
  unfold Obligations.DecodeFollowsTheOpcodeRows
  intro w op
  constructor
  · rintro ⟨i, hd, rfl⟩
    exact (decode_ok hd).1
  · exact decode_of_isCommand

/-! ## The words of commands -/

/-- A field is read back from where it was put. -/
theorem extractLsb'_shift {k n : Nat} (m : BitVec n) (h : k + n ≤ 32) :
    ((m.setWidth 32 : CmdWord) <<< k).extractLsb' k n = m := by
  ext i hi
  have hpos : k + i < 32 := by omega
  simp [hpos, hi]

/-- A field in its place has no bit elsewhere. -/
theorem shift_and_eq_zero {k n : Nat} (m : BitVec n) (h : k + n ≤ 32) {mask : CmdWord}
    (hmask : (BitVec.allOnes n).setWidth 32 <<< k &&& mask = 0) : (m.setWidth 32 : CmdWord) <<< k &&& mask = 0 := by
  have hplace := field_shift ((m.setWidth 32 : CmdWord) <<< k) k n
  rw [extractLsb'_shift m h] at hplace
  rw [hplace, BitVec.and_assoc, hmask]
  exact BitVec.and_zero

theorem peaks_isCommand (s : RBuf) (m : BitVec 8) : IsCommand (encode (.peaks s m)) 3 := by
  have hfield : m.setWidth 32 <<< 16 &&& 0xFF00FFEF = (0 : CmdWord) := shift_and_eq_zero m (by decide) rfl
  have hmatch : encode (.peaks s m) &&& 0xFF00FFEF = 0x00000003 := by
    rw [encode, buildWord, BitVec.and_or_distrib_right, hfield]
    cases s <;> rfl
  exact ⟨(3, 0x00000003, 0xFF00FFEF), by decide, rfl, hmatch, nofun⟩

theorem maxpField_encode_peaks (s : RBuf) (m : BitVec 8) : maxpField (encode (.peaks s m)) = m := by
  rw [maxpField, encode, buildWord, BitVec.extractLsb'_or, extractLsb'_shift m (by decide)]
  cases s <;> exact BitVec.zero_or

theorem sField_encode_peaks (s : RBuf) (m : BitVec 8) : RBuf.ofBit (sField (encode (.peaks s m))) = s := by
  cases s <;> simp [sField, encode, buildWord, RBuf.bit, RBuf.ofBit]

/-- The decoder finds a PEAKS command in the word, and its fields are the operands put there. -/
theorem decode_encode_peaks (s : RBuf) (m : BitVec 8) : decode (encode (.peaks s m)) = .ok (.peaks s m) := by
  obtain ⟨i, hd, hop⟩ := decode_of_isCommand (peaks_isCommand s m)
  have hword := (decode_ok hd).2
  rw [hd]
  cases i with
  | peaks s' m' =>
    have hs : s' = s := by rw [← sField_encode_peaks s' m', hword, sField_encode_peaks]
    have hm : m' = m := by rw [← maxpField_encode_peaks s' m', hword, maxpField_encode_peaks]
    rw [hs, hm]
  | _ => cases hop

theorem decode_encode (i : Instr) : decode (encode i) = .ok i := by
  cases i with
  | nop => rfl
  | fft s dir => cases s <;> cases dir <;> rfl
  | mag d s => cases d <;> cases s <;> rfl
  | peaks s m => exact decode_encode_peaks s m
  | pitchpk s => cases s <;> rfl
  | pitchhps s h => revert h; cases s <;> decide
  | pitchac d s => cases d <;> cases s <;> rfl
  | conf => rfl
  | win s k => cases s <;> cases k <;> rfl

/-- Settles O3: encoding then decoding, by the command's constructor; decoding then encoding, by the decoder's rows. -/
theorem decodeAndEncodeAreInverse : Obligations.DecodeAndEncodeAreInverse := by
  unfold Obligations.DecodeAndEncodeAreInverse
  exact ⟨decode_encode, fun _ _ h => (decode_ok h).2⟩

/-- Settles O1, word by word. -/
theorem wordsOfTheSpecDecode : Obligations.WordsOfTheSpecDecode := by
  unfold Obligations.WordsOfTheSpecDecode
  decide

/-! ## Illegal words (30_encoding.md R99) -/

theorem decode_error_iff (w : CmdWord) : (∃ e, decode w = .error e) ↔ ∀ op, ¬IsCommand w op := by
  constructor
  · rintro ⟨e, h⟩
    exact decode_error h
  · intro hnone
    cases hd : decode w with
    | ok i => exact absurd (decode_ok hd).1 (hnone _)
    | error e => exact ⟨e, rfl⟩

theorem not_isCommand_iff (w : CmdWord) :
    (∀ op, ¬IsCommand w op) ↔
      9 ≤ (w.extractLsb' 0 4).toNat ∨ w &&& ~~~usedBits (w.extractLsb' 0 4).toNat ≠ 0
        ∨ ((w.extractLsb' 0 4).toNat = 8 ∧ w.extractLsb' 8 2 = 3) := by
  simp only [isCommand_iff]
  grind

/-- Bits 7, 11:10 and 31:24 are used by no opcode (30_encoding.md R91). -/
theorem reserved_unused (op : Nat) :
    (~~~usedBits op).getLsbD 7 = true ∧ (~~~usedBits op).extractLsb' 10 2 = BitVec.allOnes 2
      ∧ (~~~usedBits op).extractLsb' 24 8 = BitVec.allOnes 8 := by
  unfold usedBits
  split <;> decide

theorem reserved_eq_zero {w : CmdWord} {op : Nat} (h : w &&& ~~~usedBits op = 0) :
    w.getLsbD 7 = false ∧ w.extractLsb' 10 2 = 0 ∧ w.extractLsb' 24 8 = 0 := by
  obtain ⟨h7, h10, h24⟩ := reserved_unused op
  have hbit := congrArg (BitVec.getLsbD · 7) h
  have hlow := congrArg (BitVec.extractLsb' 10 2) h
  have hhigh := congrArg (BitVec.extractLsb' 24 8) h
  rw [BitVec.extractLsb'_and, h10, BitVec.and_allOnes] at hlow
  rw [BitVec.extractLsb'_and, h24, BitVec.and_allOnes] at hhigh
  simp only [BitVec.getLsbD_and, h7, Bool.and_true] at hbit
  exact ⟨hbit, hlow, hhigh⟩

/-- An illegal word is rejected whatever LEN and FS (60_exceptions.md R263). -/
theorem check_illegal {p : Params} {w : CmdWord} {len fs : BitVec 32} {e : DecodeError} (h : decode w = .error e) :
    check p w len fs = .error .illegalCmd := by
  rw [check, h]

/-- Settles O4: an error is an answer for no command, whose reserved bits are among the unused ones; the check
rejects it whatever LEN and FS. -/
theorem illegalWordsAreRejected : Obligations.IllegalWordsAreRejected := by
  unfold Obligations.IllegalWordsAreRejected
  refine ⟨fun w => ?_, fun s v e hidle hd => ?_⟩
  · have hreserved := reserved_eq_zero (w := w) (op := (w.extractLsb' 0 4).toNat)
    rw [decode_error_iff, not_isCommand_iff]
    grind
  · have hissue : hostTxn (.write 0x20 v) s = (issue (v.setWidth 32) s).answer (.write .ok) :=
      write_reg 0x20 .cmd v s rfl (.inl hidle)
    rw [hissue, issue_rejected _ s _ (check_illegal hd)]
    rfl

end Sys2Proof.Machine
end

section
namespace Sys2Proof.Machine

/-! ## Runs step by step, and the `wait` line (30_encoding.md R102) -/

theorem run_succ {s t : State} (h : step s = .next t) (k : Nat) : core.run (k + 1) s = core.run k t := by
  have hcore : core.step s = .next t := h
  simp only [Host.Core.run, hcore]

/-- A read of STATUS changes nothing but the answer. -/
theorem step_readStatus {s : State} {rest : List Turn} (h : s.turns = .host (.read 0x18) :: rest) :
    step s = .next ({ s with turns := rest }.answer (.read s.statusWord .ok)) :=
  (stepRunsTheHostTransaction s _ rest h).trans
    (congrArg Host.Outcome.next (read_reg 0x18 .status { s with turns := rest } rfl))

/-- The engine's turn runs the command it holds. -/
theorem step_engine {s : State} {i : Instr} {rest : List Turn} (hi : s.holds i) (h : s.turns = .engine :: rest) :
    step s = exec i { s with turns := rest } := by
  obtain ⟨p, hp, hc⟩ := hi
  simp only [step, h, engineStep, hp, hc]

theorem wait_turns_succ (polls : Nat) :
    (HostLine.wait (polls + 1)).turns = .host (.read 0x18) :: (HostLine.wait polls).turns := rfl

/-- Settles O59, by induction on the polls: a read of STATUS changes the answer alone, and the engine's step
completes the command held. -/
theorem waitEndsWithTheBlockIdle : Obligations.WaitEndsWithTheBlockIdle := by
  unfold Obligations.WaitEndsWithTheBlockIdle
  intro s polls rest i hi hturns
  induction polls generalizing s with
  | zero =>
    obtain ⟨t, hexec, ht⟩ := exec_next i { s with turns := .host (.read 0x18) :: rest }
    have hstep : step s = .next t := (step_engine hi hturns).trans hexec
    have hidle : t.pending = none := by rw [ht]
    have hrest : t.turns = .host (.read 0x18) :: rest := by rw [ht]
    exact ⟨t, s.reply, run_succ hstep 0, (busy_eq_false_iff t).2 hidle, hrest, hexec⟩
  | succ polls ih =>
    rw [wait_turns_succ, List.cons_append] at hturns
    obtain ⟨t, r, hrun, hend⟩ := ih ({ s with turns := _ }.answer (.read s.statusWord .ok)) hi rfl
    exact ⟨t, r, (run_succ (step_readStatus hturns) (polls + 1)).trans hrun, hend⟩

end Sys2Proof.Machine
end

section
namespace Sys2Proof.Machine

/-! ## Assembler lines (30_encoding.md R100, R101) -/

theorem maxpOf_toNat (m : BitVec 8) : maxpOf m.toNat = some m := by
  simp [maxpOf, m.isLt]

theorem harmonicsOf_toNat (h : BitVec 4) : harmonicsOf h.toNat = some h := by
  simp [harmonicsOf, h.isLt]

theorem assemble_peaks (s : RBuf) (m : BitVec 8) : assemble "PEAKS" [.rbuf s, .number m.toNat] = some (.peaks s m) :=
  congrArg (Option.map (Instr.peaks s)) (maxpOf_toNat m)

theorem assemble_pitchhps (s : CBuf) (h : BitVec 4) :
    assemble "PITCHHPS" [.cbuf s, .number h.toNat] = some (.pitchhps s h) :=
  congrArg (Option.map (Instr.pitchhps s)) (harmonicsOf_toNat h)

theorem assemble_asmLine (i : Instr) : assemble (asmLine i).1 (asmLine i).2 = some i := by
  cases i with
  | peaks s m => exact assemble_peaks s m
  | pitchhps s h => exact assemble_pitchhps s h
  | fft s dir => cases dir <;> rfl
  | win s kind => cases kind <;> rfl
  | nop | mag | pitchpk | pitchac | conf => rfl

/-- Settles O5: a line's name is expanded and its operands read, numbers by the fields they fit. -/
theorem assemblerLinesNameTheCommands : Obligations.AssemblerLinesNameTheCommands := by
  unfold Obligations.AssemblerLinesNameTheCommands
  refine ⟨assemble_asmLine, rfl, rfl, rfl, rfl, rfl, rfl, rfl, fun s => ?_, fun _ _ => rfl, assemble_peaks,
    assemble_pitchhps, fun _ _ => rfl⟩
  exact ⟨rfl, rfl, rfl, rfl, rfl, rfl, rfl, rfl⟩

end Sys2Proof.Machine
end

section
namespace Sys2Proof.Machine

open Sys2Proof.Spec

/-! ## ispow2, log2 and bitrev (40_command.md R130) -/

theorem isPow2_two_pow (k : Nat) : isPow2 (2 ^ k) = true := by
  have hand : 2 ^ k &&& (2 ^ k - 1) = 0 :=
    (Nat.and_sub_one_eq_zero_iff_isPowerOfTwo (Nat.two_pow_pos k).ne').2 ⟨k, rfl⟩
  simp [isPow2, hand]

theorem bitrev_lt (i k : Nat) : bitrev i k < 2 ^ k := by
  induction k generalizing i with
  | zero => exact Nat.one_pos
  | succ k ih =>
    have hlow := ih (i / 2)
    have hbit : i % 2 * 2 ^ k ≤ 1 * 2 ^ k := Nat.mul_le_mul_right _ (Nat.le_of_lt_succ (Nat.mod_lt i two_pos))
    rw [bitrev, pow_succ]
    omega

theorem bitrev_testBit (i k b : Nat) (h : b < k) : (bitrev i k).testBit (k - 1 - b) = i.testBit b := by
  induction k generalizing i b with
  | zero => exact absurd h (Nat.not_lt_zero b)
  | succ k ih =>
    rw [bitrev, mul_comm, Nat.testBit_two_pow_mul_add _ (bitrev_lt _ k)]
    cases b with
    | zero => simp
    | succ b => rw [if_pos (by omega), show k + 1 - 1 - (b + 1) = k - 1 - b by omega, ih _ b (by omega),
        Nat.testBit_succ]

/-- Settles O6: `bitrev` puts bit 0 on top of the reversed rest, so its bits follow by induction on the width. -/
theorem integerHelpersAreAsDefined : Obligations.IntegerHelpersAreAsDefined := by
  unfold Obligations.IntegerHelpersAreAsDefined
  refine ⟨fun n => ⟨exists_pow2_of_isPow2 n, ?_⟩, fun _ => Nat.log2_two_pow,
    fun i k => ⟨bitrev_lt i k, bitrev_testBit i k⟩⟩
  rintro ⟨k, rfl⟩
  exact isPow2_two_pow k

end Sys2Proof.Machine
end

section
namespace Sys2Proof.Machine

open Sys2Proof.Spec

/-! ## Segments of a buffer as lists

The meanings compute on lists, the in-place loops of 41_fft.md R161 on a buffer.  Each pass of the lists on a segment
of a buffer gives the segment of the buffer after the loop. -/

/-- Entries `a`, `a + 1`, ..., `n` of them. -/
def segment (a n : Nat) (b : Nat → Cplx) : List Cplx := (List.range' a n).map b

@[simp] theorem segment_length (a n : Nat) (b : Nat → Cplx) : (segment a n b).length = n := by simp [segment]

theorem segment_succ (a n : Nat) (b : Nat → Cplx) : segment a (n + 1) b = b a :: segment (a + 1) n b := by
  simp [segment, List.range'_succ]

theorem segment_append (a m n : Nat) (b : Nat → Cplx) :
    segment a m b ++ segment (a + m) n b = segment a (m + n) b := by
  rw [segment, segment, segment, ← List.map_append, List.range'_append_1]

theorem segment_congr {a n : Nat} {b b' : Nat → Cplx} (h : ∀ i, a ≤ i → i < a + n → b i = b' i) :
    segment a n b = segment a n b' :=
  List.map_congr_left fun i hi => h i (List.mem_range'_1.1 hi).1 (List.mem_range'_1.1 hi).2

theorem take_segment (a m n : Nat) (b : Nat → Cplx) : (segment a (m + n) b).take m = segment a m b := by
  rw [← segment_append, List.take_left' (segment_length a m b)]

theorem drop_segment (a m n : Nat) (b : Nat → Cplx) : (segment a (m + n) b).drop m = segment (a + m) n b := by
  rw [← segment_append, List.drop_left' (segment_length a m b)]

theorem nthC_segment {n i : Nat} (b : Nat → Cplx) (h : i < n) : nthC (segment 0 n b) i = b i := by
  simp [nthC, segment, h]

theorem loadC_eq_segment (s : State) (b : CBuf) (n : Nat) : s.loadC b n = segment 0 n (s.cAt b) := by
  rw [State.loadC, List.range_eq_range', segment]

theorem setAt_ne {b : Nat → Cplx} {i j : Nat} (x : Cplx) (h : j ≠ i) : setAt b i x j = b j := if_neg h

theorem setAt_self (b : Nat → Cplx) (i : Nat) (x : Cplx) : setAt b i x i = x := if_pos rfl

theorem set_segment {n : Nat} (b : Nat → Cplx) (i : Nat) (x : Cplx) :
    (segment 0 n b).set i x = segment 0 n (setAt b i x) := by
  refine List.ext_getElem (by simp) fun j _ _ => ?_
  simp [segment, List.getElem_set, setAt, eq_comm]

/-! ## The swaps (41_fft.md R161, R162) -/

/-- One round of the swap loop. -/
def swapRound (k : Nat) (b : Nat → Cplx) (i : Nat) : Nat → Cplx :=
  if i < bitrev i k then setAt (setAt b i (b (bitrev i k))) (bitrev i k) (b i) else b

theorem inPlaceSwaps_eq (k n : Nat) (b : Nat → Cplx) :
    inPlaceSwaps k n b = (List.range' 0 n).foldl (swapRound k) b := by
  rw [← List.range_eq_range']
  rfl

theorem swapAt_segment {n i j : Nat} (b : Nat → Cplx) (hi : i < n) (hj : j < n) :
    swapAt (segment 0 n b) i j = segment 0 n (setAt (setAt b i (b j)) j (b i)) := by
  rw [swapAt, nthC_segment b hi, nthC_segment b hj, set_segment, set_segment]

theorem swapPass_segment (k count i : Nat) (b : Nat → Cplx) (h : i + count ≤ 2 ^ k) :
    swapPass k count i (segment 0 (2 ^ k) b) =
      segment 0 (2 ^ k) ((List.range' i count).foldl (swapRound k) b) := by
  induction count generalizing i b with
  | zero => rfl
  | succ count ih =>
    rw [swapPass, List.range'_succ, List.foldl_cons, ← ih (i + 1) _ (by omega), swapRound]
    congr 1
    split
    · exact swapAt_segment b (by omega) (bitrev_lt i k)
    · rfl

/-! ## The blocks of a stage (41_fft.md R161, R164) -/

/-- One butterfly of the `j` loop, on the buffer and the running twiddle. -/
def butterflyRound (half : Nat) (wm : Cplx) (blk : Nat) (bw : (Nat → Cplx) × Cplx) (j : Nat) :
    (Nat → Cplx) × Cplx :=
  let t := cmul bw.2 (bw.1 (blk + j + half))
  let u := bw.1 (blk + j)
  (setAt (setAt bw.1 (blk + j) (cadd u t)) (blk + j + half) (csub u t), cmul bw.2 wm)

theorem inPlaceBlock_eq (half : Nat) (wm : Cplx) (b : Nat → Cplx) (blk : Nat) :
    inPlaceBlock half wm b blk = ((List.range' 0 half).foldl (butterflyRound half wm blk) (b, .one)).1 := by
  rw [← List.range_eq_range']
  rfl

theorem butterflyRound_frame (half : Nat) (wm : Cplx) (blk j : Nat) (bw : (Nat → Cplx) × Cplx) {i : Nat}
    (htop : i ≠ blk + j) (hbot : i ≠ blk + j + half) : (butterflyRound half wm blk bw j).1 i = bw.1 i :=
  (setAt_ne _ hbot).trans (setAt_ne _ htop)

/-- The `j` loop from `j` on changes no entry but those of its butterflies. -/
theorem foldl_butterflyRound_frame (half : Nat) (wm : Cplx) (blk count j : Nat) (bw : (Nat → Cplx) × Cplx) (i : Nat)
    (htop : i < blk + j ∨ blk + j + count ≤ i) (hbot : i < blk + j + half ∨ blk + j + half + count ≤ i) :
    ((List.range' j count).foldl (butterflyRound half wm blk) bw).1 i = bw.1 i := by
  induction count generalizing j bw with
  | zero => rfl
  | succ count ih =>
    rw [List.range'_succ, List.foldl_cons, ih (j + 1) _ (by omega) (by omega)]
    exact butterflyRound_frame half wm blk j bw (by omega) (by omega)

/-- The halves of a block from entry `j` on: the list pass on the old halves gives the new ones. -/
theorem butterflies_segment (half : Nat) (wm : Cplx) (blk count j : Nat) (b : Nat → Cplx) (w : Cplx)
    (h : j + count ≤ half) :
    butterflies wm w (segment (blk + j) count b) (segment (blk + j + half) count b) =
      (segment (blk + j) count ((List.range' j count).foldl (butterflyRound half wm blk) (b, w)).1,
        segment (blk + j + half) count ((List.range' j count).foldl (butterflyRound half wm blk) (b, w)).1) := by
  induction count generalizing j b w with
  | zero => rfl
  | succ count ih =>
    have hrest := ih (j + 1) (butterflyRound half wm blk (b, w) j).1 (cmul w wm) (by omega)
    have hframe := foldl_butterflyRound_frame half wm blk count (j + 1) (butterflyRound half wm blk (b, w) j)
    have htops : segment (blk + (j + 1)) count (butterflyRound half wm blk (b, w) j).1 =
        segment (blk + (j + 1)) count b :=
      segment_congr fun i _ _ => butterflyRound_frame half wm blk j (b, w) (by omega) (by omega)
    have hbots : segment (blk + (j + 1) + half) count (butterflyRound half wm blk (b, w) j).1 =
        segment (blk + (j + 1) + half) count b :=
      segment_congr fun i _ _ => butterflyRound_frame half wm blk j (b, w) (by omega) (by omega)
    have hnext : blk + j + half + 1 = blk + (j + 1) + half := by omega
    rw [htops, hbots] at hrest
    simp only [segment_succ, List.range'_succ, List.foldl_cons, hnext, add_assoc blk j 1, butterflies]
    rw [hrest, hframe (blk + j) (by omega) (by omega), hframe (blk + j + half) (by omega) (by omega)]
    have htop : (butterflyRound half wm blk (b, w) j).1 (blk + j) =
        cadd (b (blk + j)) (cmul w (b (blk + j + half))) :=
      (setAt_ne _ (by omega)).trans (setAt_self _ _ _)
    have hbot : (butterflyRound half wm blk (b, w) j).1 (blk + j + half) =
        csub (b (blk + j)) (cmul w (b (blk + j + half))) :=
      setAt_self _ _ _
    rw [htop, hbot]
    rfl

theorem inPlaceBlock_frame (half : Nat) (wm : Cplx) (b : Nat → Cplx) (blk i : Nat)
    (h : i < blk ∨ blk + 2 * half ≤ i) : inPlaceBlock half wm b blk i = b i := by
  rw [inPlaceBlock_eq]
  exact foldl_butterflyRound_frame half wm blk half 0 (b, .one) i (by omega) (by omega)

theorem blockPass_segment (half : Nat) (wm : Cplx) (blk : Nat) (b : Nat → Cplx) :
    blockPass half wm (segment blk (2 * half) b) = segment blk (2 * half) (inPlaceBlock half wm b blk) := by
  rw [two_mul, blockPass, take_segment, drop_segment]
  have h := butterflies_segment half wm blk half 0 b .one (by omega)
  rw [add_zero] at h
  rw [h, inPlaceBlock_eq]
  exact segment_append blk half half _

/-! ## The stages (41_fft.md R161) -/

/-- The blocks from block `q` on change no entry before them. -/
theorem foldl_inPlaceBlock_frame (half : Nat) (wm : Cplx) (count q : Nat) (b : Nat → Cplx) (i : Nat)
    (h : i < q * (2 * half)) :
    (List.range' q count).foldl (fun b q => inPlaceBlock half wm b (q * (2 * half))) b i = b i := by
  induction count generalizing q b with
  | zero => rfl
  | succ count ih =>
    rw [List.range'_succ, List.foldl_cons, ih (q + 1) _ (by rw [Nat.succ_mul]; omega)]
    exact inPlaceBlock_frame half wm b _ i (.inl h)

theorem stagePass_segment (half : Nat) (wm : Cplx) (count q : Nat) (b : Nat → Cplx) :
    stagePass half wm count (segment (q * (2 * half)) (count * (2 * half)) b) =
      segment (q * (2 * half)) (count * (2 * half))
        ((List.range' q count).foldl (fun b q => inPlaceBlock half wm b (q * (2 * half))) b) := by
  induction count generalizing q b with
  | zero => simp [stagePass, segment]
  | succ count ih =>
    have hrest := ih (q + 1) (inPlaceBlock half wm b (q * (2 * half)))
    have hlater : segment ((q + 1) * (2 * half)) (count * (2 * half)) (inPlaceBlock half wm b (q * (2 * half))) =
        segment ((q + 1) * (2 * half)) (count * (2 * half)) b :=
      segment_congr fun i hi _ => inPlaceBlock_frame half wm b _ i (.inr (by rw [Nat.succ_mul] at hi; exact hi))
    have hfirst : segment (q * (2 * half)) (2 * half) (inPlaceBlock half wm b (q * (2 * half))) =
        segment (q * (2 * half)) (2 * half) ((List.range' (q + 1) count).foldl
          (fun b q => inPlaceBlock half wm b (q * (2 * half))) (inPlaceBlock half wm b (q * (2 * half)))) :=
      segment_congr fun i _ hi =>
        (foldl_inPlaceBlock_frame half wm count (q + 1) _ i (by rw [Nat.succ_mul]; exact hi)).symm
    rw [hlater] at hrest
    rw [Nat.succ_mul count, add_comm (count * _), stagePass, take_segment, drop_segment, ← Nat.succ_mul q,
      List.range'_succ, List.foldl_cons, hrest, blockPass_segment, hfirst, ← segment_append, ← Nat.succ_mul q]

theorem principal_eq_twiddle (trig : Trig) (m : Nat) (dir : Dir) : principal trig m dir = twiddle trig m dir := by
  cases dir with
  | forward => simp only [principal, twiddle, twoPi, negated_eq_fneg, if_true]
  | inverse => simp only [principal, twiddle, twoPi, reduceCtorEq, if_false]

theorem two_mul_half_pow {s : Nat} (hs : 1 ≤ s) : 2 * (2 ^ s / 2) = 2 ^ s :=
  Nat.mul_div_cancel' (dvd_pow_self 2 (by omega))

theorem inPlaceStage_segment (trig : Trig) (k : Nat) (dir : Dir) (s : Nat) (b : Nat → Cplx) (hs : 1 ≤ s)
    (hk : s ≤ k) :
    stagePass (2 ^ s / 2) (twiddle trig (2 ^ s) dir) (2 ^ k / 2 ^ s) (segment 0 (2 ^ k) b) =
      segment 0 (2 ^ k) (inPlaceStage trig (2 ^ k) dir b s) := by
  have hpass := stagePass_segment (2 ^ s / 2) (twiddle trig (2 ^ s) dir) (2 ^ k / 2 ^ s) 0 b
  rw [two_mul_half_pow hs, Nat.div_mul_cancel (pow_dvd_pow 2 hk), zero_mul] at hpass
  rw [hpass, inPlaceStage, principal_eq_twiddle, List.range_eq_range']

theorem stages_segment (trig : Trig) (k : Nat) (dir : Dir) (count s : Nat) (b : Nat → Cplx) (hs : 1 ≤ s)
    (hk : s + count ≤ k + 1) :
    stages trig (2 ^ k) dir count s (segment 0 (2 ^ k) b) =
      segment 0 (2 ^ k) ((List.range' s count).foldl (inPlaceStage trig (2 ^ k) dir) b) := by
  induction count generalizing s b with
  | zero => rfl
  | succ count ih =>
    rw [stages, inPlaceStage_segment trig k dir s b hs (by omega), ih (s + 1) _ (by omega) (by omega),
      List.range'_succ, List.foldl_cons]

/-- FFT_CORE on lists is FFT_CORE in place, for every length that acceptance lets through. -/
theorem fftCore_segment (trig : Trig) {n : Nat} (hn : isPow2 n = true) (dir : Dir) (b : Nat → Cplx) :
    fftCore trig n dir (segment 0 n b) = segment 0 n (inPlaceFft trig n dir b) := by
  obtain ⟨k, rfl⟩ := exists_pow2_of_isPow2 n hn
  rw [fftCore, Nat.log2_two_pow, swapPass_segment k _ 0 b (by omega), ← inPlaceSwaps_eq,
    stages_segment trig k dir k 1 _ le_rfl (by omega)]
  cases dir with
  | forward => rw [inPlaceFft, Nat.log2_two_pow, scale]
  | inverse =>
    rw [inPlaceFft, Nat.log2_two_pow, scale]
    exact List.map_map

/-! ## FFT (41_fft.md R160) -/

/-- N as the command in flight took it passed the checks of LEN (60_exceptions.md R262). -/
theorem State.holds.opLen_legal {s : State} {i : Instr} (h : s.holds i) (hu : usesLen i = true) :
    isPow2 s.opLen = true ∧ s.opLen ≤ s.params.nmax := by
  obtain ⟨p, hp, hc⟩ := h
  have hlen : s.opLen = p.len.toNat := by simp [State.opLen, hp]
  rw [hlen]
  exact (checkInstr_none _ _ _ _ ((check_ok_iff _ _ _ _ _).1 hc).2).1 hu

theorem cAt_storeC_segment (s : State) (d : CBuf) (n i : Nat) (b : Nat → Cplx) (h : i < n) :
    (s.storeC d (segment 0 n b)).cAt d i = b i := by
  rw [cAt_storeC_inside s d _ i (by simpa using h)]
  simp [segment]

theorem byteAt_storeC_segment (s : State) (d : CBuf) (n : Nat) (b : Nat → Cplx) (a : Nat)
    (h : a < cAddr d 0 ∨ cAddr d n ≤ a) : (s.storeC d (segment 0 n b)).byteAt a = s.byteAt a :=
  byteAt_storeC_outside s d _ a (by rwa [segment_length])

/-- Settles O14: the entries loaded are a segment of the buffer, on which FFT_CORE is the in-place loops. -/
theorem fftRunsTheInPlaceLoops : Obligations.FftRunsTheInPlaceLoops := by
  unfold Obligations.FftRunsTheInPlaceLoops
  intro s b dir h
  have hcore := fftCore_segment s.params.trig (h.opLen_legal rfl).1 dir (s.cAt b)
  rw [← loadC_eq_segment] at hcore
  refine ⟨_, rfl, rfl, fun i hi => ?_, fun a ha => ?_⟩ <;> rw [hcore]
  · exact cAt_storeC_segment s b s.opLen i _ hi
  · exact byteAt_storeC_segment s b s.opLen _ a ha

end Sys2Proof.Machine
end

section
namespace Sys2Proof.Machine

open Sys2Proof.Spec

/-! ## The maximum search (40_command.md R132) -/

theorem fgt_iff (a b : F64) : fgt a b = true ↔ isNaN a = false ∧ isNaN b = false ∧ orderKey b < orderKey a := by
  simp [fgt, and_assoc]

theorem feq_iff (a b : F64) : feq a b = true ↔ isNaN a = false ∧ isNaN b = false ∧ orderKey a = orderKey b := by
  simp [feq, and_assoc]

theorem fgt_irrefl (a : F64) : fgt a a = false := by simp [fgt]

theorem fgt_trans {a b c : F64} (hab : fgt a b = true) (hbc : fgt b c = true) : fgt a c = true := by
  obtain ⟨ha, -, hab⟩ := (fgt_iff a b).1 hab
  obtain ⟨-, hc, hbc⟩ := (fgt_iff b c).1 hbc
  exact (fgt_iff a c).2 ⟨ha, hc, hbc.trans hab⟩

/-- What does not exceed `b` neither exceeds nor equals what does; a NaN among them does not either. -/
theorem not_fgt_not_feq_of_fgt {a b c : F64} (hab : fgt a b = false) (hcb : fgt c b = true) :
    fgt a c = false ∧ feq a c = false := by
  obtain ⟨-, hb, hcb⟩ := (fgt_iff c b).1 hcb
  refine ⟨Bool.eq_false_iff.2 fun hac => ?_, Bool.eq_false_iff.2 fun hac => ?_⟩ <;>
    refine Bool.eq_false_iff.1 hab ((fgt_iff a b).2 ?_)
  · obtain ⟨ha, -, hac⟩ := (fgt_iff a c).1 hac
    exact ⟨ha, hb, hcb.trans hac⟩
  · obtain ⟨ha, -, hac⟩ := (feq_iff a c).1 hac
    exact ⟨ha, hb, hac ▸ hcb⟩

/-- The state of the search before index `i`: `best` is +0.0, or the value at `bi`, which is the first of its size. -/
structure Leads (v : Nat → F64) (lo i : Nat) (best : F64) (bi : Nat) : Prop where
  largest : ∀ j, lo ≤ j → j < i → fgt (v j) best = false
  origin : (best = plusZero ∧ bi = 0)
    ∨ (lo ≤ bi ∧ bi < i ∧ best = v bi ∧ fgt best plusZero = true ∧ ∀ j, lo ≤ j → j < bi → feq (v j) best = false)

theorem Leads.start (v : Nat → F64) (lo : Nat) : Leads v lo lo plusZero 0 :=
  ⟨fun _ hlo hhi => absurd hhi hlo.not_gt, .inl ⟨rfl, rfl⟩⟩

/-- A larger value takes the lead. -/
theorem Leads.take {v : Nat → F64} {lo i : Nat} {best : F64} {bi : Nat} (h : Leads v lo i best bi) (hlo : lo ≤ i)
    (hgt : fgt (v i) best = true) : Leads v lo (i + 1) (v i) i := by
  have hbelow (j : Nat) (h1 : lo ≤ j) (h2 : j < i) := not_fgt_not_feq_of_fgt (h.largest j h1 h2) hgt
  refine ⟨fun j h1 h2 => ?_, .inr ⟨hlo, i.lt_succ_self, rfl, ?_, fun j h1 h2 => (hbelow j h1 h2).2⟩⟩
  · obtain h2 | rfl := Nat.lt_succ_iff_lt_or_eq.1 h2
    · exact (hbelow j h1 h2).1
    · exact fgt_irrefl _
  · obtain ⟨rfl, -⟩ | ⟨-, -, -, hpos, -⟩ := h.origin
    · exact hgt
    · exact fgt_trans hgt hpos

/-- Any other value leaves the lead where it is. -/
theorem Leads.pass {v : Nat → F64} {lo i : Nat} {best : F64} {bi : Nat} (h : Leads v lo i best bi)
    (hle : fgt (v i) best = false) : Leads v lo (i + 1) best bi := by
  refine ⟨fun j h1 h2 => ?_, h.origin.imp id fun ⟨h1, h2, hrest⟩ => ⟨h1, h2.trans i.lt_succ_self, hrest⟩⟩
  obtain h2 | rfl := Nat.lt_succ_iff_lt_or_eq.1 h2
  · exact h.largest j h1 h2
  · exact hle

theorem Leads.argmaxLoop {v : Nat → F64} {lo i : Nat} {best : F64} {bi : Nat} (h : Leads v lo i best bi)
    (hlo : lo ≤ i) (count : Nat) : ∃ best', Leads v lo (i + count) best' (argmaxLoop v count i best bi) := by
  induction count generalizing i best bi with
  | zero => exact ⟨best, h⟩
  | succ count ih =>
    rw [Machine.argmaxLoop, show i + (count + 1) = i + 1 + count by omega]
    split
    case isTrue hgt => exact ih (h.take hlo hgt) (by omega)
    case isFalse hle => exact ih (h.pass (Bool.eq_false_iff.2 hle)) (by omega)

theorem argmax_wins (v : Nat → F64) (lo hi : Nat) : Wins v lo hi (argmax v lo hi) := by
  obtain ⟨best, hlargest, horigin⟩ := (Leads.start v lo).argmaxLoop le_rfl (hi + 1 - lo)
  change Wins v lo hi (argmaxLoop v (hi + 1 - lo) lo plusZero 0)
  obtain ⟨rfl, h0⟩ | ⟨h1, h2, rfl, hpos, hfirst⟩ := horigin
  · exact .inl ⟨h0, fun i h1 h2 => hlargest i h1 (by omega)⟩
  · exact .inr ⟨h1, by omega, hpos, fun i h1 h2 => hlargest i h1 (by omega), hfirst⟩

/-- Settles O24: the loop keeps the lead of the indices it has passed (`Leads`). -/
theorem argmaxFindsTheLowestLargest : Obligations.ArgmaxFindsTheLowestLargest := argmax_wins

/-- The winner depends on the values in the range alone. -/
theorem wins_congr {v v' : Nat → F64} {lo hi b : Nat} (h : Wins v lo hi b)
    (hv : ∀ i, lo ≤ i → i ≤ hi → v i = v' i) : Wins v' lo hi b := by
  obtain ⟨h0, hnone⟩ | ⟨hlo, hhi, hpos, hmax, hfirst⟩ := h
  · exact .inl ⟨h0, fun i h1 h2 => hv i h1 h2 ▸ hnone i h1 h2⟩
  · have hb := hv b hlo hhi
    refine .inr ⟨hlo, hhi, hb ▸ hpos, fun i h1 h2 => ?_, fun i h1 h2 => ?_⟩
    · exact hv i h1 h2 ▸ hb ▸ hmax i h1 h2
    · exact hv i h1 (h2.le.trans hhi) ▸ hb ▸ hfirst i h1 h2

theorem wins_le {v : Nat → F64} {lo hi b : Nat} (h : Wins v lo hi b) : b ≤ hi := by
  obtain ⟨rfl, -⟩ | ⟨-, hhi, -⟩ := h
  · exact Nat.zero_le hi
  · exact hhi

end Sys2Proof.Machine
end

section
namespace Sys2Proof.Machine

open Sys2Proof.Spec

/-! ## The peak method (43_pitch.md R200 to R202) -/

theorem magf_eq_magnitude (c : Cplx) : magf c = magnitude c := rfl

theorem nth_magnitudes (s : State) (b : CBuf) {n i : Nat} (h : i < n) :
    nth (s.magnitudes b n) i = magnitude (s.cAt b i) := by
  simp [nth, State.magnitudes, State.loadC, h, magf_eq_magnitude]

/-- Half of an accepted length is an index below it. -/
theorem State.holds.half_lt {s : State} {i : Instr} (h : s.holds i) (hu : usesLen i = true) :
    s.opLen / 2 < s.opLen := by
  obtain ⟨k, hk⟩ := exists_pow2_of_isPow2 _ (h.opLen_legal hu).1
  have := Nat.two_pow_pos k
  omega

/-- The estimate reads the winning bin and, where they lie in the half-spectrum, its neighbours. -/
theorem peakEstimate_congr {m m' : Nat → F64} {b n : Nat} (fs : Nat) (hb : b ≤ n / 2)
    (h : ∀ i ≤ n / 2, m i = m' i) : peakEstimate m b n fs = peakEstimate m' b n fs := by
  rw [peakEstimate, peakEstimate, h (b - 1) (by omega), h b hb]
  split
  · rfl
  · split
    case isTrue hin => rw [h (b + 1) hin]
    case isFalse => rfl

theorem peakBin_wins (p : Params) (m : Nat → F64) (n fs : Nat) :
    Wins m (p.pkFmin * n / fs) (min (p.pkFmax * n / fs) (n / 2)) (peakBin p m n fs) := argmax_wins m _ _

theorem exec_pitchpk (b : CBuf) (s : State) {m : Nat → F64} {bin : Nat} (hm : nth (s.magnitudes b s.opLen) = m)
    (hbin : peakBin s.params m s.opLen s.opFs = bin) :
    exec (.pitchpk b) s = .next (s.setPeak (peakEstimate m bin s.opLen s.opFs) bin).complete := by
  subst hm hbin
  rfl

/-- Settles O17: the search is `argmax` over the magnitudes loaded, and the estimate `peakEstimate` of its winner. -/
theorem pitchpkSetsBinAndEstimate : Obligations.PitchpkSetsBinAndEstimate := by
  unfold Obligations.PitchpkSetsBinAndEstimate
  intro s b h
  have hhalf := h.half_lt rfl
  obtain ⟨m, hm⟩ : ∃ m, nth (s.magnitudes b s.opLen) = m := ⟨_, rfl⟩
  obtain ⟨bin, hbin⟩ : ∃ bin, peakBin s.params m s.opLen s.opFs = bin := ⟨_, rfl⟩
  have hmag : ∀ i ≤ s.opLen / 2, m i = magnitude (s.cAt b i) := fun i hi =>
    hm ▸ nth_magnitudes s b (hi.trans_lt hhalf)
  have hwins := peakBin_wins s.params m s.opLen s.opFs
  rw [hbin] at hwins
  refine ⟨bin, wins_congr hwins fun i _ hi => hmag i (hi.trans (min_le_right _ _)), ?_⟩
  rw [exec_pitchpk b s hm hbin, peakEstimate_congr s.opFs ((wins_le hwins).trans (min_le_right _ _)) hmag]
  rfl

/-! ## The harmonic product spectrum (43_pitch.md R205 to R207) -/

theorem nth_hpsRound (n h : Nat) (r0 r1 : List F64) {i : Nat} (hi : i < r1.length) :
    nth (hpsRound n h r0 r1) i = if i ≤ n / (2 * h) then fmul (nth r1 i) (nth r0 (i * h)) else nth r1 i := by
  have hget : (hpsRound n h r0 r1)[i]? =
      some (if i ≤ n / (2 * h) then fmul (nth r1 i) (nth r0 (i * h)) else nth r1 i) := by
    simp [hpsRound, hi]
  rw [nth, List.getD_eq_getElem?_getD, hget, Option.getD_some]

theorem nth_hpsRounds (n : Nat) (r0 : List F64) (count h : Nat) (r1 : List F64) {i : Nat} (hi : i < r1.length) :
    nth (hpsRounds n r0 count h r1) i =
      (List.range' h count).foldl
        (fun acc k => if i ≤ n / (2 * k) then fmul acc (nth r0 (i * k)) else acc) (nth r1 i) := by
  induction count generalizing h r1 with
  | zero => rfl
  | succ count ih =>
    rw [hpsRounds, ih (h + 1) _ (by simpa [hpsRound] using hi), nth_hpsRound n h r0 r1 hi, List.range'_succ,
      List.foldl_cons]

theorem nth_hpsBuild (h n : Nat) (r0 : List F64) {i : Nat} (hi : i ≤ n / 2) :
    nth (hpsBuild h n r0) i = harmonicProduct h n (nth r0) i := by
  have hstart : nth ((List.range (n / 2 + 1)).map (nth r0)) i = nth r0 i := by
    have hget : ((List.range (n / 2 + 1)).map (nth r0))[i]? = some (nth r0 i) := by
      simp [Nat.lt_succ_of_le hi]
    rw [nth, List.getD_eq_getElem?_getD, hget, Option.getD_some]
  rw [hpsBuild, nth_hpsRounds n r0 _ 2 _ (by simpa using Nat.lt_succ_of_le hi), hstart, harmonicProduct]

/-- A harmonic that enters lies in the half-spectrum. -/
theorem harmonic_le_half {n i k : Nat} (h : i ≤ n / (2 * k)) : i * k ≤ n / 2 := by
  rw [← Nat.div_div_eq_div_mul] at h
  exact (Nat.mul_le_mul_right k h).trans (Nat.div_mul_le_self _ k)

theorem harmonicProduct_congr (h : Nat) {n i : Nat} {m m' : Nat → F64} (hi : i ≤ n / 2)
    (hm : ∀ i ≤ n / 2, m i = m' i) : harmonicProduct h n m i = harmonicProduct h n m' i := by
  rw [harmonicProduct, harmonicProduct, hm i hi]
  refine List.foldl_ext _ _ _ fun acc k _ => ?_
  split
  case isTrue hin => rw [hm _ (harmonic_le_half hin)]
  case isFalse => rfl

theorem byteAt_storeR_of_not_inR (s : State) (b : RBuf) (xs : List F64) (a : Nat) (h : ¬InR b xs.length a) :
    (s.storeR b xs).byteAt a = s.byteAt a :=
  byteAt_storeR_outside s b xs a (by unfold InR at h; omega)

/-- R0 lies below R1, however long. -/
theorem rAt_r0_storeR_r1 (s : State) (xs : List F64) {n i : Nat} (hn : n ≤ s.params.nmax) (hi : i < n) :
    (s.storeR .r1 xs).rAt .r0 i = s.rAt .r0 i := by
  have := nmax_le s.params
  exact wordAt_storeR_outside s .r1 xs _ (.inl (by simp only [rAddr, rBase]; omega))

@[simp] theorem magnitudes_length (s : State) (b : CBuf) (n : Nat) : (s.magnitudes b n).length = n := by
  simp [State.magnitudes]

theorem rAt_storeR_nth (s : State) (d : RBuf) (xs : List F64) {i : Nat} (h : i < xs.length) :
    (s.storeR d xs).rAt d i = nth xs i := by
  rw [rAt_storeR_inside s d xs i h, nth, List.getD_eq_getElem _ _ h]

theorem hpsBin_wins (p : Params) (r1 : List F64) (h n fs : Nat) :
    Wins (nth r1) (p.hpsFmin * n / fs) (min (p.hpsFmax * n / fs) (n / (2 * h))) (hpsBin p r1 h n fs) :=
  argmax_wins (nth r1) _ _

theorem exec_pitchhps (b : CBuf) (h : BitVec 4) (s : State) {r0 r1 : List F64} {bin : Nat}
    (h0 : s.magnitudes b s.opLen = r0) (h1 : hpsBuild h.toNat s.opLen r0 = r1)
    (hbin : hpsBin s.params r1 h.toNat s.opLen s.opFs = bin) :
    exec (.pitchhps b h) s =
      .next (((s.storeR .r0 r0).storeR .r1 r1).setHps (hpsEstimate bin s.opLen s.opFs) bin).complete := by
  subst h0 h1 hbin
  rfl

/-- Settles O18: each round of HPS_BUILD multiplies one harmonic into every product it enters (`nth_hpsRound`). -/
theorem pitchhpsWritesProductsAndEstimate : Obligations.PitchhpsWritesProductsAndEstimate := by
  unfold Obligations.PitchhpsWritesProductsAndEstimate
  intro s b h hs
  have hhalf := hs.half_lt rfl
  obtain ⟨r0, h0⟩ : ∃ r0, s.magnitudes b s.opLen = r0 := ⟨_, rfl⟩
  obtain ⟨r1, h1⟩ : ∃ r1, hpsBuild h.toNat s.opLen r0 = r1 := ⟨_, rfl⟩
  obtain ⟨bin, hbin⟩ : ∃ bin, hpsBin s.params r1 h.toNat s.opLen s.opFs = bin := ⟨_, rfl⟩
  have hlen0 : r0.length = s.opLen := by rw [← h0, magnitudes_length]
  have hlen1 : r1.length = s.opLen / 2 + 1 := by rw [← h1, hpsBuild_length]
  have hmag : ∀ i < s.opLen, nth r0 i = magnitude (s.cAt b i) := fun i hi => h0 ▸ nth_magnitudes s b hi
  have hr1 : ∀ i ≤ s.opLen / 2, ((s.storeR .r0 r0).storeR .r1 r1).rAt .r1 i = nth r1 i := fun i hi =>
    rAt_storeR_nth _ .r1 r1 (by omega)
  have hwins := hpsBin_wins s.params r1 h.toNat s.opLen s.opFs
  rw [hbin] at hwins
  refine ⟨_, bin, exec_pitchhps b h s h0 h1 hbin, rfl, fun i hi => ?_, fun i hi => ?_, ?_, fun a ha0 ha1 => ?_⟩
  · calc ((s.storeR .r0 r0).storeR .r1 r1).rAt .r0 i
      _ = (s.storeR .r0 r0).rAt .r0 i := rAt_r0_storeR_r1 _ r1 (hs.opLen_legal rfl).2 hi
      _ = nth r0 i := rAt_storeR_nth s .r0 r0 (by omega)
      _ = magnitude (s.cAt b i) := hmag i hi
  · calc ((s.storeR .r0 r0).storeR .r1 r1).rAt .r1 i
      _ = nth r1 i := hr1 i hi
      _ = harmonicProduct h.toNat s.opLen (nth r0) i := by rw [← h1, nth_hpsBuild _ _ _ hi]
      _ = _ := harmonicProduct_congr _ hi fun j hj => hmag j (hj.trans_lt hhalf)
  · refine wins_congr hwins fun i _ hi => (hr1 i (hi.trans ((min_le_right _ _).trans ?_))).symm
    rw [← Nat.div_div_eq_div_mul]
    exact Nat.div_le_self _ _
  · calc ((s.storeR .r0 r0).storeR .r1 r1).byteAt a
      _ = (s.storeR .r0 r0).byteAt a := byteAt_storeR_of_not_inR _ .r1 r1 a (by rwa [hlen1])
      _ = s.byteAt a := byteAt_storeR_of_not_inR s .r0 r0 a (by rwa [hlen0])

/-! ## Autocorrelation (43_pitch.md R210 to R212) -/

theorem autocorrelation_segment (trig : Trig) {n : Nat} (hn : isPow2 n = true) (b : Nat → Cplx) :
    autocorrelation trig n (segment 0 n b) =
      segment 0 n (inPlaceFft trig n .inverse fun i =>
        cplxMul (inPlaceFft trig n .forward b i) (cplxConj (inPlaceFft trig n .forward b i))) := by
  have hpower (c : Nat → Cplx) :
      powerSpectrum (segment 0 n c) = segment 0 n fun i => cplxMul (c i) (cplxConj (c i)) := List.map_map
  rw [autocorrelation, fftCore_segment trig hn, hpower, fftCore_segment trig hn]

/-- Settles O19: both transforms are the in-place loops on the entries loaded, and the lag is the winner among the
entries they leave. -/
theorem pitchacWritesAutocorrelationAndEstimate : Obligations.PitchacWritesAutocorrelationAndEstimate := by
  unfold Obligations.PitchacWritesAutocorrelationAndEstimate
  intro s d b h
  have hhalf := h.half_lt rfl
  have hac := autocorrelation_segment s.params.trig (h.opLen_legal rfl).1 (s.cAt b)
  rw [← loadC_eq_segment] at hac
  refine ⟨_, acLag s.params (autocorrelation s.params.trig s.opLen (s.loadC b s.opLen)) s.opLen s.opFs, rfl, rfl,
    fun i hi => ?_, ?_, fun a ha => ?_⟩ <;> rw [hac]
  · exact cAt_storeC_segment s d s.opLen i _ hi
  · refine wins_congr (argmax_wins _ _ _) fun i _ hi => ?_
    have hin : i < s.opLen := (hi.trans (min_le_right _ _)).trans_lt hhalf
    rw [nthC_segment _ hin]
    exact congrArg Cplx.re (cAt_storeC_segment s d s.opLen i _ hin).symm
  · exact byteAt_storeC_segment s d s.opLen _ a ha

end Sys2Proof.Machine
end

section
namespace Sys2Proof.Machine

open Sys2Proof.Spec

/-! ## Issue, acceptance, rejection (40_command.md R120, R121) -/

theorem write_cmd_idle (v : Word) (s : State) (h : s.busy = false) :
    hostTxn (.write 0x20 v) s = (issue (v.setWidth 32) s).answer (.write .ok) :=
  write_reg 0x20 .cmd v s rfl (.inl h)

/-- Settles O8: while busy the engine owns CMD; while idle the write issues the word, which the check accepts or
rejects. -/
theorem cmdWriteAcceptsOrRejects : Obligations.CmdWriteAcceptsOrRejects := by
  unfold Obligations.CmdWriteAcceptsOrRejects
  intro s v
  refine ⟨fun hbusy => write_reg_busy 0x20 .cmd v s rfl hbusy rfl, fun hidle => ⟨fun e he => ?_, fun i hi => ?_⟩⟩
  · rw [write_cmd_idle v s hidle, issue_rejected _ s e he]
    rfl
  · rw [write_cmd_idle v s hidle, issue_accepted _ s i hi]
    rfl

/-! ## Steps and completion (40_command.md R122, R123, R133) -/

/-- With no move listed the engine runs the command it holds. -/
theorem step_nil {s : State} {i : Instr} (hi : s.holds i) (h : s.turns = []) : step s = exec i s := by
  obtain ⟨p, hp, hc⟩ := hi
  simp only [step, h, engineStep, hp, hc]

/-- Settles O9: the engine's move, listed or not, runs the command held. -/
theorem stepRunsThePendingCommand : Obligations.StepRunsThePendingCommand := by
  unfold Obligations.StepRunsThePendingCommand
  intro s p i rest hp _ hc
  exact ⟨step_nil ⟨p, hp, hc⟩, step_engine ⟨p, hp, hc⟩⟩

/-- Settles O13: the meaning of NOP is completion. -/
theorem nopOnlyCompletes : Obligations.NopOnlyCompletes := by
  unfold Obligations.NopOnlyCompletes
  intro s
  rfl

/-! ## What each command may write (40_command.md R124) -/

theorem byteAt_storeC_of_not_inC (s : State) (b : CBuf) (xs : List Cplx) (a : Nat) (h : ¬InC b xs.length a) :
    (s.storeC b xs).byteAt a = s.byteAt a :=
  byteAt_storeC_outside s b xs a (by unfold InC at h; omega)

theorem byteAt_storePeaks_of_not_inP (s : State) (ps : List Peak) (a : Nat) (h : ¬InP ps.length a) :
    (s.storePeaks 0 ps).byteAt a = s.byteAt a :=
  byteAt_storePeaks_outside s 0 ps a fun j _ hj => by
    by_contra hin
    exact h ⟨j, by omega, by omega, by omega⟩

/-- PCOUNT holds the number of peaks found: there are at most MAXP. -/
theorem foundPeaks_length_toNat (s : State) (b : RBuf) (maxp : BitVec 8) :
    (BitVec.ofNat 8 (s.foundPeaks b maxp.toNat).length).toNat = (s.foundPeaks b maxp.toNat).length := by
  have hle : (s.foundPeaks b maxp.toNat).length ≤ maxp.toNat := peakList_length_le _ _ _ _ _
  rw [BitVec.toNat_ofNat]
  omega

/-- Each result register has one command that writes it: no update another meaning makes reaches it. -/
theorem exec_resultRegisters (i : Instr) {s t : State} (h : exec i s = .next t) :
    (opcode i ≠ 3 → t.pcount = s.pcount)
      ∧ (opcode i ≠ 4 → t.fPeak = s.fPeak ∧ t.pkBin = s.pkBin)
      ∧ (opcode i ≠ 5 → t.fHps = s.fHps ∧ t.hpsBin = s.hpsBin)
      ∧ (opcode i ≠ 6 → t.fAc = s.fAc ∧ t.acLag = s.acLag)
      ∧ (opcode i ≠ 7 → t.conf = s.conf) := by
  cases i with
  | nop | fft | mag | peaks | pitchpk | pitchhps | pitchac | conf | win => cases h; simp [opcode]

/-- A command changes no byte outside its row, whatever its operands. -/
theorem exec_byteAt (i : Instr) {s t : State} (h : exec i s = .next t) (a : Nat)
    (ha : ¬WritesByte i s.opLen t.pcount.toNat a) : t.byteAt a = s.byteAt a := by
  cases i with
  | nop | conf | pitchpk => cases h; rfl
  | fft b dir =>
    cases h
    exact byteAt_storeC_of_not_inC s b _ a (by rwa [fftCore_length _ _ _ _ (loadC_length s b s.opLen)])
  | win b kind =>
    cases h
    exact byteAt_storeC_of_not_inC s b _ a (by rwa [windowFrom_length, loadC_length])
  | pitchac d b =>
    cases h
    exact byteAt_storeC_of_not_inC s d _ a (by rwa [autocorrelation_length _ _ _ (loadC_length s b s.opLen)])
  | mag d b =>
    cases h
    exact byteAt_storeR_of_not_inR s d _ a (by rwa [magnitudes_length])
  | pitchhps b o =>
    cases h
    obtain ⟨h0, h1⟩ := not_or.1 ha
    refine (byteAt_storeR_of_not_inR _ .r1 _ a (by rwa [hpsBuild_length])).trans ?_
    exact byteAt_storeR_of_not_inR s .r0 _ a (by rwa [magnitudes_length])
  | peaks b maxp =>
    cases h
    refine byteAt_storePeaks_of_not_inP s _ a ?_
    rwa [← foundPeaks_length_toNat]

/-- Settles O22: completion leaves the flags and operands (`exec_next`), each result register has one writer, and the
stores stay in the row. -/
theorem commandsWriteOnlyTheirRow : Obligations.CommandsWriteOnlyTheirRow := by
  unfold Obligations.CommandsWriteOnlyTheirRow
  intro i s t _ h
  obtain ⟨hcount, hpeak, hhps, hac, hconf⟩ := exec_resultRegisters i h
  obtain ⟨t', h', e⟩ := exec_next i s
  obtain rfl := Host.Outcome.next.inj (h.symm.trans h')
  refine ⟨?_, ?_, hcount, hpeak, hhps, hac, hconf, ?_, exec_byteAt i h⟩ <;> rw [e]
  · exact ⟨rfl, rfl, rfl, rfl, rfl⟩
  · exact ⟨rfl, rfl, rfl, rfl, rfl⟩
  · exact ⟨rfl, rfl, rfl, rfl⟩

/-! ## The interrupt output (60_exceptions.md R270, R271) -/

theorem irq_iff (s : State) : s.irq = true ↔ s.ie = true ∧ (s.done = true ∨ s.err = true) := by
  simp [State.irq]

/-- The engine's step never lowers `irq`: it completes with DONE, or nothing changes. -/
theorem engineStep_irq {s t : State} (h : engineStep s = .next t) (hs : s.irq = true) : t.irq = true := by
  obtain ⟨-, rfl⟩ | ⟨-, hie, -, hdone, -, -⟩ := engineStep_next s t h
  · exact hs
  · exact (irq_iff t).2 ⟨hie.trans ((irq_iff s).1 hs).1, .inl hdone⟩

/-- An acknowledgement that leaves a raised flag leaves `irq`. -/
theorem acknowledge_irq_false {v : Word} {s : State} (hs : s.irq = true) (h : (acknowledge v s).irq = false) :
    (s.done = true → v.getLsbD 1 = true) ∧ (s.err = true → v.getLsbD 2 = true) := by
  obtain ⟨hie, -⟩ := (irq_iff s).1 hs
  have hlow : (s.done && !v.getLsbD 1 || s.err && !v.getLsbD 2) = false := by
    simpa [State.irq, hie] using h
  obtain ⟨hd, he⟩ := Bool.or_eq_false_iff.1 hlow
  exact ⟨fun hdone => by simpa [hdone] using hd, fun herr => by simpa [herr] using he⟩

/-- A rejected word raises ERR, so only an accepted one lowers `irq`. -/
theorem issue_irq_false {w : CmdWord} {s : State} (hs : s.irq = true) (h : (issue w s).irq = false) :
    ∃ i, check s.params w s.len s.fs = .ok i := by
  obtain ⟨i, hc, -⟩ | ⟨_, -, -, e⟩ := issue_cases w s
  · exact ⟨i, hc⟩
  · have hup : (issue w s).irq = true := by
      rw [e]
      exact (irq_iff _).2 ⟨((irq_iff s).1 hs).1, .inr rfl⟩
    exact absurd (hup.symm.trans h) nofun

/-- Settles O49: of the moves that keep IE, only an acknowledgement of every raised flag and an acceptance clear both
flags. -/
theorem irqStaysUntilCleared : Obligations.IrqStaysUntilCleared := by
  unfold Obligations.IrqStaysUntilCleared
  intro s t ht hs hlow
  have kept {P : Prop} (h : t.irq = true) : P := absurd (h.symm.trans hlow) nofun
  obtain ⟨-, e⟩ | ⟨rest, -, e⟩ | ⟨tx, rest, hturns, e⟩ | ⟨rest, hturns, -⟩ := step_cases s
  · exact kept (engineStep_irq (e.symm.trans ht) hs)
  · exact kept (engineStep_irq (e.symm.trans ht) hs)
  · obtain rfl := Host.Outcome.next.inj (e.symm.trans ht)
    refine ⟨rest, .inr ?_⟩
    obtain ⟨_, _, _, _, e', -⟩ | ⟨v, rfl, hv, -⟩ | ⟨v, rfl, -, e'⟩ | ⟨v, rfl, e'⟩ | ⟨v, rfl, hidle, e'⟩
      | ⟨-, _, _, _, _, _, _, e'⟩ := hostTxn_cases tx { s with turns := rest }
    · exact kept (e' ▸ hs)
    · exact .inr (.inl ⟨v, hturns, .inr hv⟩)
    · refine .inr (.inl ⟨v, hturns, .inl (Bool.eq_false_iff.2 fun hv => ?_)⟩)
      exact kept ((congrArg State.irq e').trans ((irq_iff _).2 ⟨hv, ((irq_iff s).1 hs).2⟩))
    · rw [e'] at hlow
      exact .inl ⟨v, hturns, acknowledge_irq_false (s := { s with turns := rest }) hs hlow⟩
    · rw [e'] at hlow
      obtain ⟨i, hc⟩ := issue_irq_false (s := { s with turns := rest }) hs hlow
      exact .inr (.inr ⟨v, i, hturns, hidle, hc⟩)
    · exact kept (e' ▸ hs)
  · exact ⟨rest, .inl hturns⟩

/-! ## Runs (40_command.md R122; 60_exceptions.md R268; 70_reset_and_hazards.md R307) -/

/-- The one fault needs a pending command that was never accepted. -/
theorem engineStep_goes_on {s : State} (h : Inv s) : ∃ t, engineStep s = .next t := by
  obtain ⟨-, e⟩ | ⟨_, i, -, -, e⟩ | ⟨p, er, hp, herr, -⟩ := engineStep_cases s
  · exact ⟨s, e⟩
  · obtain ⟨t, ht, -⟩ := exec_next i s
    exact ⟨t, e.trans ht⟩
  · obtain ⟨-, -, -, i, hok⟩ := h.pendingAccepted p hp
    exact absurd (herr.symm.trans hok) nofun

theorem step_goes_on {s : State} (h : Inv s) : ∃ t, step s = .next t := by
  obtain ⟨-, e⟩ | ⟨rest, -, e⟩ | ⟨_, _, -, e⟩ | ⟨_, -, e⟩ := step_cases s
  · obtain ⟨t, ht⟩ := engineStep_goes_on h
    exact ⟨t, e.trans ht⟩
  · obtain ⟨t, ht⟩ := engineStep_goes_on (h.with_turns rest)
    exact ⟨t, e.trans ht⟩
  · exact ⟨_, e⟩
  · exact ⟨_, e⟩

/-- Settles O56, by induction on the length of the run: a step from the invariant goes on and keeps it. -/
theorem runsNeverStop : Obligations.RunsNeverStop := by
  unfold Obligations.RunsNeverStop
  intro s h k
  induction k generalizing s with
  | zero => exact ⟨s, rfl⟩
  | succ k ih =>
    obtain ⟨t, ht⟩ := step_goes_on h
    obtain ⟨u, hu⟩ := ih t (stepKeepsTheInvariant s t h ht)
    exact ⟨u, (run_succ ht k).trans hu⟩

/-- A transaction adds no move. -/
theorem hostTxn_turns (tx : Txn) (s : State) : (hostTxn tx s).turns = s.turns := by
  obtain ⟨_, _, _, _, e, -⟩ | ⟨_, -, -, e⟩ | ⟨_, -, -, e⟩ | ⟨_, -, e⟩ | ⟨v, -, -, e⟩
    | ⟨-, _, _, _, _, _, _, e⟩ := hostTxn_cases tx s <;> rw [e]
  case inr.inl => exact scramble_turns s
  case inr.inr.inr.inr.inl =>
    obtain ⟨_, _, e'⟩ | ⟨_, _, _, e'⟩ := issue_cases (v.setWidth 32) s <;> rw [e'] <;> rfl
  all_goals rfl

/-- A step leaves nothing pending, or carries out a host move and has one fewer to come. -/
theorem step_pending_or_fewer_turns {s t : State} (h : step s = .next t) :
    t.pending = none ∨ t.turns.length + 1 = s.turns.length := by
  obtain ⟨-, e⟩ | ⟨_, -, e⟩ | ⟨tx, rest, hturns, e⟩ | ⟨_, -, e⟩ := step_cases s
  · exact .inl (engineStep_pending _ t (e.symm.trans h))
  · exact .inl (engineStep_pending _ t (e.symm.trans h))
  · obtain rfl := Host.Outcome.next.inj (e.symm.trans h)
    rw [hostTxn_turns, hturns]
    exact .inr rfl
  · obtain rfl := Host.Outcome.next.inj (e.symm.trans h)
    exact .inl rfl

/-- From the invariant nothing is pending at some point within the moves scheduled and one more. -/
theorem idle_within_turns {s : State} (h : Inv s) {n : Nat} (hn : s.turns.length = n) :
    ∃ k t, k ≤ n + 1 ∧ core.run k s = .next t ∧ t.pending = none := by
  induction n generalizing s with
  | zero =>
    obtain ⟨t, ht⟩ := step_goes_on h
    have hidle := (step_pending_or_fewer_turns ht).resolve_right (by omega)
    exact ⟨1, t, le_rfl, run_succ ht 0, hidle⟩
  | succ n ih =>
    obtain ⟨t, ht⟩ := step_goes_on h
    obtain hidle | hfewer := step_pending_or_fewer_turns ht
    · exact ⟨1, t, by omega, run_succ ht 0, hidle⟩
    · obtain ⟨k, u, hk, hrun, hu⟩ := ih (stepKeepsTheInvariant s t h ht) (by omega)
      exact ⟨k + 1, u, by omega, (run_succ ht k).trans hrun, hu⟩

/-- Settles O58: by induction on the moves scheduled, each a host move until one leaves nothing pending. -/
theorem pendingCommandsComplete : Obligations.PendingCommandsComplete := by
  unfold Obligations.PendingCommandsComplete
  exact fun s h _ => idle_within_turns h rfl

end Sys2Proof.Machine
end

section
namespace Sys2Proof.Machine

open Sys2Proof.Spec

/-! ## Kinds of patterns (40_command.md R125, R126) -/

theorem isNaN_iff (x : F64) : isNaN x = true ↔ infBits < magBits x := by rw [isNaN, Nat.blt_eq]

theorem isInf_iff (x : F64) : isInf x = true ↔ magBits x = infBits := by rw [isInf, Nat.beq_eq]

theorem isNaN_of_isInf {x : F64} (h : isInf x = true) : isNaN x = false := by
  rw [isInf_iff] at h
  rw [Bool.eq_false_iff, ne_eq, isNaN_iff]
  omega

theorem isZero_of_isInf {x : F64} (h : isInf x = true) : isZero x = false := by
  rw [isInf_iff] at h
  have hpos : 0 < infBits := by decide
  rw [Bool.eq_false_iff, ne_eq, isZero_iff_magBits]
  omega

theorem isFinite_of_isZero {x : F64} (h : isZero x = true) : isFinite x = true := by
  rw [isZero_iff_magBits] at h
  rw [isFinite_iff, h]
  decide

@[simp] theorem isNaN_fneg (x : F64) : isNaN (fneg x) = isNaN x := by simp [isNaN]

@[simp] theorem isInf_fneg (x : F64) : isInf (fneg x) = isInf x := by simp [isInf]

@[simp] theorem isNaN_nanOut (op : Config.FloatOp) (a b : F64) : isNaN (nanOut op a b) = true := by
  unfold nanOut
  split
  · assumption
  · decide

theorem isInf_packBits_inf (neg : Bool) : isInf (packBits neg infBits) = true :=
  (isInf_iff _).2 (magBits_packBits neg _ infBits_lt)

theorem isZero_packBits_zero (neg : Bool) : isZero (packBits neg 0) = true :=
  (isZero_iff_magBits _).2 (magBits_packBits neg 0 (by decide))

theorem packBits_zero (neg : Bool) : packBits neg 0 = if neg then 0x8000000000000000 else 0 := by
  cases neg <;> rfl

theorem roundBits_le_inf (num den : Nat) : roundBits num den ≤ infBits := min_le_right _ _

theorem signOf_packBits_of_le_inf (neg : Bool) {m : Nat} (h : m ≤ infBits) : signOf (packBits neg m) = neg :=
  signOf_packBits neg m (h.trans_lt infBits_lt)

/-! ## Sums (40_command.md R125) -/

theorem roundedSum_of_isNaN (nan : F64) {a b : F64} (h : isNaN a = true ∨ isNaN b = true) :
    roundedSum nan a b = nan := by
  simp [roundedSum, h]

theorem roundedSum_inf_finite (nan : F64) {a b : F64} (ha : isInf a = true) (hb : isFinite b = true) :
    roundedSum nan a b = a := by
  simp [roundedSum, isNaN_of_isInf ha, isNaN_of_isFinite hb, ha, isInf_of_isFinite hb]

theorem roundedSum_finite_inf (nan : F64) {a b : F64} (ha : isFinite a = true) (hb : isInf b = true) :
    roundedSum nan a b = b := by
  simp [roundedSum, isNaN_of_isFinite ha, isNaN_of_isInf hb, isInf_of_isFinite ha, hb]

theorem roundedSum_inf_inf (nan : F64) {a b : F64} (ha : isInf a = true) (hb : isInf b = true) :
    roundedSum nan a b = if signOf a = signOf b then a else nan := by
  simp [roundedSum, isNaN_of_isInf ha, isNaN_of_isInf hb, ha, hb]

theorem roundedSum_cancel (nan : F64) {a b : F64} (ha : isFinite a = true) (hb : isFinite b = true)
    (h : real a + real b = 0) :
    roundedSum nan a b = if signOf a && signOf b then 0x8000000000000000 else 0 := by
  have hz : exactInt a + exactInt b = 0 := by
    rw [real_eq_exactInt, real_eq_exactInt, ← add_div, div_eq_zero_iff] at h
    exact_mod_cast h.resolve_right (by positivity)
  rw [← packBits_zero]
  simp [roundedSum, isNaN_of_isFinite ha, isNaN_of_isFinite hb, isInf_of_isFinite ha, isInf_of_isFinite hb, hz]

/-! ## Products, quotients and roots (40_command.md R125) -/

theorem fmul_of_isNaN {a b : F64} (h : isNaN a = true ∨ isNaN b = true) : fmul a b = nanOut .mul a b := by
  simp [fmul, h]

theorem fdiv_of_isNaN {a b : F64} (h : isNaN a = true ∨ isNaN b = true) : fdiv a b = nanOut .div a b := by
  simp [fdiv, h]

theorem fsqrt_of_isNaN {a : F64} (h : isNaN a = true) : fsqrt a = nanOut .sqrt a a := if_pos h

/-- A product with an infinite factor: a NaN when the other is a zero, else an infinity. -/
theorem fmul_of_isInf {a b : F64} (h : isInf a = true ∨ isInf b = true) (ha : isNaN a = false)
    (hb : isNaN b = false) :
    fmul a b = if isZero a || isZero b then nanOut .mul a b else packBits (signOf a != signOf b) infBits := by
  simp [fmul, ha, hb, h]

/-- A product that is no NaN is a magnitude with the exclusive or of the signs. -/
theorem fmul_cases (a b : F64) :
    isNaN (fmul a b) = true ∨ ∃ m ≤ infBits, fmul a b = packBits (signOf a != signOf b) m := by
  unfold fmul
  dsimp only
  split
  · exact .inl (isNaN_nanOut _ a b)
  split
  · split
    · exact .inl (isNaN_nanOut _ a b)
    · exact .inr ⟨infBits, le_rfl, rfl⟩
  · exact .inr ⟨_, roundBits_le_inf _ _, rfl⟩

theorem fdiv_inf_inf {a b : F64} (ha : isInf a = true) (hb : isInf b = true) : fdiv a b = nanOut .div a b := by
  simp [fdiv, isNaN_of_isInf ha, isNaN_of_isInf hb, ha, hb]

theorem fdiv_inf_finite {a b : F64} (ha : isInf a = true) (hb : isFinite b = true) :
    fdiv a b = packBits (signOf a != signOf b) infBits := by
  simp [fdiv, isNaN_of_isInf ha, isNaN_of_isFinite hb, ha, isInf_of_isFinite hb]

theorem fdiv_finite_inf {a b : F64} (ha : isFinite a = true) (hb : isInf b = true) :
    fdiv a b = packBits (signOf a != signOf b) 0 := by
  simp [fdiv, isNaN_of_isFinite ha, isNaN_of_isInf hb, isInf_of_isFinite ha, hb]

/-- Division by zero: an infinity, or a NaN for a zero dividend. -/
theorem fdiv_finite_zero {a b : F64} (ha : isFinite a = true) (hb : isZero b = true) :
    fdiv a b = if isZero a then nanOut .div a b else packBits (signOf a != signOf b) infBits := by
  have hfin := isFinite_of_isZero hb
  simp [fdiv, isNaN_of_isFinite ha, isNaN_of_isFinite hfin, isInf_of_isFinite ha, isInf_of_isFinite hfin, hb]

/-- A quotient that is no NaN is a magnitude with the exclusive or of the signs. -/
theorem fdiv_cases (a b : F64) :
    isNaN (fdiv a b) = true ∨ ∃ m ≤ infBits, fdiv a b = packBits (signOf a != signOf b) m := by
  unfold fdiv
  dsimp only
  split
  · exact .inl (isNaN_nanOut _ a b)
  split
  · split
    · exact .inl (isNaN_nanOut _ a b)
    · exact .inr ⟨infBits, le_rfl, rfl⟩
  split
  · exact .inr ⟨0, Nat.zero_le _, rfl⟩
  split
  · split
    · exact .inl (isNaN_nanOut _ a b)
    · exact .inr ⟨infBits, le_rfl, rfl⟩
  · exact .inr ⟨_, roundBits_le_inf _ _, rfl⟩

theorem fsqrt_of_negative {a : F64} (hz : isZero a = false) (hs : signOf a = true) : fsqrt a = nanOut .sqrt a a := by
  simp [fsqrt, hz, hs]

/-- A root that is no NaN is its operand, a zero or an infinity, or a magnitude with sign 0 of one with sign 0. -/
theorem fsqrt_cases (a : F64) :
    isNaN (fsqrt a) = true ∨ fsqrt a = a ∨ (signOf a = false ∧ ∃ m ≤ infBits, fsqrt a = packBits false m) := by
  unfold fsqrt
  split
  · exact .inl (isNaN_nanOut _ a a)
  split
  · exact .inr (.inl rfl)
  split
  · exact .inl (isNaN_nanOut _ a a)
  split
  · exact .inr (.inl rfl)
  · exact .inr (.inr ⟨Bool.eq_false_iff.2 ‹_›, _, roundBits_le_inf _ _, rfl⟩)

/-- Settles O36: each special case is a branch of its operation. -/
theorem floatSpecialCases : Obligations.FloatSpecialCases := by
  unfold Obligations.FloatSpecialCases
  refine ⟨fun a b ha hz hb => ?_, fun a b ha hb => ?_, fun a b ha hb hs => ?_, fun a b ha hb => ?_,
    fun a hz hs => ?_, by decide, fun a b ha hb h => roundedSum_cancel _ ha hb h, fun a b ha hb h => ?_,
    fun a b h => ?_, fun a h => ?_⟩
  · rw [fdiv_finite_zero ha hb, hz, if_neg Bool.false_ne_true]
  · rw [fdiv_finite_zero (isFinite_of_isZero ha) hb, if_pos ha]
    exact isNaN_nanOut _ a b
  · rw [fsub, roundedSum_inf_inf _ ha (by rwa [isInf_fneg]), signOf_fneg, hs, if_neg (by simp)]
    exact isNaN_nanOut _ a b
  · rw [fmul_of_isInf (.inr hb) (isNaN_of_isFinite (isFinite_of_isZero ha)) (isNaN_of_isInf hb), ha]
    exact isNaN_nanOut _ a b
  · rw [fsqrt_of_negative hz hs]
    exact isNaN_nanOut _ a a
  · rw [← signOf_fneg]
    exact roundedSum_cancel _ ha (by rwa [isFinite_fneg]) (by rw [real_fneg, h, add_neg_cancel])
  · rw [fadd, fsub, roundedSum_of_isNaN _ h, roundedSum_of_isNaN _ (by rwa [isNaN_fneg]), fmul_of_isNaN h,
      fdiv_of_isNaN h]
    exact ⟨isNaN_nanOut _ a b, isNaN_nanOut _ a b, isNaN_nanOut _ a b, isNaN_nanOut _ a b⟩
  · rw [fsqrt_of_isNaN h]
    exact isNaN_nanOut _ a a

theorem fadd_fsub_inf_finite {a b : F64} (ha : isInf a = true) (hb : isFinite b = true) :
    fadd a b = a ∧ fadd b a = a ∧ fsub a b = a ∧ fsub b a = negated a :=
  ⟨roundedSum_inf_finite _ ha hb, roundedSum_finite_inf _ hb ha,
    roundedSum_inf_finite _ ha (by rwa [isFinite_fneg]), roundedSum_finite_inf _ hb (by rwa [isInf_fneg])⟩

theorem fadd_fsub_inf_inf {a b : F64} (ha : isInf a = true) (hb : isInf b = true) :
    if signOf a = signOf b then fadd a b = a ∧ isNaN (fsub a b) = true
    else isNaN (fadd a b) = true ∧ fsub a b = a := by
  rw [fadd, fsub, roundedSum_inf_inf _ ha hb, roundedSum_inf_inf _ ha (by rwa [isInf_fneg]), signOf_fneg]
  split
  case isTrue hs => simp [hs]
  case isFalse hs => simp [hs, Bool.eq_not]

theorem fmul_inf {a b : F64} (ha : isInf a = true) (hb : isNaN b = false) :
    if isZero b then isNaN (fmul a b) = true ∧ isNaN (fmul b a) = true
    else isInf (fmul a b) = true ∧ isInf (fmul b a) = true := by
  rw [fmul_of_isInf (.inl ha) (isNaN_of_isInf ha) hb, fmul_of_isInf (.inr ha) hb (isNaN_of_isInf ha),
    isZero_of_isInf ha, Bool.or_false, Bool.false_or]
  split
  · exact ⟨isNaN_nanOut _ a b, isNaN_nanOut _ b a⟩
  · exact ⟨isInf_packBits_inf _, isInf_packBits_inf _⟩

/-- Settles O37: a result that is no NaN is packed with its sign, and each infinite operand has a branch of its own. -/
theorem signsAndInfiniteOperands : Obligations.SignsAndInfiniteOperands := by
  unfold Obligations.SignsAndInfiniteOperands
  refine ⟨fun a b h => ?_, fun a b h => ?_, fun a h => ?_, fun a b => fadd_fsub_inf_finite,
    fun a b => fadd_fsub_inf_inf, fun a b => fmul_inf, fun a b ha hb => ?_, fun a b ha hb => ?_, by decide⟩
  · obtain hnan | ⟨m, hm, e⟩ := fmul_cases a b
    · exact absurd (hnan.symm.trans h) nofun
    · rw [e, signOf_packBits_of_le_inf _ hm]
  · obtain hnan | ⟨m, hm, e⟩ := fdiv_cases a b
    · exact absurd (hnan.symm.trans h) nofun
    · rw [e, signOf_packBits_of_le_inf _ hm]
  · obtain hnan | e | ⟨hs, m, hm, e⟩ := fsqrt_cases a
    · exact absurd (hnan.symm.trans h) nofun
    · rw [e]
    · rw [e, signOf_packBits_of_le_inf _ hm, hs]
  · rw [fdiv_inf_finite ha hb, fdiv_finite_inf hb ha]
    exact ⟨isInf_packBits_inf _, isZero_packBits_zero _⟩
  · rw [fdiv_inf_inf ha hb]
    exact isNaN_nanOut _ a b

/-! ## Comparisons (40_command.md R127) -/

/-- The order of keys is the order of the integers the finite values denote: magnitudes grow with their bits. -/
theorem exactInt_lt_iff (a b : F64) : exactInt a < exactInt b ↔ orderKey a < orderKey b := by
  have hab : unitsOf a < unitsOf b ↔ magBits a < magBits b := magUnits_strictMono.lt_iff_lt
  have hba : unitsOf b < unitsOf a ↔ magBits b < magBits a := magUnits_strictMono.lt_iff_lt
  have ha : unitsOf a = 0 ↔ magBits a = 0 := magUnits_eq_zero _
  have hb : unitsOf b = 0 ↔ magBits b = 0 := magUnits_eq_zero _
  unfold exactInt orderKey
  cases signOf a <;> cases signOf b <;> simp only [if_true, if_false, Bool.false_eq_true] <;> omega

theorem real_lt_iff (a b : F64) : real a < real b ↔ orderKey a < orderKey b := by
  rw [← exactInt_lt_iff, real_eq_exactInt, real_eq_exactInt, div_lt_div_iff_of_pos_right (by positivity), Int.cast_lt]

theorem real_eq_iff (a b : F64) : real a = real b ↔ orderKey a = orderKey b := by
  simp only [le_antisymm_iff, ← not_lt, real_lt_iff]

/-- Two patterns have one key exactly when they are the same or both zeros. -/
theorem orderKey_eq_iff (a b : F64) :
    orderKey a = orderKey b ↔ a = b ∨ (isZero a = true ∧ isZero b = true) := by
  rw [isZero_iff_magBits, isZero_iff_magBits]
  constructor
  · intro h
    have hcases : (signOf a = signOf b ∧ magBits a = magBits b) ∨ (magBits a = 0 ∧ magBits b = 0) := by
      revert h
      unfold orderKey
      cases signOf a <;> cases signOf b <;> simp only [if_true, if_false, reduceCtorEq, true_and, false_and] <;> omega
    refine hcases.imp_left fun ⟨hs, hm⟩ => ?_
    rw [← packBits_signOf_magBits a, ← packBits_signOf_magBits b, hs, hm]
  · rintro (rfl | ⟨ha, hb⟩)
    · rfl
    · simp [orderKey, ha, hb]

theorem orderKey_plusInf : orderKey plusInf = infBits := by decide

theorem orderKey_minusInf : orderKey (negated plusInf) = -infBits := by decide

/-- The infinities are outermost. -/
theorem orderKey_bounds {a : F64} (h : isNaN a = false) :
    -(infBits : Int) ≤ orderKey a ∧ orderKey a ≤ infBits := by
  rw [Bool.eq_false_iff, ne_eq, isNaN_iff] at h
  unfold orderKey
  split <;> omega

/-- Only the infinity itself has its key. -/
theorem orderKey_eq_of_isInf {a b : F64} (hb : isInf b = true) : orderKey a = orderKey b ↔ a = b := by
  simp [orderKey_eq_iff, isZero_of_isInf hb]

theorem fgt_plusInf_iff {a : F64} (h : isNaN a = false) : fgt plusInf a = true ↔ a ≠ plusInf := by
  have hkey := orderKey_eq_of_isInf (a := a) (b := plusInf) (by decide)
  obtain ⟨-, hle⟩ := orderKey_bounds h
  rw [fgt_iff, ne_eq, ← hkey, orderKey_plusInf]
  exact ⟨fun ⟨_, _, hlt⟩ => hlt.ne, fun hne => ⟨by decide, h, lt_of_le_of_ne hle hne⟩⟩

theorem fgt_minusInf_iff {a : F64} (h : isNaN a = false) :
    fgt a (negated plusInf) = true ↔ a ≠ negated plusInf := by
  have hkey := orderKey_eq_of_isInf (a := a) (b := negated plusInf) (by decide)
  obtain ⟨hle, -⟩ := orderKey_bounds h
  rw [fgt_iff, ne_eq, ← hkey, orderKey_minusInf]
  exact ⟨fun ⟨_, _, hlt⟩ => hlt.ne', fun hne => ⟨h, by decide, lt_of_le_of_ne hle (Ne.symm hne)⟩⟩

theorem fgt_iff_orderKey {a b : F64} (ha : isNaN a = false) (hb : isNaN b = false) :
    fgt a b = true ↔ orderKey b < orderKey a := by simp [fgt_iff, ha, hb]

theorem feq_iff_orderKey {a b : F64} (ha : isNaN a = false) (hb : isNaN b = false) :
    feq a b = true ↔ orderKey a = orderKey b := by simp [feq_iff, ha, hb]

/-- Settles O38: the comparisons compare keys, and keys order the reals (`real_lt_iff`). -/
theorem comparisonsOrderTheReals : Obligations.ComparisonsOrderTheReals := by
  unfold Obligations.ComparisonsOrderTheReals
  refine ⟨fun a b h => ?_, fun a b ha hb => ?_, fun a h => ⟨fgt_plusInf_iff h, fgt_minusInf_iff h⟩,
    fun a b ha hb => ⟨?_, ?_⟩⟩
  · obtain h | h := h <;> simp [fgt, feq, h]
  · have hna := isNaN_of_isFinite ha
    have hnb := isNaN_of_isFinite hb
    rw [fgt_iff_orderKey hna hnb, feq_iff_orderKey hna hnb, real_lt_iff, real_eq_iff]
    exact ⟨Iff.rfl, Iff.rfl⟩
  · rw [feq_iff_orderKey ha hb, orderKey_eq_iff]
  · rw [Bool.eq_false_iff, Bool.eq_false_iff, ne_eq, ne_eq, fgt_iff_orderKey ha hb, fgt_iff_orderKey hb ha,
      feq_iff_orderKey ha hb]
    omega

/-! ## Exact results (40_command.md R131) -/

/-- A significand of 53 bits over a small power of two is the value of some finite pattern. -/
theorem exists_real_eq (k t : Nat) (hk : k < 2 ^ 53) (ht : t ≤ 1074) :
    ∃ y, isFinite y = true ∧ real y = k / 2 ^ t := by
  obtain ⟨m, hm, e⟩ := exists_magUnits_eq k (1074 - t) hk (by omega)
  refine ⟨packBits false m, isFinite_packBits false m hm, ?_⟩
  have hpow : (2 : ℝ) ^ 1074 = 2 ^ (1074 - t) * 2 ^ t := by rw [← pow_add, Nat.sub_add_cancel ht]
  rw [real_packBits false m (hm.trans infBits_lt), signed_false, e, Nat.cast_mul, Nat.cast_pow, Nat.cast_ofNat, hpow,
    mul_comm (k : ℝ), mul_div_mul_left _ _ (by positivity)]

/-- Such a value rounds to itself. -/
theorem roundsTo_exact {x : ℝ} {r : F64} (h : RoundsTo x r) (k t : Nat) (hk : k < 2 ^ 53) (ht : t ≤ 1074)
    (hx : x = k / 2 ^ t) : isFinite r = true ∧ real r = x := by
  have hlt : |x| < (2 ^ 54 - 1) * 2 ^ 970 := by
    have hkt : (k : ℝ) / 2 ^ t ≤ k := div_le_self (Nat.cast_nonneg k) (one_le_pow₀ one_le_two)
    have hk' : (k : ℝ) < 2 ^ 53 := by exact_mod_cast hk
    rw [hx, abs_of_nonneg (by positivity)]
    calc (k : ℝ) / 2 ^ t
      _ < 2 ^ 53 := hkt.trans_lt hk'
      _ ≤ 2 ^ 54 - 1 := by norm_num
      _ ≤ (2 ^ 54 - 1) * 2 ^ 970 := le_mul_of_one_le_right (by norm_num) (one_le_pow₀ one_le_two)
  obtain ⟨y, hy, e⟩ := exists_real_eq k t hk ht
  rw [RoundsTo, if_pos hlt] at h
  obtain ⟨hr, hnear, -⟩ := h
  refine ⟨hr, ?_⟩
  have hzero := hnear y hy
  rwa [e, hx, sub_self, abs_zero, abs_nonpos_iff, sub_eq_zero, ← hx] at hzero

/-- Settles O40: the product has at most 48 bits, and the division moves its binary point. -/
theorem integerBinFrequencyIsExact : Obligations.IntegerBinFrequencyIsExact := by
  unfold Obligations.IntegerBinFrequencyIsExact
  intro b k fs hb hk hfs
  have hprod : b * fs < 2 ^ 53 := mul_lt_two_pow hb hfs.le (by decide)
  have hpow : 2 ^ k < 2 ^ 53 := Nat.pow_lt_pow_right one_lt_two (by omega)
  obtain ⟨hbfin, -, hbreal⟩ := integerConversionIsExact b (by omega)
  obtain ⟨hffin, -, hfreal⟩ := integerConversionIsExact fs (by omega)
  obtain ⟨hnfin, -, hnreal⟩ := integerConversionIsExact (2 ^ k) hpow
  push_cast at hnreal
  obtain ⟨hmfin, hmreal⟩ := roundsTo_exact (fmul_roundsTo hbfin hffin) (b * fs) 0 hprod (by omega)
    (by rw [hbreal, hfreal]; push_cast; rw [pow_zero, div_one])
  rw [hbreal, hfreal] at hmreal
  have hnz : isZero (i2f (2 ^ k)) = false := Bool.eq_false_iff.2 fun hz =>
    (pow_ne_zero k two_ne_zero) (hnreal.symm.trans (real_of_isZero hz))
  have hdiv := roundsTo_exact (fdiv_roundsTo hmfin hnfin hnz) (b * fs) k hprod (by omega)
    (by rw [hmreal, hnreal]; push_cast; rfl)
  rwa [hmreal, hnreal] at hdiv

end Sys2Proof.Machine
end

section
namespace Sys2Proof.Machine

open Sys2Proof.Spec

/-! ## `bitrev` and the swap loop (41_fft.md R162) -/

theorem bitrev_bitrev {i k : Nat} (h : i < 2 ^ k) : bitrev (bitrev i k) k = i := by
  refine Nat.eq_of_testBit_eq fun b => ?_
  by_cases hb : b < k
  · have hrev := bitrev_testBit (bitrev i k) k (k - 1 - b) (by omega)
    rwa [show k - 1 - (k - 1 - b) = b by omega, bitrev_testBit i k b hb] at hrev
  · have hpow : 2 ^ k ≤ 2 ^ b := Nat.pow_le_pow_right two_pos (by omega)
    rw [Nat.testBit_lt_two_pow ((bitrev_lt _ k).trans_le hpow), Nat.testBit_lt_two_pow (h.trans_le hpow)]

/-- The buffer after the first `count` rounds of the swap loop: the pairs whose smaller index has been passed are
exchanged. -/
def swappedBelow (k count : Nat) (b : Nat → Cplx) (j : Nat) : Cplx :=
  if min j (bitrev j k) < count then b (bitrev j k) else b j

theorem swappedBelow_two_pow {k j : Nat} (b : Nat → Cplx) (hj : j < 2 ^ k) :
    swappedBelow k (2 ^ k) b j = b (bitrev j k) := if_pos (min_lt_of_left_lt hj)

/-- Round `i` exchanges the pair that `i` is the smaller index of. -/
theorem swapRound_apply {k i : Nat} (hi : i < 2 ^ k) (b : Nat → Cplx) (j : Nat) :
    swapRound k b i j = if i < bitrev i k ∧ (j = i ∨ j = bitrev i k) then b (bitrev j k) else b j := by
  unfold swapRound
  split
  case isTrue hlt =>
    by_cases hbot : j = bitrev i k
    · subst hbot
      rw [setAt_self, bitrev_bitrev hi, if_pos ⟨hlt, .inr rfl⟩]
    rw [setAt_ne _ hbot]
    by_cases htop : j = i
    · subst htop
      rw [setAt_self, if_pos ⟨hlt, .inl rfl⟩]
    · rw [setAt_ne _ htop, if_neg (by tauto)]
  case isFalse hge => rw [if_neg (by tauto)]

theorem swapRound_eq_swappedBelow {k i : Nat} {b c : Nat → Cplx} (hc : ∀ j < 2 ^ k, c j = swappedBelow k i b j)
    (hi : i < 2 ^ k) {j : Nat} (hj : j < 2 ^ k) : swapRound k c i j = swappedBelow k (i + 1) b j := by
  have hii := bitrev_bitrev hi
  have hjj := bitrev_bitrev hj
  rw [swapRound_apply hi]
  split
  case isTrue hpair =>
    have hmin : min j (bitrev j k) = i := by
      obtain ⟨hlt, rfl | rfl⟩ := hpair
      · exact min_eq_left hlt.le
      · rw [hii, min_eq_right hlt.le]
    rw [hc _ (bitrev_lt j k), swappedBelow, swappedBelow, hjj, min_comm, hmin, if_neg (lt_irrefl i),
      if_pos (Nat.lt_succ_self i)]
  case isFalse hpair =>
    rw [hc j hj]
    by_cases hfix : bitrev j k = j
    · rw [swappedBelow, swappedBelow, hfix, ite_self, ite_self]
    · have hmin : min j (bitrev j k) ≠ i := by
        rintro rfl
        obtain h | h := min_choice j (bitrev j k) <;> rw [h] at hpair <;> omega
      exact if_congr (by omega) rfl rfl

theorem inPlaceSwaps_succ (k n : Nat) (b : Nat → Cplx) :
    inPlaceSwaps k (n + 1) b = swapRound k (inPlaceSwaps k n b) n := by
  simp only [inPlaceSwaps_eq, List.range'_1_concat, List.foldl_concat, zero_add]

theorem inPlaceSwaps_eq_swappedBelow {k count j : Nat} (b : Nat → Cplx) (hcount : count ≤ 2 ^ k) (hj : j < 2 ^ k) :
    inPlaceSwaps k count b j = swappedBelow k count b j := by
  induction count generalizing j with
  | zero => rfl
  | succ i ih =>
    rw [inPlaceSwaps_succ]
    exact swapRound_eq_swappedBelow (fun _ => ih (by omega)) hcount hj

theorem segment_nthC (b : List Cplx) : segment 0 b.length (nthC b) = b := by
  refine List.ext_getElem (segment_length _ _ _) fun i _ hi => ?_
  simp [segment, nthC, hi]

/-- Settles O25: a list of `2 ^ k` entries is the segment of them, on which the swap pass is the in-place loop. -/
theorem swapLoopReversesTheIndices : Obligations.SwapLoopReversesTheIndices := by
  unfold Obligations.SwapLoopReversesTheIndices
  intro k b hlen
  refine ⟨(swapPass_length k _ 0 b).trans hlen, fun i hi => ⟨?_, bitrev_bitrev hi⟩⟩
  have hb : segment 0 (2 ^ k) (nthC b) = b := by rw [← hlen, segment_nthC]
  calc nthC (swapPass k (2 ^ k) 0 b) i
    _ = nthC (segment 0 (2 ^ k) (inPlaceSwaps k (2 ^ k) (nthC b))) i := by
      rw [inPlaceSwaps_eq, ← swapPass_segment k _ 0 _ (by omega), hb]
    _ = inPlaceSwaps k (2 ^ k) (nthC b) i := nthC_segment _ hi
    _ = nthC b (bitrev i k) := by rw [inPlaceSwaps_eq_swappedBelow _ le_rfl hi, swappedBelow_two_pow _ hi]

/-! ## Storing what was loaded (20_memory.md R65; 41_fft.md R167) -/

theorem leNat_eq_ofDigits (bs : List Byte) : leNat bs = Nat.ofDigits 256 (bs.map BitVec.toNat) := by
  induction bs with
  | nil => rfl
  | cons b bs ih => rw [leNat, ih, List.map_cons, Nat.ofDigits_cons]

theorem toNat_lt_of_mem_bytes {bs : List Byte} : ∀ d ∈ bs.map BitVec.toNat, d < 256 :=
  List.forall_mem_map.2 fun b _ => b.isLt

theorem leNat_lt (bs : List Byte) : leNat bs < 256 ^ bs.length := by
  rw [leNat_eq_ofDigits, ← List.length_map (f := BitVec.toNat)]
  exact Nat.ofDigits_lt_base_pow_length (by decide) toNat_lt_of_mem_bytes

theorem leNat_inj {bs cs : List Byte} (hlen : bs.length = cs.length) (h : leNat bs = leNat cs) : bs = cs := by
  rw [leNat_eq_ofDigits, leNat_eq_ofDigits] at h
  have hdigits := Nat.ofDigits_inj_of_len_eq (by decide) (by simpa using hlen) toNat_lt_of_mem_bytes
    toNat_lt_of_mem_bytes h
  exact List.map_injective_iff.2 (fun _ _ => BitVec.eq_of_toNat_eq) hdigits

/-- A word determines its bytes (20_memory.md R65). -/
theorem byteAt_eq_of_wordAt_eq {s s' : State} {a : Nat} (h : s.wordAt a = s'.wordAt a) {k : Nat} (hk : k < 8) :
    s.byteAt (a + k) = s'.byteAt (a + k) := by
  have hlt : ∀ s : State, leNat ((List.range 8).map fun k => s.byteAt (a + k)) < 2 ^ 64 := fun s =>
    (leNat_lt _).trans_eq (by simp)
  have hnat := congrArg BitVec.toNat h
  rw [State.wordAt, State.wordAt, BitVec.toNat_ofNat, BitVec.toNat_ofNat, Nat.mod_eq_of_lt (hlt s),
    Nat.mod_eq_of_lt (hlt s')] at hnat
  exact List.map_inj_left.1 (leNat_inj (by simp) hnat) k (List.mem_range.2 hk)

theorem byteAt_eq_of_cAt_eq {s s' : State} {b : CBuf} {i : Nat} (h : s.cAt b i = s'.cAt b i) {k : Nat} (hk : k < 16) :
    s.byteAt (cAddr b i + k) = s'.byteAt (cAddr b i + k) := by
  obtain ⟨hre, him⟩ := Cplx.mk.inj h
  obtain hlow | hhigh := Nat.lt_or_ge k 8
  · exact byteAt_eq_of_wordAt_eq hre hlow
  · have hbyte := byteAt_eq_of_wordAt_eq him (k := k - 8) (by omega)
    rwa [show cAddr b i + 8 + (k - 8) = cAddr b i + k by omega] at hbyte

/-- A byte of a complex buffer's first entries lies in one of them. -/
theorem exists_entry_of_inC {b : CBuf} {n a : Nat} (h : InC b n a) : ∃ i k, i < n ∧ k < 16 ∧ a = cAddr b i + k := by
  unfold InC cAddr at h
  refine ⟨(a - cBase b) / 16, (a - cBase b) % 16, by omega, by omega, ?_⟩
  rw [cAddr]
  omega

/-- Storing what was loaded changes no byte. -/
theorem byteAt_storeC_loadC (s : State) (b : CBuf) (n a : Nat) :
    (s.storeC b (s.loadC b n)).byteAt a = s.byteAt a := by
  by_cases hin : InC b n a
  · obtain ⟨i, k, hi, hk, rfl⟩ := exists_entry_of_inC hin
    have hcAt : (s.storeC b (s.loadC b n)).cAt b i = s.cAt b i := by
      rw [cAt_storeC_inside s b _ i (by rwa [loadC_length]), loadC_getElem]
    exact byteAt_eq_of_cAt_eq hcAt hk
  · exact byteAt_storeC_of_not_inC s b _ a (by rwa [loadC_length])

/-- Length 1 has no pair to swap and no stage, and FORWARD has no scaling. -/
theorem fftCore_one_forward (trig : Trig) (b : List Cplx) : fftCore trig 1 .forward b = b := rfl

/-- Settles O31: FFT_CORE keeps the one entry loaded, which is stored where it was. -/
theorem forwardFftOfLengthOneIsTheIdentity : Obligations.ForwardFftOfLengthOneIsTheIdentity := by
  unfold Obligations.ForwardFftOfLengthOneIsTheIdentity
  intro s b h
  refine ⟨_, rfl, fun a => ?_⟩
  rw [complete_byteAt, h, fftCore_one_forward]
  exact byteAt_storeC_loadC s b 1 a

/-! ## The twiddle table (41_fft.md R163) -/

/-- Settles O27: each row is a closed evaluation of the fixed-point cosine and sine, run by the kernel. -/
theorem forwardTwiddlesOfTheReferenceTable : Obligations.ForwardTwiddlesOfTheReferenceTable := by
  unfold Obligations.ForwardTwiddlesOfTheReferenceTable
  decide +kernel

end Sys2Proof.Machine
end

section
namespace Sys2Proof.Machine

open Sys2Proof.Spec

/-! ## Magnitudes (42_magnitude_peak.md R180) -/

/-- A value with sign 0: a zero, a finite value or an infinity, no NaN. -/
structure NonNeg (x : F64) : Prop where
  notNaN : isNaN x = false
  sign : signOf x = false

theorem isInf_or_isFinite {x : F64} (h : isNaN x = false) : isInf x = true ∨ isFinite x = true := by
  rw [isInf_iff, isFinite_iff]
  exact (not_lt.1 ((isNaN_iff x).not.1 (by simp [h]))).eq_or_lt

theorem isNaN_packBits_of_le_inf (neg : Bool) {m : Nat} (h : m ≤ infBits) : isNaN (packBits neg m) = false := by
  rw [Bool.eq_false_iff, ne_eq, isNaN_iff, magBits_packBits neg m (h.trans_lt infBits_lt)]
  exact h.not_gt

theorem nonNeg_packBits {m : Nat} (h : m ≤ infBits) : NonNeg (packBits false m) :=
  ⟨isNaN_packBits_of_le_inf false h, signOf_packBits_of_le_inf false h⟩

theorem NonNeg.eq_plusInf {x : F64} (h : NonNeg x) (hinf : isInf x = true) : x = plusInf := by
  rw [← packBits_signOf_magBits x, h.sign, (isInf_iff x).1 hinf]
  rfl

/-- The square of an infinity is +infinity: it is no zero, and the signs cancel. -/
theorem fmul_self_of_isInf {x : F64} (h : isInf x = true) : fmul x x = plusInf := by
  rw [fmul_of_isInf (.inl h) (isNaN_of_isInf h) (isNaN_of_isInf h), isZero_of_isInf h, bne_self_eq_false]
  rfl

theorem fmul_self_nonNeg {x : F64} (h : isNaN x = false) : NonNeg (fmul x x) := by
  obtain hinf | hfin := isInf_or_isFinite h
  · rw [fmul_self_of_isInf hinf]
    exact nonNeg_packBits le_rfl
  · rw [fmul_of_isFinite hfin hfin, bne_self_eq_false]
    exact nonNeg_packBits (roundBits_le_inf _ _)

/-- With no term below zero an infinite one decides the sum. -/
theorem fadd_of_isInf {a b : F64} (ha : NonNeg a) (hb : NonNeg b) (h : isInf a = true ∨ isInf b = true) :
    fadd a b = plusInf := by
  obtain hainf | hafin := isInf_or_isFinite ha.notNaN
  · refine Eq.trans ?_ (ha.eq_plusInf hainf)
    obtain hbinf | hbfin := isInf_or_isFinite hb.notNaN
    · rw [fadd, roundedSum_inf_inf _ hainf hbinf, ha.sign, hb.sign, if_pos rfl]
    · exact roundedSum_inf_finite _ hainf hbfin
  · have hbinf := h.resolve_left (by simp [isInf_of_isFinite hafin])
    exact (roundedSum_finite_inf _ hafin hbinf).trans (hb.eq_plusInf hbinf)

theorem exactInt_nonneg {x : F64} (h : NonNeg x) : 0 ≤ exactInt x := by
  simp [exactInt, h.sign]

theorem fadd_nonNeg {a b : F64} (ha : NonNeg a) (hb : NonNeg b) : NonNeg (fadd a b) := by
  by_cases hinf : isInf a = true ∨ isInf b = true
  · rw [fadd_of_isInf ha hb hinf]
    exact nonNeg_packBits le_rfl
  · obtain ⟨hainf, hbinf⟩ := not_or.1 hinf
    have hsum : ¬exactInt a + exactInt b < 0 := not_lt.2 (add_nonneg (exactInt_nonneg ha) (exactInt_nonneg hb))
    simp only [fadd, roundedSum, ha.notNaN, hb.notNaN, hainf, hbinf, ha.sign, hb.sign, hsum, Bool.or_self,
      Bool.and_self, Bool.false_eq_true, decide_false, if_false]
    split
    · exact nonNeg_packBits (Nat.zero_le _)
    · exact nonNeg_packBits (roundBits_le_inf _ _)

theorem fsqrt_nonNeg {a : F64} (h : NonNeg a) : NonNeg (fsqrt a) := by
  simp only [fsqrt, h.notNaN, h.sign, Bool.false_eq_true, if_false]
  split
  · exact h
  split
  · exact h
  · exact nonNeg_packBits (roundBits_le_inf _ _)

theorem isNaN_magf {c : Cplx} (h : isNaN c.re = true ∨ isNaN c.im = true) : isNaN (magf c) = true := by
  have hsquare {x : F64} (hx : isNaN x = true) : isNaN (fmul x x) = true := by
    rw [fmul_of_isNaN (.inl hx)]
    exact isNaN_nanOut _ x x
  have hsum : isNaN (fadd (fmul c.re c.re) (fmul c.im c.im)) = true := by
    rw [fadd, roundedSum_of_isNaN _ (h.imp hsquare hsquare)]
    exact isNaN_nanOut _ _ _
  rw [magf, fsqrt_of_isNaN hsum]
  exact isNaN_nanOut _ _ _

theorem magf_of_isInf {c : Cplx} (hre : isNaN c.re = false) (him : isNaN c.im = false)
    (h : isInf c.re = true ∨ isInf c.im = true) : magf c = plusInf := by
  have hsquare {x : F64} (hx : isInf x = true) : isInf (fmul x x) = true := by
    rw [fmul_self_of_isInf hx]
    rfl
  rw [magf, fadd_of_isInf (fmul_self_nonNeg hre) (fmul_self_nonNeg him) (h.imp hsquare hsquare)]
  rfl

/-- Settles O29: the squares have sign 0, a sum of two such values has, and so has its root. -/
theorem magnitudesAreNeverNegative : Obligations.MagnitudesAreNeverNegative := by
  unfold Obligations.MagnitudesAreNeverNegative
  refine fun c => ⟨isNaN_magf, fun hre him => ?_⟩
  have hmag : NonNeg (magf c) := fsqrt_nonNeg (fadd_nonNeg (fmul_self_nonNeg hre) (fmul_self_nonNeg him))
  exact ⟨hmag.notNaN, hmag.sign, magf_of_isInf hre him⟩

/-! ## MAG (42_magnitude_peak.md R181) -/

/-- Settles O15: the buffer holds the list of magnitudes stored, and no store reaches outside it. -/
theorem magWritesEveryMagnitude : Obligations.MagWritesEveryMagnitude := by
  unfold Obligations.MagWritesEveryMagnitude
  intro s d b _
  refine ⟨_, rfl, rfl, fun i hi => ?_, fun a ha => ?_⟩
  · calc (s.storeR d (s.magnitudes b s.opLen)).rAt d i
      _ = nth (s.magnitudes b s.opLen) i := rAt_storeR_nth s d _ (by rwa [magnitudes_length])
      _ = magnitude (s.cAt b i) := nth_magnitudes s b hi
  · exact byteAt_storeR_outside s d _ a (by rwa [magnitudes_length])

end Sys2Proof.Machine
end

section
namespace Sys2Proof.Machine

open Sys2Proof.Spec

/-! ## The scan of PEAKS (42_magnitude_peak.md R182, R183) -/

/-- The entry of the peak list for bin `i`. -/
def peakAt (m : Nat → F64) (n fs i : Nat) : Peak := ⟨i, binToFrequency (i2f i) n fs, m i⟩

/-- The peak bins among `count` bins from `i` on. -/
def peakBins (m : Nat → F64) (thr : F64) (count i : Nat) : List Nat :=
  (List.range' i count).filter fun i => isPeak m i thr

theorem peakBins_succ (m : Nat → F64) (thr : F64) (count i : Nat) :
    peakBins m thr (count + 1) i =
      if isPeak m i thr then i :: peakBins m thr count (i + 1) else peakBins m thr count (i + 1) := by
  rw [peakBins, List.range'_succ, List.filter_cons]
  rfl

theorem firstPeaks_eq (m : Nat → F64) (thr : F64) (maxp n fs : Nat) :
    firstPeaks m thr maxp n fs = ((peakBins m thr (n / 2 - 2) 1).take maxp).map (peakAt m n fs) := rfl

/-- The scan appends the peaks of the bins left, as many as MAXP leaves room for. -/
theorem scanPeaks_eq (m : Nat → F64) (thr : F64) (maxp n fs count i : Nat) (found : List Peak) :
    scanPeaks m thr maxp n fs count i found =
      found ++ ((peakBins m thr count i).take (maxp - found.length)).map (peakAt m n fs) := by
  induction count generalizing i found with
  | zero => simp [scanPeaks, peakBins]
  | succ count ih =>
    rw [scanPeaks, peakBins_succ]
    split
    case isTrue hfull => simp [Nat.sub_eq_zero_of_le hfull]
    case isFalse hroom =>
      rw [ih]
      split
      case isFalse => rfl
      case isTrue =>
        obtain ⟨k, hk⟩ : ∃ k, maxp - found.length = k + 1 := ⟨maxp - found.length - 1, by omega⟩
        have hk' : maxp - (found.length + 1) = k := by omega
        simp [hk, hk', peakAt]

theorem peakList_eq (m : Nat → F64) (thr : F64) (maxp n fs : Nat) :
    peakList m thr maxp n fs = sortPeaks (firstPeaks m thr maxp n fs) := by
  rw [peakList, scanPeaks_eq, firstPeaks_eq, List.nil_append, List.length_nil, Nat.sub_zero]

theorem mem_peakBins {m : Nat → F64} {thr : F64} {count i j : Nat} :
    j ∈ peakBins m thr count i ↔ (i ≤ j ∧ j < i + count) ∧ isPeak m j thr = true := by
  rw [peakBins, List.mem_filter, List.mem_range'_1]

/-- The scan reads bins `0..N/2-1` alone. -/
theorem firstPeaks_congr {m m' : Nat → F64} {n : Nat} (thr : F64) (maxp fs : Nat)
    (h : ∀ i < n / 2, m i = m' i) : firstPeaks m thr maxp n fs = firstPeaks m' thr maxp n fs := by
  have hbins : peakBins m thr (n / 2 - 2) 1 = peakBins m' thr (n / 2 - 2) 1 := by
    refine List.filter_congr fun i hi => ?_
    obtain ⟨hlo, hhi⟩ := List.mem_range'_1.1 hi
    rw [isPeak, isPeak, h (i - 1) (by omega), h i (by omega), h (i + 1) (by omega)]
  rw [firstPeaks_eq, firstPeaks_eq, hbins]
  refine List.map_congr_left fun i hi => ?_
  obtain ⟨⟨hlo, hhi⟩, -⟩ := mem_peakBins.1 (List.mem_of_mem_take hi)
  rw [peakAt, peakAt, h i (by omega)]

/-- A peak exceeds its neighbours, so its magnitude is no NaN. -/
theorem isNaN_mag_of_mem_firstPeaks {m : Nat → F64} {thr : F64} {maxp n fs : Nat} {p : Peak}
    (h : p ∈ firstPeaks m thr maxp n fs) : isNaN p.mag = false := by
  rw [firstPeaks_eq] at h
  obtain ⟨i, hi, rfl⟩ := List.mem_map.1 h
  obtain ⟨-, hpeak⟩ := mem_peakBins.1 (List.mem_of_mem_take hi)
  rw [isPeak, Bool.and_eq_true] at hpeak
  exact ((fgt_iff _ _).1 hpeak.2).1

theorem firstPeaks_bin_ascending (m : Nat → F64) (thr : F64) (maxp n fs : Nat) :
    (firstPeaks m thr maxp n fs).Pairwise (·.bin < ·.bin) := by
  rw [firstPeaks_eq, List.pairwise_map]
  exact (List.Pairwise.filter _ List.pairwise_lt_range').sublist (List.take_sublist _ _)

/-! ## The stable sort (42_magnitude_peak.md R184) -/

/-- `p` comes before `q` in the sorted list: the larger first, of equals the one with the lower bin. -/
def Precedes (p q : Peak) : Prop := fgt p.mag q.mag = true ∨ (feq p.mag q.mag = true ∧ p.bin < q.bin)

theorem stableSorted_iff (l ps : List Peak) : StableSorted l ps ↔ ps.Perm l ∧ ps.Pairwise Precedes := Iff.rfl

theorem fgt_of_fgt_of_precedes {p q r : Peak} (hpq : fgt p.mag q.mag = true) (hqr : Precedes q r) :
    fgt p.mag r.mag = true := by
  obtain hgt | ⟨heq, -⟩ := hqr
  · exact fgt_trans hpq hgt
  · obtain ⟨hp, -, hpq⟩ := (fgt_iff _ _).1 hpq
    obtain ⟨-, hr, hqr⟩ := (feq_iff _ _).1 heq
    exact (fgt_iff _ _).2 ⟨hp, hr, hqr ▸ hpq⟩

/-- An earlier peak stays before a later one that does not exceed it. -/
theorem precedes_of_not_fgt {p q : Peak} (hp : isNaN p.mag = false) (hq : isNaN q.mag = false)
    (hbin : q.bin < p.bin) (h : ¬fgt p.mag q.mag = true) : Precedes q p := by
  rw [fgt_iff_orderKey hp hq, not_lt] at h
  exact h.lt_or_eq.imp (fgt_iff_orderKey hq hp).2 fun heq => ⟨(feq_iff_orderKey hq hp).2 heq.symm, hbin⟩

theorem insertPeak_perm (p : Peak) (qs : List Peak) : (insertPeak p qs).Perm (p :: qs) := by
  induction qs with
  | nil => exact .refl _
  | cons q qs ih =>
    rw [insertPeak]
    split
    · exact .refl _
    · exact (ih.cons q).trans (.swap p q qs)

/-- Insertion keeps the order when the new peak has the highest bin. -/
theorem insertPeak_pairwise {p : Peak} {qs : List Peak} (hp : isNaN p.mag = false)
    (hqs : ∀ q ∈ qs, isNaN q.mag = false ∧ q.bin < p.bin) (h : qs.Pairwise Precedes) :
    (insertPeak p qs).Pairwise Precedes := by
  induction qs with
  | nil => exact List.pairwise_singleton _ _
  | cons q qs ih =>
    obtain ⟨hhead, htail⟩ := List.pairwise_cons.1 h
    obtain ⟨⟨hq, hbin⟩, hrest⟩ := List.forall_mem_cons.1 hqs
    rw [insertPeak]
    split
    case isTrue hgt =>
      refine List.pairwise_cons.2 ⟨List.forall_mem_cons.2 ⟨.inl hgt, fun r hr => .inl ?_⟩, h⟩
      exact fgt_of_fgt_of_precedes hgt (hhead r hr)
    case isFalse hle =>
      refine List.pairwise_cons.2 ⟨fun r hr => ?_, ih hrest htail⟩
      obtain rfl | hr := List.mem_cons.1 ((insertPeak_perm p qs).mem_iff.1 hr)
      · exact precedes_of_not_fgt hp hq hbin hle
      · exact hhead r hr

theorem sortPeaks_concat (l : List Peak) (p : Peak) : sortPeaks (l ++ [p]) = insertPeak p (sortPeaks l) := by
  rw [sortPeaks, List.foldl_append]
  rfl

theorem sortPeaks_stableSorted {l : List Peak} (hnan : ∀ p ∈ l, isNaN p.mag = false)
    (hbin : l.Pairwise (·.bin < ·.bin)) : StableSorted l (sortPeaks l) := by
  rw [stableSorted_iff]
  induction l using List.reverseRecOn with
  | nil => exact ⟨.refl _, .nil⟩
  | append_singleton l p ih =>
    obtain ⟨hl, -, hlast⟩ := List.pairwise_append.1 hbin
    obtain ⟨hperm, hsorted⟩ := ih (fun q hq => hnan q (List.mem_append_left _ hq)) hl
    rw [sortPeaks_concat]
    refine ⟨?_, insertPeak_pairwise (hnan p (by simp)) (fun q hq => ?_) hsorted⟩
    · exact (insertPeak_perm p _).trans ((hperm.cons p).trans (List.perm_append_singleton p l).symm)
    · have hq := hperm.mem_iff.1 hq
      exact ⟨hnan q (List.mem_append_left _ hq), hlast q hq p (List.mem_singleton_self p)⟩

/-! ## PEAKS (42_magnitude_peak.md R183) -/

theorem foundPeaks_stableSorted (s : State) (b : RBuf) (maxp : Nat) :
    StableSorted (firstPeaks (s.rAt b) s.peakThr maxp s.opLen s.opFs) (s.foundPeaks b maxp) := by
  rw [State.foundPeaks, peakList_eq, firstPeaks_congr _ _ _ fun i hi => nth_loadR s b (s.opLen / 2) i hi]
  exact sortPeaks_stableSorted (fun _ => isNaN_mag_of_mem_firstPeaks) (firstPeaks_bin_ascending _ _ _ _ _)

/-- Settles O16: the scan collects the first peaks (`scanPeaks_eq`), and insertion in bin order sorts them stably
(`sortPeaks_stableSorted`). -/
theorem peaksWritesTheSortedPeaks : Obligations.PeaksWritesTheSortedPeaks := by
  unfold Obligations.PeaksWritesTheSortedPeaks
  intro s b maxp _
  refine ⟨_, s.foundPeaks b maxp.toNat, rfl, foundPeaks_stableSorted s b maxp.toNat, ?_,
    foundPeaks_length_toNat s b maxp, fun j hj => ?_, fun a ha => ?_⟩
  · rw [storePeaks_eq]
    rfl
  · simpa using wordAt_storePeaks_inside s 0 (s.foundPeaks b maxp.toNat) j hj
  · exact byteAt_storePeaks_of_not_inP s _ a ha

end Sys2Proof.Machine
end

section
namespace Sys2Proof.Machine

open Sys2Proof.Spec

/-! ## A NaN operand gives a NaN (40_command.md R126) -/

theorem isNaN_fadd {a b : F64} (h : isNaN a = true ∨ isNaN b = true) : isNaN (fadd a b) = true := by
  rw [fadd, roundedSum_of_isNaN _ h, isNaN_nanOut]

theorem isNaN_fsub {a b : F64} (h : isNaN a = true ∨ isNaN b = true) : isNaN (fsub a b) = true := by
  rw [fsub, roundedSum_of_isNaN _ (by rwa [isNaN_fneg]), isNaN_nanOut]

theorem isNaN_fmul {a b : F64} (h : isNaN a = true ∨ isNaN b = true) : isNaN (fmul a b) = true := by
  rw [fmul_of_isNaN h, isNaN_nanOut]

theorem isNaN_fdiv {a b : F64} (h : isNaN a = true ∨ isNaN b = true) : isNaN (fdiv a b) = true := by
  rw [fdiv_of_isNaN h, isNaN_nanOut]

theorem isNaN_fsqrt {a : F64} (h : isNaN a = true) : isNaN (fsqrt a) = true := by
  rw [fsqrt_of_isNaN h, isNaN_nanOut]

/-! ## The power spectrum (43_pitch.md R211) -/

@[simp] theorem isZero_fneg (x : F64) : isZero (fneg x) = isZero x := by simp [isZero]

theorem fneg_packBits (neg : Bool) {m : Nat} (h : m ≤ infBits) : fneg (packBits neg m) = packBits (!neg) m := by
  have h63 := h.trans_lt infBits_lt
  rw [← packBits_signOf_magBits (fneg _), signOf_fneg, magBits_fneg, signOf_packBits neg m h63,
    magBits_packBits neg m h63]

/-- Factors of a product that is no NaN can be swapped, and the sign change of one is that of the product. -/
theorem fmul_fneg_swap {a b : F64} (h : isNaN (fmul a b) = false) : fmul b (fneg a) = fneg (fmul a b) := by
  have hsign : (signOf b != !signOf a) = !(signOf a != signOf b) := by
    cases signOf a <;> cases signOf b <;> rfl
  revert h
  simp only [fmul, isNaN_fneg, isInf_fneg, isZero_fneg, signOf_fneg, unitsOf_fneg, hsign, Bool.or_comm (isNaN b),
    Bool.or_comm (isInf b), Bool.or_comm (isZero b), Nat.mul_comm (unitsOf b)]
  split
  · simp
  split
  · split
    · simp
    · exact fun _ => (fneg_packBits _ le_rfl).symm
  · exact fun _ => (fneg_packBits _ (roundBits_le_inf _ _)).symm

/-- With no term below zero a sum is no NaN, so it is the difference from the negated term. -/
theorem fsub_fneg {a b : F64} (ha : NonNeg a) (hb : NonNeg b) : fsub a (fneg b) = fadd a b := by
  rw [fsub, fadd, fneg_fneg]
  simp [roundedSum, ha.notNaN, hb.notNaN, ha.sign, hb.sign]

theorem fadd_fneg_self {a : F64} (h : isFinite a = true) : fadd (fneg a) a = plusZero := by
  rw [fadd, roundedSum_cancel _ (by rwa [isFinite_fneg]) h (by rw [real_fneg, neg_add_cancel]), signOf_fneg,
    Bool.not_and_self]
  rfl

theorem isNaN_fadd_fneg_self {a : F64} (h : isInf a = true) : isNaN (fadd (fneg a) a) = true := by
  rw [fadd, roundedSum_inf_inf _ (by rwa [isInf_fneg]) h, signOf_fneg, if_neg (by simp), isNaN_nanOut]

theorem cmul_conj_re {x : Cplx} (hre : isNaN x.re = false) (him : isNaN x.im = false) :
    (cmul x (conj x)).re = fadd (fmul x.re x.re) (fmul x.im x.im) := by
  have himSq := fmul_self_nonNeg him
  rw [cmul, conj, fmul_fneg_swap himSq.notNaN, fsub_fneg (fmul_self_nonNeg hre) himSq]

theorem cmul_conj_im {x : Cplx} (h : isNaN (fmul x.im x.re) = false) :
    (cmul x (conj x)).im = fadd (fneg (fmul x.im x.re)) (fmul x.im x.re) := by
  rw [cmul, conj, fmul_fneg_swap h]

theorem isNaN_cmul_conj {x : Cplx} (h : isNaN x.re = true ∨ isNaN x.im = true) :
    isNaN (cmul x (conj x)).re = true ∧ isNaN (cmul x (conj x)).im = true :=
  ⟨isNaN_fsub (h.imp (fun hre => isNaN_fmul (.inl hre)) fun him => isNaN_fmul (.inl him)),
    isNaN_fadd (.inr (isNaN_fmul h.symm))⟩

/-- Settles O28: conjugation negates the products it enters (`fmul_fneg_swap`), so the real part is a sum of squares
and the imaginary part a product less itself. -/
theorem powerSpectrumIsReal : Obligations.PowerSpectrumIsReal := by
  unfold Obligations.PowerSpectrumIsReal
  refine fun x => ⟨fun hre him => ⟨cmul_conj_re hre him, fun hfin => ?_, fun hinf => ?_⟩, isNaN_cmul_conj⟩
  · rw [cmul_conj_im (isNaN_of_isFinite hfin), fadd_fneg_self hfin]
  · rw [cmul_conj_im (isNaN_of_isInf hinf), isNaN_fadd_fneg_self hinf]

/-! ## A detector that finds nothing (43_pitch.md R204) -/

theorem wins_eq_zero {v : Nat → F64} {lo hi b : Nat} (h : Wins v lo hi b)
    (hnone : ∀ i, lo ≤ i → i ≤ hi → fgt (v i) plusZero = false) : b = 0 := by
  obtain ⟨h0, -⟩ | ⟨hlo, hhi, hpos, -⟩ := h
  · exact h0
  · exact absurd (hpos.symm.trans (hnone b hlo hhi)) nofun

theorem pitchpk_finds_nothing {s t : State} {b : CBuf} (hs : s.holds (.pitchpk b))
    (hexec : exec (.pitchpk b) s = .next t)
    (hnone : ∀ i, s.params.pkFmin * s.opLen / s.opFs ≤ i →
      i ≤ min (s.params.pkFmax * s.opLen / s.opFs) (s.opLen / 2) →
      fgt (magnitude (s.cAt b i)) plusZero = false) :
    t.fPeak = 0 ∧ t.pkBin = 0 ∧ t.done = true ∧ t.err = s.err := by
  obtain ⟨bin, hwins, hnext⟩ := pitchpkSetsBinAndEstimate s b hs
  obtain rfl := wins_eq_zero hwins hnone
  obtain rfl := Host.Outcome.next.inj (hexec.symm.trans hnext)
  exact ⟨rfl, rfl, rfl, rfl⟩

theorem pitchhps_finds_nothing {s t : State} {b : CBuf} {h : BitVec 4} (hs : s.holds (.pitchhps b h))
    (hexec : exec (.pitchhps b h) s = .next t)
    (hnone : ∀ i, s.params.hpsFmin * s.opLen / s.opFs ≤ i →
      i ≤ min (s.params.hpsFmax * s.opLen / s.opFs) (s.opLen / (2 * h.toNat)) →
      fgt (t.rAt .r1 i) plusZero = false) :
    t.fHps = 0 ∧ t.hpsBin = 0 ∧ t.done = true ∧ t.err = s.err := by
  obtain ⟨t', bin, hnext, hstate, -, -, hwins, -⟩ := pitchhpsWritesProductsAndEstimate s b h hs
  obtain rfl := Host.Outcome.next.inj (hexec.symm.trans hnext)
  obtain rfl := wins_eq_zero hwins hnone
  rw [hstate]
  exact ⟨rfl, rfl, rfl, rfl⟩

theorem pitchac_finds_nothing {s t : State} {d b : CBuf} (hs : s.holds (.pitchac d b))
    (hexec : exec (.pitchac d b) s = .next t)
    (hnone : ∀ i, max 1 (s.opFs / s.params.acFmax) ≤ i → i ≤ min (s.opFs / s.params.acFmin) (s.opLen / 2) →
      fgt (t.cAt d i).re plusZero = false) :
    t.fAc = 0 ∧ t.acLag = 0 ∧ t.done = true ∧ t.err = s.err := by
  obtain ⟨t', lag, hnext, hstate, -, hwins, -⟩ := pitchacWritesAutocorrelationAndEstimate s d b hs
  obtain rfl := Host.Outcome.next.inj (hexec.symm.trans hnext)
  obtain rfl := wins_eq_zero hwins hnone
  rw [hstate]
  exact ⟨rfl, rfl, rfl, rfl⟩

/-- Settles O30: where nothing exceeds +0.0 the winner is index 0, whose estimate is +0.0. -/
theorem nothingFoundGivesTheSentinel : Obligations.NothingFoundGivesTheSentinel := by
  unfold Obligations.NothingFoundGivesTheSentinel
  exact fun s t b d h => ⟨pitchpk_finds_nothing, pitchhps_finds_nothing, pitchac_finds_nothing⟩

/-! ## Confidence (43_pitch.md R215) -/

/-- Settles O20: the meaning of CONF sets the register to the score and completes. -/
theorem confCombinesTheThreeEstimates : Obligations.ConfCombinesTheThreeEstimates := by
  unfold Obligations.ConfCombinesTheThreeEstimates
  intro s
  rfl

theorem packBits_signOf_of_isInf {f : F64} (h : isInf f = true) : packBits (signOf f) infBits = f := by
  rw [← (isInf_iff f).1 h, packBits_signOf_magBits]

theorem fadd_inf_inf {a b : F64} (ha : isInf a = true) (hb : isInf b = true) :
    isNaN (fadd a b) = true ∨ (fadd a b = a ∧ fadd a b = b) := by
  rw [fadd, roundedSum_inf_inf _ ha hb]
  split
  case isTrue hs =>
    have hab : a = b := by rw [← packBits_signOf_of_isInf ha, hs, packBits_signOf_of_isInf hb]
    exact .inr ⟨rfl, hab⟩
  case isFalse => exact .inl (isNaN_nanOut _ a b)

/-- What a non-finite operand `f` leaves of a result `r` it enters: a NaN, or `f` itself, infinite. -/
def Swallows (f r : F64) : Prop := isNaN r = true ∨ (isInf f = true ∧ r = f)

theorem Swallows.refl {f : F64} (h : isNaN f = true ∨ isInf f = true) : Swallows f f :=
  h.imp_right fun hinf => ⟨hinf, rfl⟩

theorem Swallows.fadd {f a : F64} (h : Swallows f a) (b : F64) :
    Swallows f (fadd a b) ∧ Swallows f (fadd b a) := by
  obtain hnan | ⟨hinf, rfl⟩ := h
  · exact ⟨.inl (isNaN_fadd (.inl hnan)), .inl (isNaN_fadd (.inr hnan))⟩
  cases hb : isNaN b with
  | true => exact ⟨.inl (isNaN_fadd (.inr hb)), .inl (isNaN_fadd (.inl hb))⟩
  | false =>
    obtain hbinf | hbfin := isInf_or_isFinite hb
    · exact ⟨(fadd_inf_inf hinf hbinf).imp_right fun ⟨e, _⟩ => ⟨hinf, e⟩,
        (fadd_inf_inf hbinf hinf).imp_right fun ⟨_, e⟩ => ⟨hinf, e⟩⟩
    · obtain ⟨e, e', -⟩ := fadd_fsub_inf_finite hinf hbfin
      exact ⟨.inr ⟨hinf, e⟩, .inr ⟨hinf, e'⟩⟩

theorem Swallows.fdiv_three {f a : F64} (h : Swallows f a) : Swallows f (fdiv a three) := by
  obtain hnan | ⟨hinf, rfl⟩ := h
  · exact .inl (isNaN_fdiv (.inl hnan))
  · have hsign : signOf three = false := by decide
    rw [fdiv_inf_finite hinf (by decide), hsign, Bool.bne_false, packBits_signOf_of_isInf hinf]
    exact .refl (.inr hinf)

theorem Swallows.isNaN_fsub {f r : F64} (h : Swallows f r) : isNaN (fsub f r) = true := by
  obtain hnan | ⟨hinf, rfl⟩ := h
  · exact Machine.isNaN_fsub (.inr hnan)
  · obtain ⟨-, hnan⟩ := (if_pos rfl).mp (fadd_fsub_inf_inf hinf hinf)
    exact hnan

theorem Swallows.feq_plusZero {f r : F64} (h : Swallows f r) : feq r plusZero = false := by
  obtain hnan | ⟨hinf, rfl⟩ := h
  · simp [feq, hnan]
  · rw [Bool.eq_false_iff, ne_eq, feq_iff, orderKey_eq_iff]
    rintro ⟨-, -, rfl | ⟨hzero, -⟩⟩
    · exact absurd hinf (by decide)
    · simp [isZero_of_isInf hinf] at hzero

/-- A NaN deviation from a mean that is no zero makes the variance a NaN, and with it the score. -/
theorem isNaN_confidence {f1 f2 f3 mean : F64} (hmean : fdiv (fadd (fadd f1 f2) f3) three = mean)
    (hzero : feq mean plusZero = false)
    (h : isNaN (fsub f1 mean) = true ∨ isNaN (fsub f2 mean) = true ∨ isNaN (fsub f3 mean) = true) :
    isNaN (confidence f1 f2 f3) = true := by
  have hsquares (d1 d2 d3 : F64) (hd : isNaN d1 = true ∨ isNaN d2 = true ∨ isNaN d3 = true) :
      isNaN (fadd (fadd (fmul d1 d1) (fmul d2 d2)) (fmul d3 d3)) = true := by
    obtain hd | hd | hd := hd
    · exact isNaN_fadd (.inl (isNaN_fadd (.inl (isNaN_fmul (.inl hd)))))
    · exact isNaN_fadd (.inl (isNaN_fadd (.inr (isNaN_fmul (.inl hd)))))
    · exact isNaN_fadd (.inr (isNaN_fmul (.inl hd)))
  have hroot := isNaN_fsqrt (isNaN_fdiv (b := three) (.inl (hsquares _ _ _ h)))
  simp only [confidence, hmean, hzero, Bool.false_eq_true, if_false]
  exact isNaN_fdiv (.inr (isNaN_fadd (.inr (isNaN_fdiv (.inl hroot)))))

/-- A mean that swallowed one of the estimates is no zero, and the deviation of that estimate is a NaN. -/
theorem isNaN_confidence_of_nonFinite {f1 f2 f3 : F64}
    (h : (isNaN f1 = true ∨ isNaN f2 = true ∨ isNaN f3 = true)
      ∨ (isInf f1 = true ∨ isInf f2 = true ∨ isInf f3 = true)) : isNaN (confidence f1 f2 f3) = true := by
  have hany : (isNaN f1 = true ∨ isInf f1 = true) ∨ (isNaN f2 = true ∨ isInf f2 = true)
      ∨ (isNaN f3 = true ∨ isInf f3 = true) := by tauto
  obtain h1 | h2 | h3 := hany
  · have hmean := (((Swallows.refl h1).fadd f2).1.fadd f3).1.fdiv_three
    exact isNaN_confidence rfl hmean.feq_plusZero (.inl hmean.isNaN_fsub)
  · have hmean := (((Swallows.refl h2).fadd f1).2.fadd f3).1.fdiv_three
    exact isNaN_confidence rfl hmean.feq_plusZero (.inr (.inl hmean.isNaN_fsub))
  · have hmean := ((Swallows.refl h3).fadd (fadd f1 f2)).2.fdiv_three
    exact isNaN_confidence rfl hmean.feq_plusZero (.inr (.inr hmean.isNaN_fsub))

theorem isZero_fadd {a b : F64} (ha : isZero a = true) (hb : isZero b = true) : isZero (fadd a b) = true := by
  have hsum : real a + real b = 0 := by rw [real_of_isZero ha, real_of_isZero hb, add_zero]
  rw [fadd, roundedSum_cancel _ (isFinite_of_isZero ha) (isFinite_of_isZero hb) hsum, ← packBits_zero]
  exact isZero_packBits_zero _

theorem isZero_fdiv {a b : F64} (ha : isZero a = true) (hb : isFinite b = true) (hz : isZero b = false) :
    isZero (fdiv a b) = true := by
  have hround : roundBits (unitsOf a * 2 ^ 1074) (unitsOf b) = 0 :=
    roundBits_exact _ _ 0 (unitsOf_pos hz) (by decide) (by rw [(isZero_iff a).1 ha, magUnits_zero, zero_mul, zero_mul])
  rw [fdiv_of_isFinite (isFinite_of_isZero ha) hb hz, hround]
  exact isZero_packBits_zero _

theorem feq_plusZero_of_isZero {a : F64} (h : isZero a = true) : feq a plusZero = true :=
  (feq_iff _ _).2 ⟨isNaN_of_isFinite (isFinite_of_isZero h), by decide, (orderKey_eq_iff _ _).2 (.inr ⟨h, by decide⟩)⟩

theorem confidence_of_isZero {f1 f2 f3 : F64} (h1 : isZero f1 = true) (h2 : isZero f2 = true)
    (h3 : isZero f3 = true) : confidence f1 f2 f3 = plusZero := by
  have hmean : isZero (fdiv (fadd (fadd f1 f2) f3) three) = true :=
    isZero_fdiv (isZero_fadd (isZero_fadd h1 h2) h3) (by decide) (by decide)
  exact if_pos (feq_plusZero_of_isZero hmean)

/-- Settles O34: a mean of non-finite estimates swallows one of them (`Swallows`), and a mean of zeros is a zero. -/
theorem confidenceOfDegenerateEstimates : Obligations.ConfidenceOfDegenerateEstimates :=
  ⟨fun _ _ _ => isNaN_confidence_of_nonFinite, fun _ _ _ => confidence_of_isZero⟩

end Sys2Proof.Machine
end

section
namespace Sys2Proof.Machine

open Sys2Proof.Spec

/-! ## WIN (44_window.md R240, R242) -/

/-- The envelope on a segment of a buffer is the segment of the buffer under the envelope. -/
theorem windowFrom_segment (p : Params) (kind : WindowKind) (n a count : Nat) (b : Nat → Cplx) :
    windowFrom p kind n a (segment a count b) = segment a count fun i => windowed (winCoef p kind i n) (b i) := by
  induction count generalizing a with
  | zero => rfl
  | succ count ih => rw [segment_succ, windowFrom, ih, segment_succ]

/-- Settles O21: the entries loaded are a segment of the buffer, on which the envelope acts entry by entry. -/
theorem winMultipliesEveryEntry : Obligations.WinMultipliesEveryEntry := by
  unfold Obligations.WinMultipliesEveryEntry
  intro s b kind _
  have henvelope := windowFrom_segment s.params kind s.opLen 0 s.opLen (s.cAt b)
  rw [← loadC_eq_segment] at henvelope
  refine ⟨_, rfl, rfl, fun i hi => ?_, fun a ha => ?_⟩ <;> rw [henvelope]
  · exact cAt_storeC_segment s b s.opLen i _ hi
  · exact byteAt_storeC_segment s b s.opLen _ a ha

/-! ## The first window coefficient (44_window.md R245) -/

theorem cos64_rounded_of_isZero {x : F64} (h : isZero x = true) : cos64 .rounded x = one := by
  have hunit : cosUnits 0 = one := by decide +kernel
  simp only [cos64, isFinite_of_isZero h, if_true, (isZero_iff x).1 h, hunit]

theorem isZero_i2f_of_ne_zero {n : Nat} (h0 : n ≠ 0) (h : n < 2 ^ 53) : isZero (i2f n) = false := by
  obtain ⟨-, -, hreal⟩ := integerConversionIsExact n h
  rw [← Bool.not_eq_true]
  intro hz
  rw [real_of_isZero hz] at hreal
  exact h0 (Nat.cast_eq_zero.1 hreal.symm)

/-- A zero divided by a length is an angle of cosine 1, whatever its sign. -/
theorem cos64_zero_fdiv_i2f {a : F64} {n : Nat} (ha : isZero a = true) (h0 : n ≠ 0) (h : n < 2 ^ 53) :
    cos64 .rounded (fdiv a (i2f n)) = one := by
  obtain ⟨hfinite, -, -⟩ := integerConversionIsExact n h
  exact cos64_rounded_of_isZero (isZero_fdiv ha hfinite (isZero_i2f_of_ne_zero h0 h))

/-- The denominator of a window of length 2 or more is not 0, under either convention. -/
theorem winDenom_bounds (d : WinDenom) {n : Nat} (h : 2 ≤ n) : winDenom d n ≠ 0 ∧ winDenom d n ≤ n := by
  cases d <;> simp only [winDenom] <;> omega

/-- The first angle of either frequency has cosine 1, which leaves one closed evaluation for each kind. -/
theorem defaultWinCoef_first (d : WinDenom) {n : Nat} (h2 : 2 ≤ n) (hn : n < 2 ^ 53) :
    defaultWinCoef .rounded d .hann 0 n = plusZero
      ∧ defaultWinCoef .rounded d .hamming 0 n = 0x3FB47AE147AE147C
      ∧ defaultWinCoef .rounded d .blackman 0 n = 0xBC70000000000000 := by
  obtain ⟨h0, hle⟩ := winDenom_bounds d h2
  have hth1 := cos64_zero_fdiv_i2f (a := fmul twoPi (i2f 0)) (by decide +kernel) h0 (hle.trans_lt hn)
  have hth2 := cos64_zero_fdiv_i2f (a := fmul fourPi (i2f 0)) (by decide +kernel) h0 (hle.trans_lt hn)
  simp only [defaultWinCoef, if_neg h0, hth1, hth2]
  decide +kernel

/-- Settles O32: the first coefficients are those at cosines of 1, and at length 1 the denominator N - 1 is 0. -/
theorem firstWindowCoefficients : Obligations.FirstWindowCoefficients := by
  unfold Obligations.FirstWindowCoefficients
  intro p hp htrig
  refine ⟨fun kind hd => ?_, fun n h2 hn => ?_⟩
  · rw [winCoef_default p kind 0 1 hp, hd]
    rfl
  · have hlt : n < 2 ^ 53 := (hn.trans (nmax_le p)).trans_lt (by decide)
    simpa only [winCoef_default p _ 0 n hp, htrig] using defaultWinCoef_first p.winDenom h2 hlt

end Sys2Proof.Machine
end

section
namespace Sys2Proof.Machine

open Sys2Proof.Spec

/-! ## The check of a word (60_exceptions.md R262 to R267) -/

theorem usesLen_iff (i : Instr) : usesLen i = true ↔ opcode i ∈ [1, 2, 3, 4, 5, 6, 8] := by
  cases i <;> simp [usesLen, opcode]

theorem usesFs_iff (i : Instr) : usesFs i = true ↔ opcode i ∈ [3, 4, 5, 6] := by
  cases i <;> simp [usesFs, opcode]

theorem hField_encode_pitchhps (s : CBuf) (h : BitVec 4) : hField (encode (.pitchhps s h)) = h := by
  revert h; cases s <;> decide

/-- The operands R266 rejects, read from the word: H = 0 of PITCHHPS and MAXP above PEAK_CAP of PEAKS. -/
theorem not_wellFormed_iff (i : Instr) (p : Params) :
    i.wellFormed p = false ↔
      (opcode i = 5 ∧ hField (encode i) = 0) ∨ (opcode i = 3 ∧ (maxpField (encode i)).toNat > p.peakCap) := by
  cases i with
  | pitchhps s h => simp [Instr.wellFormed, Instr.harmonicsLegal, Instr.maxPeaksLegal, opcode, hField_encode_pitchhps]
  | peaks s m =>
    simp [Instr.wellFormed, Instr.harmonicsLegal, Instr.maxPeaksLegal, opcode, maxpField_encode_peaks,
      ← Bool.not_eq_true]
  | nop | fft | mag | pitchpk | pitchac | conf | win =>
    simp [Instr.wellFormed, Instr.harmonicsLegal, Instr.maxPeaksLegal, opcode]

/-- The code of a decoded command is R267's chain on its word: the two chains test the same conditions. -/
theorem code_checkInstr {w : CmdWord} {i : Instr} (hd : decode w = .ok i) (p : Params) (len fs : BitVec 32) :
    (checkInstr p i len fs).code.toNat = checkCode p true w len fs := by
  obtain ⟨hcommand, rfl⟩ := decode_ok hd
  have hop : ((encode i).extractLsb' 0 4).toNat = opcode i := ((isCommand_iff _ _).1 hcommand).1
  have hoperands := not_wellFormed_iff i p
  simp only [hField, maxpField] at hoperands
  simp only [checkInstr, checkCode, hop, ← usesLen_iff, ← usesFs_iff, Bool.and_eq_true, Bool.not_eq_true',
    Nat.blt_eq, beq_iff_eq, hoperands, ite_or, apply_ite ErrCode.code, apply_ite BitVec.toNat]
  rfl

theorem outcomeCode_check {w : CmdWord} {i : Instr} (hd : decode w = .ok i) (p : Params) (len fs : BitVec 32) :
    outcomeCode (check p w len fs) = (checkInstr p i len fs).code.toNat := by
  simp only [check, hd]
  cases checkInstr p i len fs <;> rfl

/-- Settles O7: an illegal word gets code 1 whatever LEN and FS, and a legal one the chain's code. -/
theorem checkReportsTheLowestCode : Obligations.CheckReportsTheLowestCode := by
  unfold Obligations.CheckReportsTheLowestCode
  intro p w len fs legal hlegal
  cases hd : decode w with
  | error e =>
    have hillegal : legal = false :=
      Bool.eq_false_iff.2 fun h => (hlegal.1 h).elim (decode_error hd)
    rw [check_illegal hd, hillegal]
    rfl
  | ok i =>
    rw [outcomeCode_check hd, code_checkInstr hd, hlegal.2 ⟨_, (decode_ok hd).1⟩]

/-! ## An idle block (60_exceptions.md R282) -/

theorem engineStep_idle {s : State} (h : s.busy = false) : engineStep s = .next s := by
  rw [engineStep, (busy_eq_false_iff s).1 h]

/-- Settles O11: the engine's turn, listed or not, is `engineStep`, which has nothing pending to complete. -/
theorem idleBlockChangesNothing : Obligations.IdleBlockChangesNothing := by
  unfold Obligations.IdleBlockChangesNothing
  intro s hidle
  refine ⟨fun hturns => ?_, fun rest hturns => ?_⟩
  · rw [step, hturns]
    exact engineStep_idle hidle
  · rw [step, hturns]
    exact engineStep_idle (s := { s with turns := rest }) hidle

/-! ## What raises HAZ (60_exceptions.md R275) -/

/-- An access that reaches the buffers is one of a buffer word of R62's map. -/
theorem bufferWord_of_target {p : Params} {off : Offset} {a : Nat} (h : target p off = some (.buffer a)) :
    BufferWord p off.toNat := by
  obtain ⟨-, h8, hoff⟩ := (target_buffer_iff p off a).1 h
  refine ⟨(mapped_iff p off.toNat).2 (.inr hoff), ?_, h8⟩
  rw [isBufferOffset_iff] at hoff
  omega

/-- The offsets of the registers the engine owns while busy (70_reset_and_hazards.md R301). -/
theorem mem_of_ofOffset_owned {n : Nat} {r : Reg} (h : Reg.ofOffset n = some r) (hown : r.busyOwned = true) :
    n ∈ [0x20, 0x28, 0x30, 0x38, 0x48, 0x50, 0x58] := by
  have howned : ∀ n ≤ 0x78, (Reg.ofOffset n).any Reg.busyOwned = true →
      n ∈ [0x20, 0x28, 0x30, 0x38, 0x48, 0x50, 0x58] := by decide
  exact howned n (reg_ofOffset_some n r h).1 (by rw [h]; exact hown)

/-- No register write raises HAZ: an acknowledgement and a soft reset lower it, and every other write keeps it. -/
theorem writeReg_haz_of_false {s : State} (h : s.haz = false) (r : Reg) (v : Word) : (s.writeReg r v).haz = false := by
  cases r with
  | ctrl =>
    cases hv : v.getLsbD 1 with
    | true => rw [State.writeReg, writeCtrl_reset v s hv]; rfl
    | false => rw [State.writeReg, writeCtrl_keep v s hv]; exact h
  | status => simp [State.writeReg, h]
  | cmd => rw [State.writeReg, issue_haz]; exact h
  | len | fs | peakThr | fPeak | fHps | fAc | id | cfg | pcount | conf | pkBin | hpsBin | acLag => exact h

theorem read_haz_rises {off : Offset} {s : State} (hs : s.haz = false) (h : (hostTxn (.read off) s).haz = true) :
    s.busy = true ∧ BufferWord s.params off.toNat := by
  have kept {P : Prop} {r : Reply} (e : hostTxn (.read off) s = s.answer r) : P := by
    rw [e, answer_haz, hs] at h; cases h
  obtain ⟨-, e⟩ | ⟨_, -, e⟩ | ⟨_, htarget, hbusy, -⟩ | ⟨_, -, -, e⟩ := memRead_cases off s
  · exact kept e
  · exact kept e
  · exact ⟨hbusy, bufferWord_of_target htarget⟩
  · exact kept e

theorem write_haz_rises {off : Offset} {v : Word} {s : State} (hs : s.haz = false)
    (h : (hostTxn (.write off v) s).haz = true) :
    s.busy = true
      ∧ (off.toNat ∈ [0x20, 0x28, 0x30, 0x38, 0x48, 0x50, 0x58] ∨ BufferWord s.params off.toNat) := by
  have kept {P : Prop} {u : State} {r : Reply} (e : hostTxn (.write off v) s = u.answer r) (hu : u.haz = false) :
      P := by
    rw [e, answer_haz, hu] at h; cases h
  obtain ⟨-, e⟩ | ⟨hbusy, htarget, -⟩ | ⟨r, -, -, e⟩ | ⟨_, -, -, e⟩ := memWrite_cases off v s
  · exact kept e hs
  · refine ⟨hbusy, ?_⟩
    obtain ⟨r, hr, hown⟩ | ⟨_, ha⟩ := htarget
    · exact .inl (mem_of_ofOffset_owned ((target_reg_iff _ off r).1 hr) hown)
    · exact .inr (bufferWord_of_target ha)
  · exact kept e (writeReg_haz_of_false hs r v)
  · exact kept e hs

/-- The engine keeps HAZ, idle or completing a command. -/
theorem engineStep_haz {s t : State} (h : engineStep s = .next t) : t.haz = s.haz := by
  obtain ⟨-, rfl⟩ | ⟨-, -, hkeep, -⟩ := engineStep_next s t h
  · rfl
  · exact hkeep

/-- Settles O46: the engine keeps HAZ, a power-on reset clears it, and of the host's transactions those the busy rule
forbids alone raise it. -/
theorem onlyForbiddenAccessesSetHaz : Obligations.OnlyForbiddenAccessesSetHaz := by
  unfold Obligations.OnlyForbiddenAccessesSetHaz
  intro s t ht hs hup
  have kept {P : Prop} (h : t.haz = false) : P := absurd (h.symm.trans hup) nofun
  obtain ⟨-, e⟩ | ⟨rest, -, e⟩ | ⟨tx, rest, hturns, e⟩ | ⟨rest, -, e⟩ := step_cases s
  · exact kept ((engineStep_haz (e.symm.trans ht)).trans hs)
  · exact kept ((engineStep_haz (e.symm.trans ht)).trans hs)
  · obtain rfl := Host.Outcome.next.inj (e.symm.trans ht)
    cases tx with
    | read off =>
      obtain ⟨hbusy, hword⟩ := read_haz_rises (s := { s with turns := rest }) hs hup
      exact ⟨hbusy, off, rest, .inl ⟨hturns, hword⟩⟩
    | write off v =>
      obtain ⟨hbusy, hforbidden⟩ := write_haz_rises (s := { s with turns := rest }) hs hup
      exact ⟨hbusy, off, rest, .inr ⟨v, hturns, hforbidden⟩⟩
  · obtain rfl := Host.Outcome.next.inj (e.symm.trans ht)
    exact kept rfl

/-! ## What raises and drops `irq` (60_exceptions.md R270, R271) -/

/-- Completion raises DONE and keeps IE. -/
theorem exec_irq {i : Instr} {s t : State} (h : exec i s = .next t) : t.irq = s.ie := by
  obtain ⟨t', h', e⟩ := exec_next i s
  obtain rfl := Host.Outcome.next.inj (h'.symm.trans h)
  rw [e]
  exact Bool.and_true s.ie

/-- Rejection raises ERR and keeps IE. -/
theorem issue_rejected_irq {w : CmdWord} {s : State} {e : ErrCode} (h : check s.params w s.len s.fs = .error e) :
    (issue w s).irq = s.ie := by
  rw [issue_rejected w s e h]
  exact Bool.and_true s.ie

theorem acknowledge_both_irq {v : Word} (hdone : v.getLsbD 1 = true) (herr : v.getLsbD 2 = true) (s : State) :
    (acknowledge v s).irq = false := by
  simp [State.irq, hdone, herr]

/-- Settles O48: each event leaves `irq` as the flags it sets and IE give it. -/
theorem irqFollowsTheFlags : Obligations.IrqFollowsTheFlags := by
  unfold Obligations.IrqFollowsTheFlags
  intro s
  refine ⟨irq_iff s, fun i t => exec_irq, fun v e hidle he => ?_, fun v hdone herr => ?_, fun v hie hsrst => ?_⟩
  · rw [write_cmd_idle v s hidle]
    exact issue_rejected_irq he
  · rw [write_status 0x18 v s rfl]
    exact acknowledge_both_irq hdone herr s
  · rw [write_ctrl 0x10 v s rfl, writeCtrl_keep v s hsrst, hie]
    exact Bool.true_and _

end Sys2Proof.Machine
end

section
/-! Resets: the words a soft reset draws (70_reset_and_hazards.md R292; log entry 4). -/

namespace Sys2Proof.Machine

open Sys2Proof.Spec

/-! ## Runs of words -/

/-- Offset `a` lies in one of the runs. -/
def InRuns (rs : List (Nat × Nat)) (a : Nat) : Prop := ∃ r ∈ rs, r.1 ≤ a ∧ a < r.1 + 8 * r.2

/-- Runs of whole words, each run after the end of those before it. -/
structure RisingRuns (rs : List (Nat × Nat)) : Prop where
  aligned : ∀ r ∈ rs, r.1 % 8 = 0
  disjoint : rs.Pairwise fun r r' => r.1 + 8 * r.2 ≤ r'.1

theorem inRuns_cons (r : Nat × Nat) (rs : List (Nat × Nat)) (a : Nat) :
    InRuns (r :: rs) a ↔ (r.1 ≤ a ∧ a < r.1 + 8 * r.2) ∨ InRuns rs a :=
  List.exists_mem_cons_iff _ r rs

theorem inRuns_singleton (r : Nat × Nat) (a : Nat) : InRuns [r] a ↔ r.1 ≤ a ∧ a < r.1 + 8 * r.2 := by
  simp [InRuns]

section
variable {r : Nat × Nat} {rs : List (Nat × Nat)}

theorem RisingRuns.singleton (h : r.1 % 8 = 0) : RisingRuns [r] :=
  ⟨fun _ hr => List.mem_singleton.1 hr ▸ h, List.pairwise_singleton _ r⟩

theorem RisingRuns.tail (h : RisingRuns (r :: rs)) : RisingRuns rs :=
  ⟨fun r' hr => h.aligned r' (List.mem_cons_of_mem r hr), h.disjoint.tail⟩

theorem RisingRuns.head_aligned (h : RisingRuns (r :: rs)) : r.1 % 8 = 0 := h.aligned r List.mem_cons_self

theorem RisingRuns.head_le_of_mem (h : RisingRuns (r :: rs)) {r' : Nat × Nat} (hr : r' ∈ rs) :
    r.1 + 8 * r.2 ≤ r'.1 :=
  (List.pairwise_cons.1 h.disjoint).1 r' hr

theorem RisingRuns.head_le_of_inRuns (h : RisingRuns (r :: rs)) {a : Nat} (ha : InRuns rs a) :
    r.1 + 8 * r.2 ≤ a := by
  obtain ⟨r', hr, hlo, -⟩ := ha
  exact (h.head_le_of_mem hr).trans hlo

end

/-! ## The number of the value drawn for a word -/

/-- The number `State.drawWords` gives the word at `a`, when run after run is drawn and the first number is `d`. -/
def drawNumber : Nat → List (Nat × Nat) → Nat → Nat
  | d, [], _ => d
  | d, r :: rs, a => if a < r.1 + 8 * r.2 then d + (a - r.1) / 8 else drawNumber (d + r.2) rs a

section
variable {r : Nat × Nat} {rs : List (Nat × Nat)} {a : Nat}

theorem drawNumber_head (d : Nat) (h : a < r.1 + 8 * r.2) : drawNumber d (r :: rs) a = d + (a - r.1) / 8 :=
  if_pos h

theorem drawNumber_tail (d : Nat) (h : r.1 + 8 * r.2 ≤ a) : drawNumber d (r :: rs) a = drawNumber (d + r.2) rs a :=
  if_neg (Nat.not_lt.2 h)

theorem le_drawNumber (d : Nat) (rs : List (Nat × Nat)) (a : Nat) : d ≤ drawNumber d rs a := by
  induction rs generalizing d with
  | nil => exact le_rfl
  | cons r rs ih =>
    rw [drawNumber]
    split
    · exact Nat.le_add_right d _
    · exact (Nat.le_add_right d r.2).trans (ih (d + r.2))

/-- Lower offsets are drawn first (log entry 4), so no two words of the runs share a number. -/
theorem drawNumber_strictMonoOn (d : Nat) (h : RisingRuns rs) :
    StrictMonoOn (drawNumber d rs) {a | a % 8 = 0 ∧ InRuns rs a} := by
  induction rs generalizing d with
  | nil => rintro a ⟨-, _, hr, -⟩; cases hr
  | cons r rs ih =>
    rintro a ⟨h8, ha⟩ a' ⟨h8', ha'⟩ hlt
    have hr8 := h.head_aligned
    obtain ⟨hlo, hhi⟩ | ha := (inRuns_cons r rs a).1 ha
    · rw [drawNumber_head d hhi]
      obtain ⟨hlo', hhi'⟩ | ha' := (inRuns_cons r rs a').1 ha'
      · rw [drawNumber_head d hhi']
        omega
      · rw [drawNumber_tail d (h.head_le_of_inRuns ha')]
        have := le_drawNumber (d + r.2) rs a'
        omega
    · have hend := h.head_le_of_inRuns ha
      obtain ⟨-, hhi'⟩ | ha' := (inRuns_cons r rs a').1 ha'
      · omega
      · rw [drawNumber_tail d hend, drawNumber_tail d (h.head_le_of_inRuns ha')]
        exact ih (d + r.2) h.tail ⟨h8, ha⟩ ⟨h8', ha'⟩ hlt

theorem draws_le_foldl_drawWords (s : State) (rs : List (Nat × Nat)) :
    s.draws ≤ (rs.foldl State.drawWords s).draws := by
  induction rs generalizing s with
  | nil => exact le_rfl
  | cons r rs ih => exact (Nat.le_add_right s.draws r.2).trans (ih (s.drawWords r))

theorem drawNumber_lt_draws (s : State) (h : RisingRuns rs) (ha : InRuns rs a) :
    drawNumber s.draws rs a < (rs.foldl State.drawWords s).draws := by
  induction rs generalizing s with
  | nil => obtain ⟨_, hr, -⟩ := ha; cases hr
  | cons r rs ih =>
    obtain ⟨hlo, hhi⟩ | ha := (inRuns_cons r rs a).1 ha
    · rw [drawNumber_head _ hhi]
      calc s.draws + (a - r.1) / 8
        _ < (s.drawWords r).draws := by rw [drawWords_draws]; omega
        _ ≤ _ := draws_le_foldl_drawWords (s.drawWords r) rs
    · rw [drawNumber_tail _ (h.head_le_of_inRuns ha)]
      exact ih (s.drawWords r) h.tail ha

/-! ## What drawing the runs leaves -/

theorem byteAt_foldl_drawWords_of_not_inRuns (s : State) (ha : ¬InRuns rs a) :
    (rs.foldl State.drawWords s).byteAt a = s.byteAt a :=
  byteAt_foldl_drawWords_outside s rs a fun r hr =>
    (lt_or_ge a r.1).imp_right fun hlo => Nat.not_lt.1 fun hhi => ha ⟨r, hr, hlo, hhi⟩

theorem wordAt_congr {s s' : State} (h : ∀ k < 8, s.byteAt (a + k) = s'.byteAt (a + k)) :
    s.wordAt a = s'.wordAt a := by
  rw [State.wordAt, State.wordAt, List.map_congr_left fun k hk => h k (List.mem_range.1 hk)]

theorem wordAt_drawWords (s : State) (r : Nat × Nat) {t : Nat} (ht : t < r.2) :
    (s.drawWords r).wordAt (r.1 + 8 * t) = Config.draw (s.draws + t) := by
  have hstored := wordAt_storeWords_inside s r.1 ((List.range r.2).map fun t => Config.draw (s.draws + t)) t
    (by simpa using ht)
  rw [List.getElem_map, List.getElem_range] at hstored
  exact hstored

/-- A word of the runs holds the value of its number: no later run overlaps the one it is drawn in. -/
theorem wordAt_foldl_drawWords (s : State) (h : RisingRuns rs) (h8 : a % 8 = 0) (ha : InRuns rs a) :
    (rs.foldl State.drawWords s).wordAt a = Config.draw (drawNumber s.draws rs a) := by
  induction rs generalizing s with
  | nil => obtain ⟨_, hr, -⟩ := ha; cases hr
  | cons r rs ih =>
    obtain ⟨hlo, hhi⟩ | ha := (inRuns_cons r rs a).1 ha
    · have hr8 := h.head_aligned
      have hlater (k : Nat) (hk : k < 8) : ¬InRuns rs (a + k) := fun hin => by
        have := h.head_le_of_inRuns hin
        omega
      have hword : a = r.1 + 8 * ((a - r.1) / 8) := by omega
      calc (rs.foldl State.drawWords (s.drawWords r)).wordAt a
        _ = (s.drawWords r).wordAt a :=
          wordAt_congr fun k hk => byteAt_foldl_drawWords_of_not_inRuns _ (hlater k hk)
        _ = (s.drawWords r).wordAt (r.1 + 8 * ((a - r.1) / 8)) := by rw [← hword]
        _ = Config.draw (s.draws + (a - r.1) / 8) := wordAt_drawWords s r (by omega)
        _ = Config.draw (drawNumber s.draws (r :: rs) a) := by rw [drawNumber_head _ hhi]
    · rw [drawNumber_tail _ (h.head_le_of_inRuns ha)]
      exact ih (s.drawWords r) h.tail ha

end

/-! ## The write set (70_reset_and_hazards.md R292) -/

theorem cAddr_aligned (b : CBuf) (i : Nat) : cAddr b i % 8 = 0 := by
  cases b <;> simp only [cAddr, cBase] <;> omega

theorem rAddr_aligned (b : RBuf) (i : Nat) : rAddr b i % 8 = 0 := by
  cases b <;> simp only [rAddr, rBase] <;> omega

theorem pAddr_aligned (j : Nat) : pAddr j % 8 = 0 := by
  simp only [pAddr, pBase]; omega

theorem inRuns_inC (b : CBuf) (n a : Nat) : InRuns [(cAddr b 0, 2 * n)] a ↔ InC b n a := by
  rw [inRuns_singleton, InC, cAddr, cAddr]; omega

theorem inRuns_inR (b : RBuf) (n a : Nat) : InRuns [(rAddr b 0, n)] a ↔ InR b n a := by
  rw [inRuns_singleton, InR, rAddr, rAddr]; omega

/-- The runs of the write set hold the bytes R292 lists. -/
theorem inRuns_writeSet (i : Instr) (n a : Nat) : InRuns (writeSet i n) a ↔ LosesByte i n a := by
  cases i with
  | nop | conf | pitchpk => exact iff_of_false (fun ⟨_, hr, _⟩ => List.not_mem_nil hr) id
  | fft b | win b | pitchac b => exact inRuns_inC b n a
  | mag d => exact inRuns_inR d n a
  | pitchhps =>
    calc InRuns [(rAddr .r0 0, n), (rAddr .r1 0, n / 2 + 1)] a
      _ ↔ InRuns [(rAddr .r0 0, n)] a ∨ InRuns [(rAddr .r1 0, n / 2 + 1)] a := by
        rw [inRuns_cons, inRuns_singleton, inRuns_singleton]
      _ ↔ InR .r0 n a ∨ InR .r1 (n / 2 + 1) a := or_congr (inRuns_inR .r0 n a) (inRuns_inR .r1 _ a)
  | peaks => simp [InRuns, writeSet, LosesByte, InP]

/-- PITCHHPS alone draws words of two buffers; R0 ends below R1 because N is at most NMAX. -/
theorem writeSet_risingRuns (p : Params) (i : Instr) (n : Nat) (hn : usesLen i = true → n ≤ p.nmax) :
    RisingRuns (writeSet i n) := by
  cases i with
  | nop | conf | pitchpk => exact ⟨nofun, List.Pairwise.nil⟩
  | fft b | win b | pitchac b => exact .singleton (cAddr_aligned b 0)
  | mag d => exact .singleton (rAddr_aligned d 0)
  | pitchhps =>
    have hmax : n ≤ 65536 := (hn rfl).trans (nmax_le p)
    refine ⟨fun r hr => ?_, List.pairwise_pair.2 ?_⟩
    · obtain rfl | rfl := List.mem_pair.1 hr
      · exact rAddr_aligned .r0 0
      · exact rAddr_aligned .r1 0
    · simp only [rAddr, rBase]
      omega
  | peaks b m =>
    refine ⟨fun r hr => ?_, List.pairwise_map.2 (List.pairwise_lt_range.imp fun hlt => ?_)⟩
    · obtain ⟨j, -, rfl⟩ := List.mem_map.1 hr
      exact pAddr_aligned j
    · simp only [pAddr]
      omega

theorem State.holds.writeSet_risingRuns {s : State} {i : Instr} (h : s.holds i) :
    RisingRuns (writeSet i s.opLen) :=
  Machine.writeSet_risingRuns s.params i s.opLen fun hu => (h.opLen_legal hu).2

/-! ## The command a soft reset aborts -/

theorem scramble_of_holds {s : State} {i : Instr} (h : s.holds i) :
    s.scramble = (writeSet i s.opLen).foldl State.drawWords s := by
  obtain ⟨p, hp, hc⟩ := h
  rw [State.scramble, State.opLen, hp]
  simp only [((check_ok_iff _ _ _ _ _).1 hc).1]

theorem scramble_of_idle {s : State} (h : s.pending = none) : s.scramble = s := by
  rw [State.scramble, h]

theorem Inv.idle_or_holds {s : State} (h : Inv s) : s.pending = none ∨ ∃ i, s.holds i := by
  cases hp : s.pending with
  | none => exact .inl rfl
  | some p =>
    obtain ⟨-, -, -, i, hc⟩ := h.pendingAccepted p hp
    exact .inr ⟨i, p, hp, hc⟩

theorem Inv.byteAt_scramble {s : State} (hinv : Inv s) {a : Nat} (ha : ∀ i, s.holds i → ¬LosesByte i s.opLen a) :
    s.scramble.byteAt a = s.byteAt a := by
  obtain hidle | ⟨i, hi⟩ := hinv.idle_or_holds
  · rw [scramble_of_idle hidle]
  · rw [scramble_of_holds hi]
    exact byteAt_foldl_drawWords_of_not_inRuns s ((inRuns_writeSet i s.opLen a).not.2 (ha i hi))

theorem write_ctrl_srst (s : State) {v : Word} (hv : v.getLsbD 1 = true) :
    hostTxn (.write 0x10 v) s = (softReset s).answer (.write .ok) := by
  rw [write_ctrl 0x10 v s rfl, writeCtrl_reset v s hv]

/-- The registers are those of reset; the bytes and the counters are those of `State.scramble`. -/
theorem softReset_answer_eq (s : State) (r : Reply) :
    (softReset s).answer r = { State.reset with
      params := s.params, mem := s.scramble.mem, epoch := s.epoch, draws := s.scramble.draws, turns := s.turns
      reply := some r } := by
  simp only [softReset, State.answer, scramble_epoch, scramble_turns]

/-- Settles O53: the bytes after the reset are those `State.scramble` leaves, which draws the runs of the write set of
the command in flight, and `drawNumber` numbers its words. -/
theorem softResetDrawsTheWriteSet : Obligations.SoftResetDrawsTheWriteSet := by
  unfold Obligations.SoftResetDrawsTheWriteSet
  intro s v hinv hv
  refine ⟨_, write_ctrl_srst s hv, softReset_answer_eq s _, fun a ha => ?_, fun i hi => ?_⟩
  · exact hinv.byteAt_scramble ha
  · have hruns := hi.writeSet_risingRuns
    have hin {a : Nat} (ha : LosesByte i s.opLen a) := (inRuns_writeSet i s.opLen a).2 ha
    refine ⟨drawNumber s.draws (writeSet i s.opLen), fun a h8 ha => ⟨le_drawNumber _ _ a, ?_, ?_⟩,
      fun a a' h8 h8' ha ha' => (drawNumber_strictMonoOn s.draws hruns).injOn ⟨h8, hin ha⟩ ⟨h8', hin ha'⟩⟩
    · change _ < s.scramble.draws
      rw [scramble_of_holds hi]
      exact drawNumber_lt_draws s hruns (hin ha)
    · change s.scramble.wordAt a = _
      rw [scramble_of_holds hi]
      exact wordAt_foldl_drawWords s hruns h8 (hin ha)

end Sys2Proof.Machine
end

section
namespace Sys2Proof.Machine

/-! ## A placed command (the model's own placing, log entry 8) -/

/-- With a legal LEN and legal operands, R267's chain comes down to its last test. -/
theorem checkInstr_of_legal {p : Params} {i : Instr} {len : BitVec 32}
    (hlen : usesLen i = true → isPow2 len.toNat = true ∧ len.toNat ≤ p.nmax) (hw : i.wellFormed p = true)
    (fs : BitVec 32) : checkInstr p i len fs = if usesFs i && fs == 0 then .badFs else .none := by
  have hpow : ¬(usesLen i && !isPow2 len.toNat) = true := by simpa using fun hu => (hlen hu).1
  have hmax : ¬(usesLen i && Nat.blt p.nmax len.toNat) = true := by simpa [Nat.blt_eq] using fun hu => (hlen hu).2
  rw [checkInstr, if_neg hpow, if_neg hmax, if_neg (by simp [hw])]

theorem check_error_iff {p : Params} {w : CmdWord} {i : Instr} {len fs : BitVec 32} {e : ErrCode}
    (hd : decode w = .ok i) (he : e ≠ .none) : check p w len fs = .error e ↔ checkInstr p i len fs = e := by
  simp only [check, hd]
  cases checkInstr p i len fs with
  | none => simpa using he.symm
  | _ => simp

/-- The LEN held is replaced exactly where the check rejects it. -/
theorem fetchLen_cases (w : CmdWord) (s : State) :
    fetchLen w s = 1 ∨ (fetchLen w s = s.len ∧ check s.params w s.len s.fs ≠ .error .invalidSize
      ∧ check s.params w s.len s.fs ≠ .error .sizeRange) := by
  unfold fetchLen
  split
  · exact .inl rfl
  · exact .inl rfl
  · next hsize hrange => exact .inr ⟨rfl, hsize, hrange⟩

theorem fetchFs_cases (w : CmdWord) (s : State) :
    fetchFs w s = 44100 ∨ (fetchFs w s = s.fs ∧ check s.params w (fetchLen w s) s.fs ≠ .error .badFs) := by
  unfold fetchFs
  split
  · exact .inl rfl
  · next hfs => exact .inr ⟨rfl, hfs⟩

/-- A LEN that was kept passed R267's first two tests; 1 passes them under every NMAX. -/
theorem fetchLen_legal {w : CmdWord} {i : Instr} (hd : decode w = .ok i) (s : State) (hu : usesLen i = true) :
    isPow2 (fetchLen w s).toNat = true ∧ (fetchLen w s).toNat ≤ s.params.nmax := by
  obtain h | ⟨h, hsize, hrange⟩ := fetchLen_cases w s <;> rw [h]
  · exact ⟨by decide, one_le_two.trans (two_le_nmax s.params)⟩
  · rw [Ne, check_error_iff hd (by decide)] at hsize hrange
    have hpow : isPow2 s.len.toNat = true := by
      by_contra hpow
      exact hsize (by simp [checkInstr, hu, hpow])
    refine ⟨hpow, ?_⟩
    by_contra hmax
    exact hrange (by simp [checkInstr, hu, hpow, Nat.blt_eq, Nat.lt_of_not_le hmax])

/-- An FS that was kept is not 0: with a legal LEN and legal operands, FS = 0 is what the check would report. -/
theorem fetchFs_ne_zero {w : CmdWord} {i : Instr} (hd : decode w = .ok i) (s : State)
    (hw : i.wellFormed s.params = true) (hu : usesFs i = true) : fetchFs w s ≠ 0 := by
  obtain h | ⟨h, hbad⟩ := fetchFs_cases w s <;> rw [h]
  · decide
  · rw [Ne, check_error_iff hd (by decide), checkInstr_of_legal (fetchLen_legal hd s) hw] at hbad
    simpa [hu] using hbad

/-- A well-formed command is accepted under the LEN and FS it is placed with. -/
theorem check_fetch {w : CmdWord} {i : Instr} (hd : decode w = .ok i) {s : State} (hw : i.wellFormed s.params = true) :
    check s.params w (fetchLen w s) (fetchFs w s) = .ok i :=
  have hfs : ¬(usesFs i && fetchFs w s == 0) = true := by simpa using fetchFs_ne_zero hd s hw
  (check_ok_iff _ _ _ _ _).2 ⟨hd, by rw [checkInstr_of_legal (fetchLen_legal hd s) hw, if_neg hfs]⟩

/-- Placing an accepted word makes it the pending command and the engine's the next move. -/
theorem withFetchWord_accepted {s : State} {w : CmdWord} {i : Instr}
    (h : check s.params w (fetchLen w s) (fetchFs w s) = .ok i) :
    (s.withFetchWord 32 w.toNat).holds i ∧ (s.withFetchWord 32 w.toNat).turns = .engine :: s.turns := by
  have hword : BitVec.ofNat 32 (w.toNat % 2 ^ 32) = w := by
    rw [Nat.mod_eq_of_lt w.isLt, BitVec.ofNat_toNat, BitVec.setWidth_eq]
  simp only [State.withFetchWord, hword, h]
  exact ⟨⟨_, rfl, h⟩, trivial⟩

/-- Settles O12: the word decodes to the command, the LEN and FS it is placed with let the check accept it, and the
engine's turn runs what is pending. -/
theorem fetchWordRunsNext : Obligations.FetchWordRunsNext := by
  unfold Obligations.FetchWordRunsNext
  intro s i hw
  obtain ⟨hholds, hturns⟩ := withFetchWord_accepted (check_fetch (decode_encode i) hw)
  exact ⟨hholds, step_engine hholds hturns⟩

end Sys2Proof.Machine
end
